-- ==== Sys2Proof/Word.lean ====
section
/-! DEFINITION. The word types of SKFE (00_scope.md R10, R11). -/

namespace Sys2Proof

/-- A register or command word: 32 bits, bit 0 least significant (R10). -/
abbrev Word := BitVec 32

/-- One byte of the packet buffer or of a wire format (R43). -/
abbrev Byte := BitVec 8

end Sys2Proof
end

