-- ==== Sys2Proof/Syntax.lean ====
section
/-! DEFINITION. The commands of SKFE, one constructor per row of the opcode map (30_encoding.md R103), and a
command word taken apart into its fields (R100). -/

namespace Sys2Proof

/-- The 21 commands. `c` is the context bank number, word[11:8]; the Boolean arguments are the flags F0 and F1
(R102). The number of a bank that does not exist is a legal operand (R102). -/
inductive Instr where
  | nop
  | rtpEncode
  | rtpDecode
  | sessInit (randSsrc randSeq : Bool)
  | sessCreatePacket (marker : Bool)
  | sessProcessReceived
  | seqDiff
  | rtcpCreateSr
  | rtcpCreateRr
  | rtcpCreateBye
  | rtcpParse
  | ctxInit (c : BitVec 4)
  | ctxUpdateKey (c : BitVec 4)
  | ctxTeardown (c : BitVec 4)
  | kdf (c : BitVec 4) (rtcp : Bool)
  | srtpTx (c : BitVec 4)
  | srtpRxCheck (c : BitVec 4)
  | srtpRxCommit (c : BitVec 4) (authOk : Bool)
  | srtcpTx (c : BitVec 4)
  | srtcpRxCheck (c : BitVec 4)
  | srtcpRxCommit (c : BitVec 4) (authOk : Bool)
  deriving DecidableEq, Repr

/-- The fields of a command word (R100). -/
structure CmdFields where
  /-- OPC, word[7:0]. -/
  opc : BitVec 8
  /-- CTX, word[11:8]. -/
  ctx : BitVec 4
  /-- reserved, word[15:12]. -/
  resLo : BitVec 4
  /-- F0, word[16]. -/
  f0 : Bool
  /-- F1, word[17]. -/
  f1 : Bool
  /-- reserved, word[31:18]. -/
  resHi : BitVec 14
  deriving DecidableEq, Repr

/-- A command word's fields, as R100 places them. -/
def CmdFields.ofWord (w : Word) : CmdFields :=
  { opc := w.extractLsb' 0 8, ctx := w.extractLsb' 8 4, resLo := w.extractLsb' 12 4,
    f0 := w.getLsbD 16, f1 := w.getLsbD 17, resHi := w.extractLsb' 18 14 }

end Sys2Proof
end

