-- ==== Sys2Proof/Decode.lean ====
section
/-! DEFINITION. Decoding a command word by the opcode map and its mask and match (30_encoding.md R103, R104), and
encoding a command as a word (R100, R103). -/

namespace Sys2Proof

/-- Why a word is illegal (R104, R105). Every one of these ends as IllegalCommand when the engine runs it. -/
inductive DecodeReject where
  /-- OPC is not in the table of R103. -/
  | reservedOpcode
  /-- A reserved bit, or a field the opcode does not use, is not 0. -/
  | nonzeroField
  deriving DecidableEq, Repr

/-- One row of the opcode map (R103): which fields the opcode uses, and the command it stands for. -/
structure OpcodeRow where
  opc : BitVec 8
  ctx : Bool
  f0 : Bool
  f1 : Bool
  build : BitVec 4 → Bool → Bool → Instr

/-- The rows of 40_control.md and 41_rtp_codec.md. -/
def codecRows : List OpcodeRow :=
  [⟨0x00, false, false, false, fun _ _ _ => .nop⟩,
   ⟨0x01, false, false, false, fun _ _ _ => .rtpEncode⟩,
   ⟨0x02, false, false, false, fun _ _ _ => .rtpDecode⟩]

/-- The rows of 42_rtp_session.md. -/
def sessionRows : List OpcodeRow :=
  [⟨0x08, false, true, true, fun _ f0 f1 => .sessInit f0 f1⟩,
   ⟨0x09, false, true, false, fun _ f0 _ => .sessCreatePacket f0⟩,
   ⟨0x0A, false, false, false, fun _ _ _ => .sessProcessReceived⟩,
   ⟨0x0B, false, false, false, fun _ _ _ => .seqDiff⟩]

/-- The rows of 43_rtcp.md. -/
def rtcpRows : List OpcodeRow :=
  [⟨0x10, false, false, false, fun _ _ _ => .rtcpCreateSr⟩,
   ⟨0x11, false, false, false, fun _ _ _ => .rtcpCreateRr⟩,
   ⟨0x12, false, false, false, fun _ _ _ => .rtcpCreateBye⟩,
   ⟨0x13, false, false, false, fun _ _ _ => .rtcpParse⟩]

/-- The rows of 44_srtp_context_kdf.md. -/
def contextRows : List OpcodeRow :=
  [⟨0x20, true, false, false, fun c _ _ => .ctxInit c⟩,
   ⟨0x21, true, false, false, fun c _ _ => .ctxUpdateKey c⟩,
   ⟨0x22, true, false, false, fun c _ _ => .ctxTeardown c⟩,
   ⟨0x23, true, true, false, fun c f0 _ => .kdf c f0⟩]

/-- The rows of 45_srtp_index_replay.md. -/
def srtpRows : List OpcodeRow :=
  [⟨0x28, true, false, false, fun c _ _ => .srtpTx c⟩,
   ⟨0x29, true, false, false, fun c _ _ => .srtpRxCheck c⟩,
   ⟨0x2A, true, true, false, fun c f0 _ => .srtpRxCommit c f0⟩,
   ⟨0x2C, true, false, false, fun c _ _ => .srtcpTx c⟩,
   ⟨0x2D, true, false, false, fun c _ _ => .srtcpRxCheck c⟩,
   ⟨0x2E, true, true, false, fun c f0 _ => .srtcpRxCommit c f0⟩]

/-- The opcode map (R103). -/
def opcodeRows : List OpcodeRow := codecRows ++ sessionRows ++ rtcpRows ++ contextRows ++ srtpRows

/-- R104's mask: the reserved bits and OPC, and each field the opcode leaves unused. -/
def OpcodeRow.mask (r : OpcodeRow) : Word :=
  0xFFFCF0FF#32 ||| (if r.ctx then 0 else 0x00000F00#32) ||| (if r.f0 then 0 else 0x00010000#32) |||
    (if r.f1 then 0 else 0x00020000#32)

/-- The row for an opcode. -/
def opcodeRow (opc : BitVec 8) : Option OpcodeRow := opcodeRows.find? (fun r => r.opc == opc)

/-- The command a word stands for: total, rejecting by name. Legal iff (word & mask) = match (R104); the fields are
read as R102 says. -/
def decode (w : Word) : Except DecodeReject Instr :=
  match opcodeRow (w.extractLsb' 0 8) with
  | none => .error .reservedOpcode
  | some r =>
    if w &&& r.mask = r.opc.setWidth 32 then
      .ok (r.build (w.extractLsb' 8 4) (w.getLsbD 16) (w.getLsbD 17))
    else .error .nonzeroField

/-- A command word laid out as R100 places its fields, the reserved bits 0. -/
def layWord (opc : BitVec 8) (c : BitVec 4) (f0 f1 : Bool) : Word :=
  opc.setWidth 32 ||| (c.setWidth 32 <<< 8) ||| ((BitVec.ofBool f0).setWidth 32 <<< 16) |||
    ((BitVec.ofBool f1).setWidth 32 <<< 17)

/-- The word of a command (R103, R106). -/
def encode : Instr → Word
  | .nop => layWord 0x00 0 false false
  | .rtpEncode => layWord 0x01 0 false false
  | .rtpDecode => layWord 0x02 0 false false
  | .sessInit randSsrc randSeq => layWord 0x08 0 randSsrc randSeq
  | .sessCreatePacket marker => layWord 0x09 0 marker false
  | .sessProcessReceived => layWord 0x0A 0 false false
  | .seqDiff => layWord 0x0B 0 false false
  | .rtcpCreateSr => layWord 0x10 0 false false
  | .rtcpCreateRr => layWord 0x11 0 false false
  | .rtcpCreateBye => layWord 0x12 0 false false
  | .rtcpParse => layWord 0x13 0 false false
  | .ctxInit c => layWord 0x20 c false false
  | .ctxUpdateKey c => layWord 0x21 c false false
  | .ctxTeardown c => layWord 0x22 c false false
  | .kdf c rtcp => layWord 0x23 c rtcp false
  | .srtpTx c => layWord 0x28 c false false
  | .srtpRxCheck c => layWord 0x29 c false false
  | .srtpRxCommit c authOk => layWord 0x2A c authOk false
  | .srtcpTx c => layWord 0x2C c false false
  | .srtcpRxCheck c => layWord 0x2D c false false
  | .srtcpRxCommit c authOk => layWord 0x2E c authOk false

/-- The instruction the decoder reads from `nbits` bits `w` numbered as spec/opcode_table.json numbers them; a
command is exactly one 32-bit word (R101), so bits above `nbits` are 0 and more than 32 bits are no command. -/
def decodeTableWord (nbits w : Nat) : Option Instr :=
  if nbits ≤ 32 then
    match decode (BitVec.ofNat 32 (w % 2 ^ nbits)) with
    | .ok i => some i
    | .error _ => none
  else none

end Sys2Proof
end

