-- ==== Sys2Proof/Config.lean ====
section
/-! DEFINITION. What an implementation of SKFE fixes (00_scope.md R8) and the values the spec leaves free:
the packet buffer's bytes at power-on (70_reset_and_hazards.md R332) and the RNG draws (00_scope.md R15). -/

namespace Sys2Proof

/-- The named parameters of R8. DESIGN CHOICE (log entry 1): they stand in State, where no step writes them, so
that a statement about every state is a statement about every value of them. -/
structure Params where
  /-- N_CTX: number of context banks. -/
  nCtx : Nat
  /-- W_MAX: largest replay-window size. -/
  wMax : Nat
  /-- PBUF_SIZE: packet-buffer size in bytes. -/
  pbufSize : Nat
  /-- MKI_BEFORE_TAG: trailer order. -/
  mkiBeforeTag : Bool
  /-- SRTCP_TAG32_LEN: SRTCP tag length of profile AES-CM-128/HMAC-SHA1-32, in bytes. -/
  srtcpTag32Len : Nat
  deriving DecidableEq, Repr

/-- The reference values of R8. -/
def Params.reference : Params :=
  { nCtx := 2, wMax := 1024, pbufSize := 4096, mkiBeforeTag := false, srtcpTag32Len := 10 }

/-- What packet-buffer byte `a` holds at power-on: any value (R332, U1). A free value: it has no body, so nothing
can be proved of it (log entry 2). -/
opaque Config.powerOnByte : Nat → Byte

/-- The `k`-th draw as `draw_32()` returns it: any value (R15, U7). A free value (log entry 3). -/
opaque Config.draw32 : Nat → BitVec 32

/-- The `k`-th draw as `draw_16()` returns it: any value (R15, U7). A free value (log entry 3). -/
opaque Config.draw16 : Nat → BitVec 16

end Sys2Proof
end

