-- ==== Sys2Proof/Machine/State.lean ====
section
/-! DEFINITION. The state of SKFE (10_state.md R20 to R44), as plain data, and its reset value
(70_reset_and_hazards.md R330). Each group of registers is one structure; a register whose LO and HI words are the
two halves of one quantity is held once, at its full width (log entry 9). -/

namespace Sys2Proof.Machine

open Sys2Proof

/-- Why a step can stop. It has no constructor: SKFE has no trap (60_exceptions.md R304), every command ends in a
completion (R302), every command checks its ranges before it touches the buffer (20_memory.md R86), and every host
access is either performed or rejected with ACC_ERR (R85). So no step ever faults. DEDUCED (log entry 15). -/
inductive Fault where
  deriving DecidableEq, Repr

/-- Why an instruction has no meaning. -/
inductive Refusal where
  /-- Raised only by an arm of exec whose instruction has no meaning yet; no arm raises it. Safe: the machine stops. -/
  | notModelled (mnemonic : String)
  deriving DecidableEq, Repr

/-- The error a command raises (60_exceptions.md R300). -/
inductive CmdError where
  | invalidPacket
  | bufferTooSmall
  | replayDetected
  | authFailed
  | keyExpired
  | invalidParam
  | notInitialized
  | illegalCommand
  deriving DecidableEq, Repr

/-- The packet buffer: the bytes written so far, by address (R43). A byte nothing has written has no cell. -/
abbrev Memory := List Host.Cell

/-- The canonical form: addresses strictly rising, so no address twice. A cell always holds a value, and an unlisted
address holds none, so no cell equals what an unlisted address reads as (log entry 2). -/
abbrev Memory.wf (m : Memory) : Prop := m.Pairwise (fun x y => x.1 < y.1)

/-- STATUS (R25). -/
structure Status where
  busy : Bool
  done : Bool
  err : Bool
  cmdOverrun : Bool
  accErr : Bool
  errcode : BitVec 8
  deriving DecidableEq, Repr

/-- The three bits of INT_EN and of INT_STATUS (R22). -/
structure IntBits where
  done : Bool
  err : Bool
  sec : Bool
  deriving DecidableEq, Repr

/-- Global control registers (R22) and the hidden engine state (R42). -/
structure GlobalRegs where
  status : Status
  intEn : IntBits
  intStatus : IntBits
  cmdCount : BitVec 32
  /-- PENDING, the word last written to CMD (R42). -/
  pending : Word
  /-- IRQ, the output line (R42, R311), held though it follows from the two registers (log entry 14). -/
  irq : Bool
  deriving DecidableEq, Repr

/-- Operand registers (R27). -/
structure OperandRegs where
  srcAddr : Word
  srcLen : Word
  dstAddr : Word
  dstCap : Word
  auxAddr : Word
  auxLen : Word
  resLen : Word
  arg0 : Word
  arg1 : Word
  res0 : Word
  deriving DecidableEq, Repr

/-- HDR_FLAGS (R29). -/
structure HdrFlags where
  extOneByte : Bool
  foreignSsrc : Bool
  duplicate : Bool
  reordered : Bool
  first : Bool
  deriving DecidableEq, Repr

/-- Header-codec registers (R28). -/
structure HeaderRegs where
  b01 : BitVec 16
  seq : BitVec 16
  ts : Word
  ssrc : Word
  csrc : Vector Word 15
  extProfile : BitVec 16
  extLenWords : BitVec 16
  extOff : Word
  payloadOff : Word
  payloadLen : Word
  hdrLen : Word
  flags : HdrFlags
  deriving DecidableEq, Repr

/-- Session and send-side registers (R30). -/
structure SessionRegs where
  ssrc : Word
  seq : BitVec 16
  pt : BitVec 7
  ts : Word
  txPkts : Word
  txOctets : Word
  nowNtpMsw : Word
  nowNtpLsw : Word
  nowRtpTs : Word
  rxArrival : Word
  deriving DecidableEq, Repr

/-- RX_STATE (R31). -/
structure RxState where
  rxValid : Bool
  lsrValid : Bool
  rttValid : Bool
  remoteValid : Bool
  deriving DecidableEq, Repr

/-- Receive-statistics registers (R31). -/
structure RxRegs where
  state : RxState
  ssrc : Word
  baseSeq : BitVec 16
  maxSeq : BitVec 16
  cycles : BitVec 16
  received : Word
  duplicates : Word
  reordered : Word
  jitter16 : Word
  lastTransit : Word
  expectedPrior : Word
  receivedPrior : Word
  lsr : Word
  lsrArrival : Word
  rtt : Word
  remoteLoss : Word
  remoteExtMax : Word
  remoteJitter : Word
  deriving DecidableEq, Repr

/-- RTCP_INFO (R32). -/
structure RtcpInfo where
  blocks : BitVec 5
  blockForUs : Bool
  unknownPt : Bool
  deriving DecidableEq, Repr

/-- RTCP parse registers (R32). -/
structure RtcpRegs where
  hdr : Word
  ssrc : Word
  ntpMsw : Word
  ntpLsw : Word
  rtpTs : Word
  pktCount : Word
  octetCount : Word
  info : RtcpInfo
  deriving DecidableEq, Repr

/-- SRTP result registers (R33). -/
structure SrRegs where
  /-- SR_INDEX_HI and SR_INDEX_LO. -/
  index : BitVec 48
  roc : Word
  encOff : Word
  encLen : Word
  tagOff : Word
  tagLen : Word
  mkiOff : Word
  mkiLen : Word
  idxOff : Word
  e : Bool
  deriving DecidableEq, Repr

/-- SK_INFO (R34). -/
structure SkInfo where
  valid : Bool
  rtcp : Bool
  ctx : BitVec 4
  encLen : BitVec 8
  saltLen : BitVec 8
  authLen : BitVec 8
  deriving DecidableEq, Repr

/-- Session-key output registers (R34). Byte 0 of each key is its most significant byte. -/
structure SkRegs where
  /-- SK_ENC_0 .. SK_ENC_7. -/
  enc : BitVec 256
  /-- SK_SALT_0 .. SK_SALT_3. -/
  salt : BitVec 128
  /-- SK_AUTH_0 .. SK_AUTH_4. -/
  auth : BitVec 160
  info : SkInfo
  /-- SK_R_HI and SK_R_LO. -/
  r : BitVec 48
  deriving DecidableEq, Repr

/-- The four crypto profiles (R36). -/
inductive Profile where
  | aesCm128Sha80
  | aesCm128Sha32
  | aeadAes128Gcm
  | aeadAes256Gcm
  deriving DecidableEq, Repr

/-- CTX_CFG (R35). DIR is true on a receive context. -/
structure CtxCfg where
  profile : Profile
  dir : Bool
  mkiEn : Bool
  rtcpEnc : Bool
  deriving DecidableEq, Repr

/-- CTX_STATUS (R37). -/
structure CtxStatus where
  valid : Bool
  slValid : Bool
  winValid : Bool
  candValid : Bool
  rtcpWinValid : Bool
  rtcpCandValid : Bool
  deriving DecidableEq, Repr

/-- A context bank (R35) with its hidden state (R41). The bitmaps are as wide as the largest legal W_MAX; bit k is
BMP[k]. Keys and salts hold byte 0 in their most significant byte. -/
structure Ctx where
  cfg : CtxCfg
  status : CtxStatus
  winSize : BitVec 16
  kdr : Word
  ssrc : Word
  mki : Word
  rocInit : Word
  roc : Word
  sL : BitVec 16
  /-- WIN_TOP_HI and WIN_TOP_LO. -/
  winTop : BitVec 48
  winBmpIdx : BitVec 7
  /-- CAND_INDEX_HI and CAND_INDEX_LO. -/
  candIndex : BitVec 48
  candRoc : Word
  candSeq : BitVec 16
  rtcpTxIndex : Word
  rtcpTop : BitVec 31
  rtcpCand : Word
  mkeyStg : BitVec 256
  msaltStg : BitVec 128
  mkeyAct : BitVec 256
  msaltAct : BitVec 112
  bmp : BitVec 4096
  rtcpBmp : BitVec 4096
  deriving DecidableEq, Repr

/-- The width of a host access: 8, 16 or 32 bits, or any other width, such as 24 or 64 bits, which R83 admits nowhere
and R85 rejects (20_memory.md R83, R85). -/
inductive Width where
  | byte
  | half
  | word
  | other
  deriving DecidableEq, Repr

/-- A host access at a byte offset from BASE (R84). A write of width n carries its bytes in the low 8n bits; what
a write of another width carries is not looked at, since a rejected write changes nothing (R85). -/
inductive HostOp where
  | read (off : Nat) (w : Width)
  | write (off : Nat) (w : Width) (v : Word)
  deriving DecidableEq, Repr

/-- A host access still to come. `whileBusy` says that it reaches SKFE before a command then running completes: the
time a command takes is unspecified (70_reset_and_hazards.md R345), so the choice is an input (log entry 5). -/
structure HostAccess where
  op : HostOp
  whileBusy : Bool
  deriving DecidableEq, Repr

/-- The state of SKFE (R20), its parameters (R8), and three fields of the model's own: the host's accesses still to
come in issue order (R91, log entry 5), the data the last host read returned (log entry 6), and the number of RNG
draws taken (log entry 3). All sixteen banks the CTX field can name have a slot; those from N_CTX on are never reached
(log entry 7). -/
structure State where
  params : Params
  glob : GlobalRegs
  op : OperandRegs
  hdr : HeaderRegs
  sess : SessionRegs
  rx : RxRegs
  rtcp : RtcpRegs
  sr : SrRegs
  /-- KDF_IDX_HI and KDF_IDX_LO (R34). -/
  kdfIdx : BitVec 48
  sk : SkRegs
  banks : Vector Ctx 16
  /-- PB, the packet buffer (R43). -/
  pb : Memory
  host : List HostAccess
  readData : Word
  draws : Nat
  deriving DecidableEq, Repr

/-- The reset column of R22 and R25, and R42. -/
def GlobalRegs.reset : GlobalRegs :=
  { status := ⟨false, false, false, false, false, 0⟩, intEn := ⟨false, false, false⟩,
    intStatus := ⟨false, false, false⟩, cmdCount := 0, pending := 0, irq := false }

/-- The reset column of R27. -/
def OperandRegs.reset : OperandRegs := ⟨0, 0, 0, 0, 0, 0, 0, 0, 0, 0⟩

/-- HDR_FLAGS with every bit 0. -/
def HdrFlags.zero : HdrFlags := ⟨false, false, false, false, false⟩

/-- The reset column of R28. -/
def HeaderRegs.reset : HeaderRegs :=
  { b01 := 0, seq := 0, ts := 0, ssrc := 0, csrc := Vector.replicate 15 0, extProfile := 0, extLenWords := 0,
    extOff := 0, payloadOff := 0, payloadLen := 0, hdrLen := 0, flags := HdrFlags.zero }

/-- The reset column of R30. -/
def SessionRegs.reset : SessionRegs := ⟨0, 0, 0, 0, 0, 0, 0, 0, 0, 0⟩

/-- The reset column of R31. -/
def RxRegs.reset : RxRegs :=
  ⟨⟨false, false, false, false⟩, 0, 0, 0, 0, 0, 0, 0, 0, 0, 0, 0, 0, 0, 0, 0, 0, 0⟩

/-- The reset column of R32. -/
def RtcpRegs.reset : RtcpRegs := ⟨0, 0, 0, 0, 0, 0, 0, ⟨0, false, false⟩⟩

/-- The reset column of R33. -/
def SrRegs.reset : SrRegs := ⟨0, 0, 0, 0, 0, 0, 0, 0, 0, false⟩

/-- The reset column of the SK registers (R34). -/
def SkRegs.reset : SkRegs := ⟨0, 0, 0, ⟨false, false, 0, 0, 0, 0⟩, 0⟩

/-- CTX_STATUS with every bit 0. -/
def CtxStatus.zero : CtxStatus := ⟨false, false, false, false, false, false⟩

/-- The reset column of R35 and R41: everything 0 but WIN_SIZE, which is 64 (R330). -/
def Ctx.reset : Ctx :=
  { cfg := ⟨.aesCm128Sha80, false, false, false⟩, status := CtxStatus.zero, winSize := 64, kdr := 0, ssrc := 0,
    mki := 0, rocInit := 0, roc := 0, sL := 0, winTop := 0, winBmpIdx := 0, candIndex := 0, candRoc := 0,
    candSeq := 0, rtcpTxIndex := 0, rtcpTop := 0, rtcpCand := 0, mkeyStg := 0, msaltStg := 0, mkeyAct := 0,
    msaltAct := 0, bmp := 0, rtcpBmp := 0 }

/-- SKFE after power-on reset (R330, R333), at the reference parameters, with no buffer byte written (R332) and no
host access to come. -/
def State.reset : State :=
  { params := Params.reference, glob := GlobalRegs.reset, op := OperandRegs.reset, hdr := HeaderRegs.reset,
    sess := SessionRegs.reset, rx := RxRegs.reset, rtcp := RtcpRegs.reset, sr := SrRegs.reset, kdfIdx := 0,
    sk := SkRegs.reset, banks := Vector.replicate 16 Ctx.reset, pb := [], host := [], readData := 0, draws := 0 }

end Sys2Proof.Machine
end

