-- ==== Sys2Proof/Machine/Flags.lean ====
section
/-! DEFINITION. The flags of SKFE: the error code and class, STATUS and INT_STATUS as a completion leaves them, and
the interrupt line (60_exceptions.md R300 to R302, R310, R311). There are no other flags (10_state.md R26). -/

namespace Sys2Proof.Machine

open Sys2Proof

/-- The code of an error as STATUS.ERRCODE holds it (R300). -/
def CmdError.code : CmdError → BitVec 8
  | .invalidPacket => 0x01
  | .bufferTooSmall => 0x02
  | .replayDetected => 0x03
  | .authFailed => 0x04
  | .keyExpired => 0x05
  | .invalidParam => 0x06
  | .notInitialized => 0x07
  | .illegalCommand => 0x08

/-- The security class: codes 0x03, 0x04 and 0x05 (R300, R301). -/
def CmdError.isSecurity : CmdError → Bool
  | .replayDetected | .authFailed | .keyExpired => true
  | .invalidPacket | .bufferTooSmall | .invalidParam | .notInitialized | .illegalCommand => false

/-- ERRCODE for an outcome: 0 for finish, the error's code for a raise (R302). -/
def outcomeCode : Option CmdError → BitVec 8
  | none => 0
  | some e => e.code

/-- The interrupt line: INT_STATUS masked by INT_EN (R311). -/
def irqLine (en st : IntBits) : Bool := (st.done && en.done) || (st.err && en.err) || (st.sec && en.sec)

/-- STATUS after a command ends with the given outcome: ERRCODE, ERR and DONE as Complete writes them (R302), then
BUSY ← 0 (40_control.md R140). CMD_OVERRUN and ACC_ERR stay. -/
def completeStatus (st : Status) (r : Option CmdError) : Status :=
  { st with errcode := outcomeCode r, err := outcomeCode r != 0, done := true, busy := false }

/-- INT_STATUS after a command ends: DONE is set, ERR or SEC is set by an error's class, and no bit is cleared
(R301, R302). -/
def completeInts (i : IntBits) : Option CmdError → IntBits
  | none => { i with done := true }
  | some e => { done := true, err := i.err || !e.isSecurity, sec := i.sec || e.isSecurity }

/-- The global registers with the interrupt line computed again, as happens after every step of either agent (R311). -/
def refreshIrq (g : GlobalRegs) : GlobalRegs := { g with irq := irqLine g.intEn g.intStatus }

/-- Complete(outcome) on the global registers (R302): STATUS, INT_STATUS, CMD_COUNT + 1 modulo 2^32, and the
interrupt line. -/
def completeGlob (g : GlobalRegs) (r : Option CmdError) : GlobalRegs :=
  refreshIrq { g with status := completeStatus g.status r, intStatus := completeInts g.intStatus r,
                      cmdCount := g.cmdCount + 1 }

end Sys2Proof.Machine
end

