-- ==== Sys2Proof/Machine/Ops.lean ====
section
/-! DEFINITION. The named operations over the packet buffer and the banks, and the end of a command: finishing, and
raising an error, which is SKFE's form of an exception (00_scope.md R12 to R14, 60_exceptions.md R302 to R304). -/

namespace Sys2Proof.Machine

open Sys2Proof

/-- The byte a cell holds, or none where nothing has been written. -/
def memLookup : Memory → Nat → Option Byte
  | [], _ => none
  | (b, v) :: m, a => if b = a then some v else memLookup m a

/-- Packet-buffer byte `a`. A byte nothing has written has its power-on contents, which are any value (R332, U1;
log entry 2). -/
def memByte (m : Memory) (a : Nat) : Byte := (memLookup m a).getD (Config.powerOnByte a)

/-- MemBytes(addr, n) (R13). -/
def memBytes (m : Memory) (a : Nat) : Nat → List Byte
  | 0 => []
  | n + 1 => memByte m a :: memBytes m (a + 1) n

/-- A byte string as an unsigned big-endian integer (R13). -/
def bytesToNat (bs : List Byte) : Nat := bs.foldl (fun acc b => acc * 256 + b.toNat) 0

/-- MemRead(addr, n): n bytes as an unsigned big-endian integer (R13). -/
def memRead (m : Memory) (a n : Nat) : Nat := bytesToNat (memBytes m a n)

/-- u_{8n}(v) as n bytes, big-endian (R13). -/
def beBytes : Nat → Nat → List Byte
  | 0, _ => []
  | n + 1, v => BitVec.ofNat 8 (v / 256 ^ n) :: beBytes n v

/-- A word's four bytes in wire order. -/
def wordBytes (w : Word) : List Byte := beBytes 4 w.toNat

/-- A 32-bit field read from the buffer. -/
def memWord (m : Memory) (a : Nat) : Word := BitVec.ofNat 32 (memRead m a 4)

/-- Store one byte, keeping the cells in rising order of address. -/
def memWriteByte : Memory → Nat → Byte → Memory
  | [], a, v => [(a, v)]
  | (b, w) :: m, a, v =>
    if a < b then (a, v) :: (b, w) :: m
    else if a = b then (a, v) :: m
    else (b, w) :: memWriteByte m a v

/-- MemWriteBytes(addr, s) (R13). MemWrite(addr, n, v) is this with beBytes n v. -/
def memWriteBytes (m : Memory) (a : Nat) : List Byte → Memory
  | [] => m
  | b :: bs => memWriteBytes (memWriteByte m a b) (a + 1) bs

/-- Context bank `c` (10_state.md R35). -/
def State.bank (s : State) (c : BitVec 4) : Ctx := s.banks[c.toNat]'(c.isLt)

/-- The state with bank `c` written; no other bank changes. -/
def State.setBank (s : State) (c : BitVec 4) (b : Ctx) : State := { s with banks := s.banks.set c.toNat b c.isLt }

/-- The first n bytes of a big-endian byte string held in a bit vector, followed by zero bytes. -/
def firstBytes {w : Nat} (v : BitVec w) (n : Nat) : BitVec w := (v >>> (w - 8 * n)) <<< (w - 8 * n)

/-- A byte string packed into `n` bytes, byte 0 most significant, zero-filled at its end (10_state.md R34). -/
def packBytes (n : Nat) (bs : List Byte) : BitVec (8 * n) :=
  BitVec.ofNat (8 * n) (bytesToNat (bs ++ List.replicate (n - bs.length) 0))

/-- Word i of packed key material: bytes 4i .. 4i+3 (10_state.md R34). -/
def keyWord {w : Nat} (v : BitVec w) (i : Nat) : Word := v.extractLsb' (w - 32 * (i + 1)) 32

/-- Packed key material with word i replaced (10_state.md R34). -/
def setKeyWord {w : Nat} (v : BitVec w) (i : Nat) (x : Word) : BitVec w :=
  (v &&& ~~~((BitVec.allOnes 32).setWidth w <<< (w - 32 * (i + 1)))) ||| (x.setWidth w <<< (w - 32 * (i + 1)))

/-- The end of a command (60_exceptions.md R302, 40_control.md R140). A command's rule reads the state as it was when
the command started and answers either the state with its writes applied (finish) or an error (raise E). Finishing
commits the writes; raising discards every one of them (R303), and changes only STATUS, INT_STATUS, CMD_COUNT and the
interrupt line. Then BUSY ← 0. DEDUCED: the held writes are one functional update (log entry 11). -/
def endCommand (s : State) : Except CmdError State → State
  | .ok t => { t with glob := completeGlob t.glob none }
  | .error e => { s with glob := completeGlob s.glob (some e) }

/-- A command's meaning from its rule: the engine's step always ends in a next state (R140, R346). -/
def runRule (s : State) (r : Except CmdError State) : Host.Outcome State Fault Refusal := .next (endCommand s r)

end Sys2Proof.Machine
end

