-- ==== Sys2Proof/Machine/Operands.lean ====
section
/-! DEFINITION. The operand forms of SKFE's commands: a buffer range (20_memory.md R86), a context bank with the
checks every context command makes first (60_exceptions.md R305), the profile's lengths (44_srtp_context_kdf.md R220),
and the fields of HDR_B01 (10_state.md R28). -/

namespace Sys2Proof.Machine

open Sys2Proof

/-- InRange(addr, len), on unbounded integers (R86). -/
abbrev InRange (s : State) (addr len : Word) : Prop := addr.toNat + len.toNat ≤ s.params.pbufSize

/-- Steps 2 to 4 of R305: the bank exists, the context is valid, and its direction is the one the command needs
(`none`: the command has no direction). -/
def ctxError (s : State) (c : BitVec 4) (dir : Option Bool) : Option CmdError :=
  if s.params.nCtx ≤ c.toNat then some .invalidParam
  else if !(s.bank c).status.valid then some .notInitialized
  else match dir with
    | none => none
    | some d => if (s.bank c).cfg.dir != d then some .invalidParam else none

/-- The lengths a profile determines, in bytes (R220). -/
structure ProfileLens where
  klen : Nat
  slen : Nat
  elen : Nat
  sslen : Nat
  alen : Nat
  tagLen : Nat
  tagLenRtcp : Nat

/-- The profile table (R220). -/
def profileLens (p : Params) : Profile → ProfileLens
  | .aesCm128Sha80 => ⟨16, 14, 16, 14, 20, 10, 10⟩
  | .aesCm128Sha32 => ⟨16, 14, 16, 14, 20, 4, p.srtcpTag32Len⟩
  | .aeadAes128Gcm => ⟨16, 12, 16, 12, 0, 16, 16⟩
  | .aeadAes256Gcm => ⟨32, 12, 32, 12, 0, 16, 16⟩

/-- The lengths of a context's profile. -/
def ctxLens (s : State) (b : Ctx) : ProfileLens := profileLens s.params b.cfg.profile

/-- m = 4 · CTX_CFG.MKI_EN (45_srtp_index_replay.md R255). -/
def mkiLen (b : Ctx) : Nat := if b.cfg.mkiEn then 4 else 0

/-- HDR_B01.P (R28). -/
def b01P (v : BitVec 16) : Bool := v.getLsbD 13

/-- HDR_B01.X (R28). -/
def b01X (v : BitVec 16) : Bool := v.getLsbD 12

/-- HDR_B01.CC (R28). -/
def b01Cc (v : BitVec 16) : Nat := (v.extractLsb' 8 4).toNat

/-- HDR_B01.M (R28). -/
def b01M (v : BitVec 16) : Bool := v.getLsbD 7

/-- HDR_B01.PT (R28). -/
def b01Pt (v : BitVec 16) : BitVec 7 := v.extractLsb' 0 7

/-- The 32-bit register value of a number (u_32, 00_scope.md R11). -/
def u32 (n : Nat) : Word := BitVec.ofNat 32 n

end Sys2Proof.Machine
end

