-- ==== Sys2Proof/Machine/Wire.lean ====
section
/-! DEFINITION. The RTP wire format: parsing and building a header (41_rtp_codec.md R150, R151; 30_encoding.md R110 to
R113), and the 16-bit sequence distance (42_rtp_session.md R170). -/

namespace Sys2Proof.Machine

open Sys2Proof

/-- What ParseRtpHeader returns (R150). `csrc` holds 0 above `cc`. -/
structure RtpHeader where
  b01 : BitVec 16
  seq : BitVec 16
  ts : Word
  ssrc : Word
  x : Bool
  csrc : Vector Word 15
  prof : BitVec 16
  words : BitVec 16
  extOff : Nat
  hdrLen : Nat

/-- The CSRC list at a packet's byte 12, 0 above the CSRC count (R150, R153). -/
def parseCsrc (m : Memory) (base cc : Nat) : Vector Word 15 :=
  Vector.ofFn fun i : Fin 15 => if i.val < cc then memWord m (base + 12 + 4 * i.val) else 0

/-- The fields ParseRtpHeader returns once its checks have passed (R150). -/
def rtpHeaderAt (m : Memory) (base cc : Nat) (x : Bool) (prof words : BitVec 16) (extOff hdrLen : Nat) : RtpHeader :=
  { b01 := BitVec.ofNat 16 (memRead m base 2), seq := BitVec.ofNat 16 (memRead m (base + 2) 2),
    ts := memWord m (base + 4), ssrc := memWord m (base + 8), x, csrc := parseCsrc m base cc, prof, words,
    extOff, hdrLen }

/-- ParseRtpHeader(base, L) (R150): the checks in the rule's order, the first that fails raising InvalidPacket. -/
def parseRtpHeader (m : Memory) (base len : Nat) : Except CmdError RtpHeader :=
  let b0 := memByte m base
  let cc := (b0.extractLsb' 0 4).toNat
  let off := 12 + 4 * cc
  let words := memRead m (base + off + 2) 2
  if len < 12 then .error .invalidPacket
  else if b0.extractLsb' 6 2 ≠ 2 then .error .invalidPacket
  else if len < off then .error .invalidPacket
  else if b0.getLsbD 4 then
    if len < off + 4 then .error .invalidPacket
    else if len < off + 4 + 4 * words then .error .invalidPacket
    else .ok (rtpHeaderAt m base cc true (BitVec.ofNat 16 (memRead m (base + off) 2)) (BitVec.ofNat 16 words)
      (base + off + 4) (off + 4 + 4 * words))
  else .ok (rtpHeaderAt m base cc false 0 0 0 off)

/-- Byte 0 of an RTP header: V = 2, P, X and CC (R151). -/
def rtpByte0 (p x : Bool) (cc : Nat) : Byte := BitVec.ofNat 8 (2 * 64 + p.toNat * 32 + x.toNat * 16 + cc)

/-- Byte 1 of an RTP header: M and PT (R151). -/
def rtpByte1 (m : Bool) (pt : BitVec 7) : Byte := BitVec.ofNat 8 (m.toNat * 128 + pt.toNat)

/-- The header extension: profile, length in words, the raw bytes and zero padding to whole words (R151). -/
def extensionBytes (prof : BitVec 16) (words : Nat) (raw : List Byte) : List Byte :=
  beBytes 2 prof.toNat ++ beBytes 2 words ++ raw ++ List.replicate (4 * words - raw.length) 0

/-- The bytes BuildRtpHeader writes, from its destination on (R151). -/
def rtpHeaderBytes (p x : Bool) (m : Bool) (pt : BitVec 7) (seq : BitVec 16) (ts ssrc : Word)
    (csrc : List Word) (prof : BitVec 16) (words : Nat) (raw : List Byte) : List Byte :=
  [rtpByte0 p x csrc.length, rtpByte1 m pt] ++ beBytes 2 seq.toNat ++ wordBytes ts ++ wordBytes ssrc ++
    csrc.flatMap wordBytes ++ (if x then extensionBytes prof words raw else [])

/-- sequence_diff(a, b), in −32768 .. 32767 (R170). -/
def sequenceDiff (a b : BitVec 16) : Int :=
  let d := (a - b).toNat
  if d > 32767 then (d : Int) - 65536 else d

/-- X = 1 and the one-byte-header profile 0xBEDE (R156). -/
def isOneByteExt (ph : RtpHeader) : Bool := ph.x && ph.prof == 0xBEDE

end Sys2Proof.Machine
end

