-- ==== Sys2Proof/Machine/Codec.lean ====
section
/-! DEFINITION. RTP_ENCODE and RTP_DECODE (41_rtp_codec.md R152, R153). -/

namespace Sys2Proof.Machine

open Sys2Proof

/-- words = ceil(AUX_LEN / 4) when X = 1, else 0 (R152). -/
def encodeWords (s : State) : Nat := if b01X s.hdr.b01 then (s.op.auxLen.toNat + 3) / 4 else 0

/-- hdr_len of the packet RTP_ENCODE builds (R152, R113). -/
def encodeHdrLen (s : State) : Nat :=
  12 + 4 * b01Cc s.hdr.b01 + (if b01X s.hdr.b01 then 4 + 4 * encodeWords s else 0)

/-- The raw extension bytes RTP_ENCODE reads (R152). -/
def encodeRaw (s : State) : List Byte :=
  if b01X s.hdr.b01 then memBytes s.pb s.op.auxAddr.toNat s.op.auxLen.toNat else []

/-- The packet RTP_ENCODE builds, header then payload verbatim, from the bytes as they stood before it (R152, R88). -/
def encodePacket (s : State) : List Byte :=
  rtpHeaderBytes (b01P s.hdr.b01) (b01X s.hdr.b01) (b01M s.hdr.b01) (b01Pt s.hdr.b01) s.hdr.seq s.hdr.ts s.hdr.ssrc
    (s.hdr.csrc.toList.take (b01Cc s.hdr.b01)) s.hdr.extProfile (encodeWords s) (encodeRaw s) ++
  memBytes s.pb s.op.srcAddr.toNat s.op.srcLen.toNat

/-- The rule of RTP_ENCODE (R152). -/
def ruleRtpEncode (s : State) : Except CmdError State :=
  let d := s.op.dstAddr.toNat
  let hdrLen := encodeHdrLen s
  let total := hdrLen + s.op.srcLen.toNat
  if ¬ InRange s s.op.srcAddr s.op.srcLen then .error .invalidParam
  else if b01X s.hdr.b01 ∧ ¬ InRange s s.op.auxAddr s.op.auxLen then .error .invalidParam
  else if ¬ InRange s s.op.dstAddr s.op.dstCap then .error .invalidParam
  else if total > s.op.dstCap.toNat then .error .bufferTooSmall
  else .ok { s with
    pb := memWriteBytes s.pb d (encodePacket s)
    op := { s.op with resLen := u32 total }
    hdr := { s.hdr with
      hdrLen := u32 hdrLen
      extLenWords := BitVec.ofNat 16 (encodeWords s)
      extOff := if b01X s.hdr.b01 then u32 (d + 12 + 4 * b01Cc s.hdr.b01 + 4) else 0
      payloadOff := u32 (d + hdrLen)
      payloadLen := s.op.srcLen } }

/-- RTP_ENCODE (R152). -/
def execRtpEncode (s : State) : Host.Outcome State Fault Refusal := runRule s (ruleRtpEncode s)

/-- The header-codec registers RTP_DECODE writes from a parsed packet (R153), with the given HDR_FLAGS. -/
def decodedHdr (s : State) (ph : RtpHeader) (flags : HdrFlags) : HeaderRegs :=
  { b01 := ph.b01, seq := ph.seq, ts := ph.ts, ssrc := ph.ssrc, csrc := ph.csrc,
    extProfile := ph.prof, extLenWords := ph.words, extOff := u32 ph.extOff,
    hdrLen := u32 ph.hdrLen, payloadOff := u32 (s.op.srcAddr.toNat + ph.hdrLen),
    payloadLen := u32 (s.op.srcLen.toNat - ph.hdrLen), flags }

/-- RES_LEN as RTP_DECODE and SESS_PROCESS_RECEIVED write it: the payload length (R153). -/
def decodedOp (s : State) (ph : RtpHeader) : OperandRegs :=
  { s.op with resLen := u32 (s.op.srcLen.toNat - ph.hdrLen) }

/-- The rule of RTP_DECODE (R153). -/
def ruleRtpDecode (s : State) : Except CmdError State :=
  if ¬ InRange s s.op.srcAddr s.op.srcLen then .error .invalidParam
  else match parseRtpHeader s.pb s.op.srcAddr.toNat s.op.srcLen.toNat with
    | .error e => .error e
    | .ok ph => .ok { s with
        op := decodedOp s ph
        hdr := decodedHdr s ph { HdrFlags.zero with extOneByte := isOneByteExt ph } }

/-- RTP_DECODE (R153). -/
def execRtpDecode (s : State) : Host.Outcome State Fault Refusal := runRule s (ruleRtpDecode s)

end Sys2Proof.Machine
end

