-- ==== Sys2Proof/Machine/Aes.lean ====
section
/-! DEFINITION. AES_ENC, the block encryption the KDF uses (00_scope.md R8, R16). The spec names FIPS-197 AES-128 and
AES-256 and does not reproduce them: the algorithm below is PRESUMED (FIPS-197, log entry 4). The KDF vectors of
95_test_vectors.md pin it. -/

namespace Sys2Proof.Machine

open Sys2Proof

/-- The S-box, one 16-byte row for each high nibble (FIPS-197), rows 0 to 7. PRESUMED (log entry 4). -/
def aesSboxLow : List (BitVec 128) :=
  [0x637C777BF26B6FC53001672BFED7AB76#128,
   0xCA82C97DFA5947F0ADD4A2AF9CA472C0#128,
   0xB7FD9326363FF7CC34A5E5F171D83115#128,
   0x04C723C31896059A071280E2EB27B275#128,
   0x09832C1A1B6E5AA0523BD6B329E32F84#128,
   0x53D100ED20FCB15B6ACBBE394A4C58CF#128,
   0xD0EFAAFB434D338545F9027F503C9FA8#128,
   0x51A3408F929D38F5BCB6DA2110FFF3D2#128]

/-- The S-box, rows 8 to F. PRESUMED (log entry 4). -/
def aesSboxHigh : List (BitVec 128) :=
  [0xCD0C13EC5F974417C4A77E3D645D1973#128,
   0x60814FDC222A908846EEB814DE5E0BDB#128,
   0xE0323A0A4906245CC2D3AC629195E479#128,
   0xE7C8376D8DD54EA96C56F4EA657AAE08#128,
   0xBA78252E1CA6B4C6E8DD741F4BBD8B8A#128,
   0x703EB5664803F60E613557B986C11D9E#128,
   0xE1F8981169D98E949B1E87E9CE5528DF#128,
   0x8CA1890DBFE6426841992D0FB054BB16#128]

/-- SubBytes on one byte. -/
def aesSub (b : Byte) : Byte :=
  ((aesSboxLow ++ aesSboxHigh).getD (b.toNat / 16) 0).extractLsb' (8 * (15 - b.toNat % 16)) 8

/-- Multiplication by x in GF(2^8) modulo x^8 + x^4 + x^3 + x + 1. -/
def aesXtime (b : Byte) : Byte := if b.getLsbD 7 then (b <<< 1) ^^^ 0x1B else b <<< 1

/-- A 4-byte column of the AES state, or a key word. -/
structure AesCol where
  a : Byte
  b : Byte
  c : Byte
  d : Byte
  deriving DecidableEq, Repr

/-- Column-wise exclusive or. -/
def aesXor (x y : AesCol) : AesCol := ⟨x.a ^^^ y.a, x.b ^^^ y.b, x.c ^^^ y.c, x.d ^^^ y.d⟩

/-- SubBytes on a column. -/
def aesSubCol (x : AesCol) : AesCol := ⟨aesSub x.a, aesSub x.b, aesSub x.c, aesSub x.d⟩

/-- RotWord: the bytes of a key word, moved up one place. -/
def aesRot (x : AesCol) : AesCol := ⟨x.b, x.c, x.d, x.a⟩

/-- MixColumns on one column: multiplication by the fixed polynomial with coefficients 2, 3, 1, 1. -/
def aesMixCol (x : AesCol) : AesCol :=
  let t := x.a ^^^ x.b ^^^ x.c ^^^ x.d
  ⟨x.a ^^^ t ^^^ aesXtime (x.a ^^^ x.b), x.b ^^^ t ^^^ aesXtime (x.b ^^^ x.c),
   x.c ^^^ t ^^^ aesXtime (x.c ^^^ x.d), x.d ^^^ t ^^^ aesXtime (x.d ^^^ x.a)⟩

/-- The AES state: four columns. -/
structure AesState where
  c0 : AesCol
  c1 : AesCol
  c2 : AesCol
  c3 : AesCol
  deriving DecidableEq, Repr

/-- AddRoundKey. -/
def aesAddKey (s k : AesState) : AesState :=
  ⟨aesXor s.c0 k.c0, aesXor s.c1 k.c1, aesXor s.c2 k.c2, aesXor s.c3 k.c3⟩

/-- SubBytes on the state. -/
def aesSubState (s : AesState) : AesState := ⟨aesSubCol s.c0, aesSubCol s.c1, aesSubCol s.c2, aesSubCol s.c3⟩

/-- ShiftRows: row r of the state moves left by r columns. -/
def aesShiftRows (s : AesState) : AesState :=
  ⟨⟨s.c0.a, s.c1.b, s.c2.c, s.c3.d⟩, ⟨s.c1.a, s.c2.b, s.c3.c, s.c0.d⟩,
   ⟨s.c2.a, s.c3.b, s.c0.c, s.c1.d⟩, ⟨s.c3.a, s.c0.b, s.c1.c, s.c2.d⟩⟩

/-- MixColumns on the state. -/
def aesMixColumns (s : AesState) : AesState := ⟨aesMixCol s.c0, aesMixCol s.c1, aesMixCol s.c2, aesMixCol s.c3⟩

/-- Words from their bytes, four at a time. -/
def aesCols : List Byte → List AesCol
  | a :: b :: c :: d :: t => ⟨a, b, c, d⟩ :: aesCols t
  | _ => []

/-- The round constants, Rcon[1] to Rcon[10]. -/
def aesRcon : List Byte := [0x01, 0x02, 0x04, 0x08, 0x10, 0x20, 0x40, 0x80, 0x1B, 0x36]

/-- One more word of the key schedule: `i` is its number, `nk` the key length in words, and `w` the words before it,
newest first. -/
def aesNextWord (nk i : Nat) (w : List AesCol) : AesCol :=
  let prev := w.getD 0 ⟨0, 0, 0, 0⟩
  let back := w.getD (nk - 1) ⟨0, 0, 0, 0⟩
  let t :=
    if i % nk = 0 then aesXor (aesSubCol (aesRot prev)) ⟨aesRcon.getD (i / nk - 1) 0, 0, 0, 0⟩
    else if nk > 6 ∧ i % nk = 4 then aesSubCol prev
    else prev
  aesXor back t

/-- KeyExpansion: `fuel` more words on top of `w`, newest first. -/
def aesExpand (nk : Nat) : Nat → Nat → List AesCol → List AesCol
  | 0, _, w => w
  | fuel + 1, i, w => aesExpand nk fuel (i + 1) (aesNextWord nk i w :: w)

/-- Round keys, four words each, in order of use. -/
def aesRoundKeys : List AesCol → List AesState
  | a :: b :: c :: d :: t => ⟨a, b, c, d⟩ :: aesRoundKeys t
  | _ => []

/-- The rounds after the first AddRoundKey; the last one has no MixColumns. -/
def aesRounds : List AesState → AesState → AesState
  | [], s => s
  | [k], s => aesAddKey (aesShiftRows (aesSubState s)) k
  | k :: ks, s => aesRounds ks (aesAddKey (aesMixColumns (aesShiftRows (aesSubState s))) k)

/-- The state as its 16 bytes. -/
def aesBytes (s : AesState) : List Byte :=
  [s.c0.a, s.c0.b, s.c0.c, s.c0.d, s.c1.a, s.c1.b, s.c1.c, s.c1.d,
   s.c2.a, s.c2.b, s.c2.c, s.c2.d, s.c3.a, s.c3.b, s.c3.c, s.c3.d]

/-- AES_ENC(k, b) (R16): AES-128 for a 16-byte key, AES-256 for a 32-byte key. PRESUMED (FIPS-197, log entry 4). -/
def aesEnc (key : List Byte) (block : BitVec 128) : List Byte :=
  let nk := key.length / 4
  let total := 4 * (nk + 7)
  match aesRoundKeys ((aesExpand nk (total - nk) nk (aesCols key).reverse).reverse),
        aesCols (beBytes 16 block.toNat) with
  | k :: ks, [c0, c1, c2, c3] => aesBytes (aesRounds ks (aesAddKey ⟨c0, c1, c2, c3⟩ k))
  | _, _ => []

end Sys2Proof.Machine
end

