-- ==== Sys2Proof/Machine/Kdf.lean ====
section
/-! DEFINITION. The key-derivation function (44_srtp_context_kdf.md R227 to R234). -/

namespace Sys2Proof.Machine

open Sys2Proof

/-- r = index DIV KDR, and 0 when KDR = 0 (R233). -/
def kdfR (kdr : Word) (index : Nat) : BitVec 48 := if kdr = 0 then 0 else BitVec.ofNat 48 (index / kdr.toNat)

/-- x = salt112 XOR ((label << 48) | r), aligned at their least significant bits (R229). -/
def kdfInput (salt : BitVec 112) (label : Nat) (r : BitVec 48) : BitVec 112 :=
  salt ^^^ ((BitVec.ofNat 112 label <<< 48) ||| r.setWidth 112)

/-- The first klen bytes of MKEY_ACT (R230). -/
def kdfKey (b : Ctx) (klen : Nat) : List Byte := (beBytes 32 b.mkeyAct.toNat).take klen

/-- PRF(c, label, r, n): AES in counter mode from iv = x · 2^16 (R230). -/
def prf (b : Ctx) (klen : Nat) (label : Nat) (r : BitVec 48) (n : Nat) : List Byte :=
  let iv : BitVec 128 := (kdfInput b.msaltAct label r).setWidth 128 <<< 16
  ((List.range ((n + 15) / 16)).flatMap fun j => aesEnc (kdfKey b klen) (iv + BitVec.ofNat 128 j)).take n

/-- DeriveSet(c, rtcp, index): the SK registers it leaves (R231). The labels are 0 to 2, and 3 to 5 for SRTCP
(R228). -/
def deriveSet (p : Params) (b : Ctx) (c : BitVec 4) (rtcp : Bool) (index : Nat) : SkRegs :=
  let l := profileLens p b.cfg.profile
  let r := kdfR b.kdr index
  let lb := if rtcp then 3 else 0
  { enc := packBytes 32 (prf b l.klen lb r l.elen)
    auth := packBytes 20 (prf b l.klen (lb + 1) r l.alen)
    salt := packBytes 16 (prf b l.klen (lb + 2) r l.sslen)
    info := { valid := true, rtcp, ctx := c, encLen := BitVec.ofNat 8 l.elen, saltLen := BitVec.ofNat 8 l.sslen,
              authLen := BitVec.ofNat 8 l.alen }
    r }

/-- ClearSessionKeys(), when the keys shown are those of context `c` (R225, R226, R231). -/
def clearKeysOf (sk : SkRegs) (c : BitVec 4) : SkRegs := if sk.info.ctx = c then SkRegs.reset else sk

end Sys2Proof.Machine
end

