-- ==== Sys2Proof/Machine/Context.lean ====
section
/-! DEFINITION. The context commands CTX_INIT, CTX_UPDATE_KEY, CTX_TEARDOWN and KDF (44_srtp_context_kdf.md R221 to
R226, R232). -/

namespace Sys2Proof.Machine

open Sys2Proof

/-- KdrLegal(k): 0 or 2^t with t ≤ 24 (R221). -/
def kdrLegal (k : Word) : Bool := k == 0 || (List.range 25).any (fun t => k.toNat == 2 ^ t)

/-- WinLegal(w): 1 ≤ w ≤ W_MAX (R222). -/
def winLegal (p : Params) (w : BitVec 16) : Bool := decide (1 ≤ w.toNat) && decide (w.toNat ≤ p.wMax)

/-- MKEY_ACT as CTX_INIT and CTX_UPDATE_KEY load it: the first klen staged bytes, then zero bytes (R223, R225). -/
def loadedKey (p : Params) (b : Ctx) : BitVec 256 := firstBytes b.mkeyStg (profileLens p b.cfg.profile).klen

/-- MSALT_ACT as they load it: the first slen of the staged bytes, then zero bytes to 14 (R223, R225). -/
def loadedSalt (p : Params) (b : Ctx) : BitVec 112 :=
  firstBytes (b.msaltStg.extractLsb' 16 112) (profileLens p b.cfg.profile).slen

/-- ClearSessionState(c): the session state and the candidates (R224). CTX_STATUS.VALID stays. -/
def clearSession (b : Ctx) : Ctx :=
  { b with
    roc := 0, sL := 0, winTop := 0, bmp := 0, rtcpTop := 0, rtcpBmp := 0, rtcpTxIndex := 0,
    candIndex := 0, candRoc := 0, candSeq := 0, rtcpCand := 0,
    status := { CtxStatus.zero with valid := b.status.valid } }

/-- The bank CTX_INIT leaves (R223). -/
def initBank (p : Params) (b : Ctx) : Ctx :=
  { clearSession b with
    mkeyAct := loadedKey p b, msaltAct := loadedSalt p b, roc := b.rocInit
    status := { CtxStatus.zero with valid := true } }

/-- The rule of CTX_INIT (R223). -/
def ruleCtxInit (c : BitVec 4) (s : State) : Except CmdError State :=
  let b := s.bank c
  if s.params.nCtx ≤ c.toNat then .error .invalidParam
  else if b.status.valid then .error .invalidParam
  else if !kdrLegal b.kdr then .error .invalidParam
  else if !winLegal s.params b.winSize then .error .invalidParam
  else .ok (s.setBank c (initBank s.params b))

/-- CTX_INIT (R223). -/
def execCtxInit (c : BitVec 4) (s : State) : Host.Outcome State Fault Refusal := runRule s (ruleCtxInit c s)

/-- The bank CTX_UPDATE_KEY leaves: a new active key and salt, no candidate (R225). -/
def updateKeyBank (p : Params) (b : Ctx) : Ctx :=
  { b with
    mkeyAct := loadedKey p b, msaltAct := loadedSalt p b
    status := { b.status with candValid := false, rtcpCandValid := false } }

/-- The rule of CTX_UPDATE_KEY (R225). -/
def ruleCtxUpdateKey (c : BitVec 4) (s : State) : Except CmdError State :=
  match ctxError s c none with
  | some e => .error e
  | none => .ok { s.setBank c (updateKeyBank s.params (s.bank c)) with sk := clearKeysOf s.sk c }

/-- CTX_UPDATE_KEY (R225). -/
def execCtxUpdateKey (c : BitVec 4) (s : State) : Host.Outcome State Fault Refusal := runRule s (ruleCtxUpdateKey c s)

/-- The bank CTX_TEARDOWN leaves: keys, staged keys and session state 0, not valid, configuration kept (R226). -/
def teardownBank (b : Ctx) : Ctx :=
  { clearSession b with mkeyAct := 0, msaltAct := 0, mkeyStg := 0, msaltStg := 0, status := CtxStatus.zero }

/-- The rule of CTX_TEARDOWN (R226). -/
def ruleCtxTeardown (c : BitVec 4) (s : State) : Except CmdError State :=
  if s.params.nCtx ≤ c.toNat then .error .invalidParam
  else .ok { s.setBank c (teardownBank (s.bank c)) with sk := clearKeysOf s.sk c }

/-- CTX_TEARDOWN (R226). -/
def execCtxTeardown (c : BitVec 4) (s : State) : Host.Outcome State Fault Refusal := runRule s (ruleCtxTeardown c s)

/-- The index KDF derives for: 48 bits for SRTP, KDF_IDX_LO[30:0] for SRTCP (R232). -/
def kdfIndex (s : State) (rtcp : Bool) : Nat :=
  if rtcp then (s.kdfIdx.extractLsb' 0 31).toNat else s.kdfIdx.toNat

/-- The rule of KDF (R232). -/
def ruleKdf (c : BitVec 4) (rtcp : Bool) (s : State) : Except CmdError State :=
  match ctxError s c none with
  | some e => .error e
  | none => .ok { s with sk := deriveSet s.params (s.bank c) c rtcp (kdfIndex s rtcp) }

/-- KDF (R232). -/
def execKdf (c : BitVec 4) (rtcp : Bool) (s : State) : Host.Outcome State Fault Refusal :=
  runRule s (ruleKdf c rtcp s)

end Sys2Proof.Machine
end

