-- ==== Sys2Proof/Machine/Control.lean ====
section
/-! DEFINITION. NOP (40_control.md R141). -/

namespace Sys2Proof.Machine

open Sys2Proof

/-- NOP (R141): finish, with no write. -/
def execNop (s : State) : Host.Outcome State Fault Refusal := runRule s (.ok s)

end Sys2Proof.Machine
end

