-- ==== Sys2Proof/Machine/Rtcp.lean ====
section
/-! DEFINITION. RTCP: RTCP_CREATE_SR, RTCP_CREATE_RR, RTCP_CREATE_BYE and RTCP_PARSE (43_rtcp.md R190 to R204;
30_encoding.md R115 to R122). -/

namespace Sys2Proof.Machine

open Sys2Proof

/-- The bytes BuildCommonHeader writes: V = 2, P = 0, count, packet type, length in words minus one (R190). -/
def commonHeaderBytes (count pt lenWords : Nat) : List Byte :=
  [BitVec.ofNat 8 (2 * 64 + count), BitVec.ofNat 8 pt] ++ beBytes 2 lenWords

/-- ntp_short(msw, lsw) = (msw[15:0] << 16) | lsw[31:16] (R122). -/
def ntpShort (msw lsw : Word) : Word := msw.extractLsb' 0 16 ++ lsw.extractLsb' 16 16

/-- NOW_short (R194). -/
def nowShort (s : State) : Word := ntpShort s.sess.nowNtpMsw s.sess.nowNtpLsw

/-- Clamp24(n) (R192). -/
def clamp24 (n : Int) : Int := if n < -8388608 then -8388608 else if n > 8388607 then 8388607 else n

/-- Fraction(exp_int, lost_int) (R193). -/
def lossFraction (expInt lostInt : Int) : Nat :=
  if expInt ≤ 0 ∨ lostInt ≤ 0 then 0 else min 255 (lostInt * 256 / expInt).toNat

/-- The extended highest sequence number (R191). -/
def extMax (rx : RxRegs) : Word := rx.cycles ++ rx.maxSeq

/-- expected = u_32(ext_max − RX_BASE_SEQ + 1) (R191). -/
def expectedCount (rx : RxRegs) : Word := extMax rx - rx.baseSeq.setWidth 32 + 1

/-- lost = Clamp24(expected − RX_RECEIVED), the subtraction unbounded (R191). -/
def lostCount (rx : RxRegs) : Int := clamp24 ((expectedCount rx).toNat - rx.received.toNat)

/-- The fraction lost since the last block (R191). -/
def blockFraction (rx : RxRegs) : Nat :=
  let expInt := (expectedCount rx - rx.expectedPrior).toInt
  let rcvInt := (rx.received - rx.receivedPrior).toInt
  lossFraction expInt (expInt - rcvInt)

/-- Dlsr() (R194). -/
def dlsr (s : State) : Word := if s.rx.state.lsrValid then nowShort s - s.rx.lsrArrival else 0

/-- The 24 bytes BuildReportBlock writes (R191, R119). -/
def reportBlockBytes (s : State) : List Byte :=
  wordBytes s.rx.ssrc ++ beBytes 1 (blockFraction s.rx) ++ beBytes 3 (BitVec.ofInt 24 (lostCount s.rx)).toNat ++
    wordBytes (extMax s.rx) ++ beBytes 4 (s.rx.jitter16.toNat / 16) ++
    wordBytes (if s.rx.state.lsrValid then s.rx.lsr else 0) ++ wordBytes (dlsr s)

/-- The statistics after a block is built: a new reporting interval starts (R191). -/
def startInterval (rx : RxRegs) : RxRegs :=
  { rx with expectedPrior := expectedCount rx, receivedPrior := rx.received }

/-- The report blocks of a report: one when RX_VALID = 1, else none (R195, R196). -/
def reportBlocks (s : State) : List Byte := if s.rx.state.rxValid then reportBlockBytes s else []

/-- The statistics after a report is built (R195, R196). -/
def rxAfterReport (rx : RxRegs) : RxRegs := if rx.state.rxValid then startInterval rx else rx

/-- Length of an SR (R195). -/
def srLen (s : State) : Nat := 28 + 24 * s.rx.state.rxValid.toNat

/-- The bytes of the SR RTCP_CREATE_SR builds (R195, R117). -/
def srBytes (s : State) : List Byte :=
  commonHeaderBytes s.rx.state.rxValid.toNat 200 (srLen s / 4 - 1) ++ wordBytes s.sess.ssrc ++
    wordBytes s.sess.nowNtpMsw ++ wordBytes s.sess.nowNtpLsw ++ wordBytes s.sess.nowRtpTs ++
    wordBytes s.sess.txPkts ++ wordBytes s.sess.txOctets ++ reportBlocks s

/-- A packet built at DST_ADDR, as the three build commands check and commit it (R195 to R197). -/
def buildAt (s : State) (len : Nat) (bytes : List Byte) (rx : RxRegs) : Except CmdError State :=
  if ¬ InRange s s.op.dstAddr s.op.dstCap then .error .invalidParam
  else if len > s.op.dstCap.toNat then .error .bufferTooSmall
  else .ok { s with
    pb := memWriteBytes s.pb s.op.dstAddr.toNat bytes
    op := { s.op with resLen := u32 len }
    rx := rx }

/-- RTCP_CREATE_SR (R195). -/
def execRtcpCreateSr (s : State) : Host.Outcome State Fault Refusal :=
  runRule s (buildAt s (srLen s) (srBytes s) (rxAfterReport s.rx))

/-- Length of an RR (R196). -/
def rrLen (s : State) : Nat := 8 + 24 * s.rx.state.rxValid.toNat

/-- The bytes of the RR RTCP_CREATE_RR builds (R196, R118). -/
def rrBytes (s : State) : List Byte :=
  commonHeaderBytes s.rx.state.rxValid.toNat 201 (rrLen s / 4 - 1) ++ wordBytes s.sess.ssrc ++ reportBlocks s

/-- RTCP_CREATE_RR (R196). -/
def execRtcpCreateRr (s : State) : Host.Outcome State Fault Refusal :=
  runRule s (buildAt s (rrLen s) (rrBytes s) (rxAfterReport s.rx))

/-- The bytes of the BYE RTCP_CREATE_BYE builds (R197, R120). -/
def byeBytes (s : State) : List Byte := commonHeaderBytes 1 203 1 ++ wordBytes s.sess.ssrc

/-- RTCP_CREATE_BYE (R197). -/
def execRtcpCreateBye (s : State) : Host.Outcome State Fault Refusal := runRule s (buildAt s 8 (byeBytes s) s.rx)

/-- What ParseCommonHeader returns (R200). -/
structure RtcpCommon where
  h : Word
  count : Nat
  pt : Nat
  plen : Nat

/-- ParseCommonHeader(base, L) (R200). -/
def parseCommonHeader (m : Memory) (base len : Nat) : Except CmdError RtcpCommon :=
  let h := memWord m base
  let plen := 4 * ((h.extractLsb' 0 16).toNat + 1)
  if len < 4 then .error .invalidPacket
  else if h.extractLsb' 30 2 ≠ 2 then .error .invalidPacket
  else if plen > len then .error .invalidPacket
  else .ok { h, count := (h.extractLsb' 24 5).toNat, pt := (h.extractLsb' 16 8).toNat, plen }

/-- The address of the first of `n` report blocks at `p` whose SSRC is `ssrc` (R202). -/
def findBlock (m : Memory) (ssrc : Word) : Nat → Nat → Option Nat
  | 0, _ => none
  | n + 1, p => if memWord m p = ssrc then some p else findBlock m ssrc n (p + 24)

/-- What the block at `b` for this session writes (R202). -/
def applyBlock (m : Memory) (now : Word) (rx : RxRegs) (b : Nat) : RxRegs :=
  let lsr := memWord m (b + 16)
  let dlsrField := memWord m (b + 20)
  { rx with
    remoteLoss := memWord m (b + 4)
    remoteExtMax := memWord m (b + 8)
    remoteJitter := memWord m (b + 12)
    rtt := if lsr ≠ 0 then now - lsr - dlsrField else rx.rtt
    state := { rx.state with remoteValid := true, rttValid := rx.state.rttValid || lsr != 0 } }

/-- ProcessBlocks(p, count) (R202): the statistics, and whether a block was for us. -/
def processBlocks (m : Memory) (ssrc now : Word) (p count : Nat) (rx : RxRegs) : RxRegs × Bool :=
  match findBlock m ssrc count p with
  | some b => (applyBlock m now rx b, true)
  | none => (rx, false)

/-- The statistics after an SR records its LSR (R201). -/
def recordSr (rx : RxRegs) (msw lsw now : Word) : RxRegs :=
  { rx with lsr := ntpShort msw lsw, lsrArrival := now, state := { rx.state with lsrValid := true } }

/-- The parse registers as RTCP_PARSE starts from them: every one from RTCP_SSRC on 0, and RTCP_HDR (R204). -/
def parseStart (ch : RtcpCommon) : RtcpRegs := { RtcpRegs.reset with hdr := ch.h }

/-- RTCP_SSRC of a packet read as header only: its first SSRC word, when it has one (R203). -/
def headerOnlySsrc (m : Memory) (base plen : Nat) : Word := if plen ≥ 8 then memWord m (base + 4) else 0

/-- ParseSR(base, count, plen) with RTCP_INFO.BLOCKS (R201, R204). -/
def parseSr (s : State) (base : Nat) (ch : RtcpCommon) : Except CmdError (RtcpRegs × RxRegs) :=
  let m := s.pb
  let msw := memWord m (base + 8)
  let lsw := memWord m (base + 12)
  let pr := processBlocks m s.sess.ssrc (nowShort s) (base + 28) ch.count (recordSr s.rx msw lsw (nowShort s))
  if ch.plen < 28 + 24 * ch.count then .error .invalidPacket
  else .ok ({ parseStart ch with
      ssrc := memWord m (base + 4), ntpMsw := msw, ntpLsw := lsw, rtpTs := memWord m (base + 16)
      pktCount := memWord m (base + 20), octetCount := memWord m (base + 24)
      info := { blocks := BitVec.ofNat 5 ch.count, blockForUs := pr.2, unknownPt := false } }, pr.1)

/-- The RR of R203 with RTCP_INFO.BLOCKS (R204). -/
def parseRr (s : State) (base : Nat) (ch : RtcpCommon) : Except CmdError (RtcpRegs × RxRegs) :=
  let pr := processBlocks s.pb s.sess.ssrc (nowShort s) (base + 8) ch.count s.rx
  if ch.plen < 8 + 24 * ch.count then .error .invalidPacket
  else .ok ({ parseStart ch with
      ssrc := memWord s.pb (base + 4)
      info := { blocks := BitVec.ofNat 5 ch.count, blockForUs := pr.2, unknownPt := false } }, pr.1)

/-- The BYE of R203. -/
def parseBye (s : State) (base : Nat) (ch : RtcpCommon) : Except CmdError (RtcpRegs × RxRegs) :=
  if ch.plen < 4 + 4 * ch.count then .error .invalidPacket
  else .ok ({ parseStart ch with ssrc := if ch.count > 0 then memWord s.pb (base + 4) else 0 }, s.rx)

/-- SDES, APP and the feedback types, and any other type, which sets UNKNOWN_PT (R203). -/
def parseHeaderOnly (s : State) (base : Nat) (ch : RtcpCommon) (unknown : Bool) :
    Except CmdError (RtcpRegs × RxRegs) :=
  .ok ({ parseStart ch with
      ssrc := headerOnlySsrc s.pb base ch.plen
      info := { blocks := 0, blockForUs := false, unknownPt := unknown } }, s.rx)

/-- The case on the packet type (R204). -/
def parseBody (s : State) (base : Nat) (ch : RtcpCommon) : Except CmdError (RtcpRegs × RxRegs) :=
  if ch.pt = 200 then parseSr s base ch
  else if ch.pt = 201 then parseRr s base ch
  else if ch.pt = 203 then parseBye s base ch
  else if ch.pt = 202 ∨ ch.pt = 204 ∨ ch.pt = 205 ∨ ch.pt = 206 then parseHeaderOnly s base ch false
  else parseHeaderOnly s base ch true

/-- The rule of RTCP_PARSE (R204). -/
def ruleRtcpParse (s : State) : Except CmdError State :=
  let base := s.op.srcAddr.toNat
  if ¬ InRange s s.op.srcAddr s.op.srcLen then .error .invalidParam
  else match parseCommonHeader s.pb base s.op.srcLen.toNat with
    | .error e => .error e
    | .ok ch => match parseBody s base ch with
      | .error e => .error e
      | .ok pr => .ok { s with rtcp := pr.1, rx := pr.2, op := { s.op with resLen := u32 ch.plen } }

/-- RTCP_PARSE (R204). -/
def execRtcpParse (s : State) : Host.Outcome State Fault Refusal := runRule s (ruleRtcpParse s)

end Sys2Proof.Machine
end

