-- ==== Sys2Proof/Machine/Session.lean ====
section
/-! DEFINITION. The RTP session: SESS_INIT, SEQ_DIFF, SESS_CREATE_PACKET and SESS_PROCESS_RECEIVED with the receive
statistics (42_rtp_session.md R170 to R179). -/

namespace Sys2Proof.Machine

open Sys2Proof

/-- SESS_SSRC after SESS_INIT: a draw, or as the host wrote it (R171). -/
def initSsrc (s : State) (randSsrc : Bool) : Word := if randSsrc then Config.draw32 s.draws else s.sess.ssrc

/-- SESS_SEQ after SESS_INIT: the next draw, or as the host wrote it (R171). -/
def initSeq (s : State) (randSsrc randSeq : Bool) : BitVec 16 :=
  if randSeq then Config.draw16 (s.draws + randSsrc.toNat) else s.sess.seq

/-- SESS_INIT (R171). Each draw it takes is a free value (R15, log entry 3). -/
def execSessInit (randSsrc randSeq : Bool) (s : State) : Host.Outcome State Fault Refusal :=
  runRule s (.ok { s with
    sess := { s.sess with ssrc := initSsrc s randSsrc, seq := initSeq s randSsrc randSeq, txPkts := 0, txOctets := 0 }
    rx := RxRegs.reset
    draws := s.draws + randSsrc.toNat + randSeq.toNat })

/-- SEQ_DIFF (R172): RES0 ← u_32(sequence_diff(ARG0[15:0], ARG1[15:0])). -/
def execSeqDiff (s : State) : Host.Outcome State Fault Refusal :=
  runRule s (.ok { s with op := { s.op with
    res0 := BitVec.ofInt 32 (sequenceDiff (s.op.arg0.setWidth 16) (s.op.arg1.setWidth 16)) } })

/-- The packet SESS_CREATE_PACKET builds: P = X = 0, CC = 0, the session's SSRC, next sequence number, payload type
and timestamp, then the payload (R173). -/
def createdPacket (s : State) (marker : Bool) : List Byte :=
  rtpHeaderBytes false false marker s.sess.pt s.sess.seq s.sess.ts s.sess.ssrc [] 0 0 [] ++
    memBytes s.pb s.op.srcAddr.toNat s.op.srcLen.toNat

/-- The rule of SESS_CREATE_PACKET (R173). -/
def ruleSessCreatePacket (marker : Bool) (s : State) : Except CmdError State :=
  let d := s.op.dstAddr.toNat
  let total := 12 + s.op.srcLen.toNat
  if ¬ InRange s s.op.srcAddr s.op.srcLen then .error .invalidParam
  else if ¬ InRange s s.op.dstAddr s.op.dstCap then .error .invalidParam
  else if total > s.op.dstCap.toNat then .error .bufferTooSmall
  else .ok { s with
    pb := memWriteBytes s.pb d (createdPacket s marker)
    sess := { s.sess with
      seq := s.sess.seq + 1
      txPkts := s.sess.txPkts + 1
      txOctets := s.sess.txOctets + s.op.srcLen }
    op := { s.op with resLen := u32 total }
    hdr := { s.hdr with
      b01 := BitVec.ofNat 16 (0x8000 + marker.toNat * 128 + s.sess.pt.toNat)
      seq := s.sess.seq, ts := s.sess.ts, ssrc := s.sess.ssrc, hdrLen := 12, extLenWords := 0, extOff := 0
      payloadOff := u32 (d + 12), payloadLen := s.op.srcLen } }

/-- SESS_CREATE_PACKET (R173). -/
def execSessCreatePacket (marker : Bool) (s : State) : Host.Outcome State Fault Refusal :=
  runRule s (ruleSessCreatePacket marker s)

/-- UpdateJitter(transit) (R177, R178), in unbounded integers narrowed by u_32. -/
def updateJitter (rx : RxRegs) (transit : Word) : RxRegs :=
  let d : Int := (transit - rx.lastTransit).toInt
  let j : Int := rx.jitter16.toNat
  { rx with jitter16 := BitVec.ofInt 32 (j + d.natAbs - (j + 8) / 16), lastTransit := transit }

/-- UpdateRxStats's first case: the statistics start with this packet (R176). The LSR, RTT and remote registers
stay. -/
def startRxStats (rx : RxRegs) (ssrc : Word) (seq : BitVec 16) (transit : Word) : RxRegs :=
  { rx with
    state := { rx.state with rxValid := true }, ssrc, baseSeq := seq, maxSeq := seq, cycles := 0, received := 1,
    duplicates := 0, reordered := 0, jitter16 := 0, lastTransit := transit, expectedPrior := 0, receivedPrior := 0 }

/-- UpdateRxStats(ssrc, seq, ts, arrival) (R176): the statistics, and the HDR_FLAGS bits it returns. -/
def updateRxStats (rx : RxRegs) (ssrc : Word) (seq : BitVec 16) (ts arrival : Word) : RxRegs × HdrFlags :=
  let transit := arrival - ts
  let d := sequenceDiff seq rx.maxSeq
  let j := updateJitter rx transit
  if !rx.state.rxValid then (startRxStats rx ssrc seq transit, { HdrFlags.zero with first := true })
  else if ssrc ≠ rx.ssrc then (rx, { HdrFlags.zero with foreignSsrc := true })
  else if d = 0 then ({ rx with duplicates := rx.duplicates + 1 }, { HdrFlags.zero with duplicate := true })
  else if d > 0 then
    ({ j with
        received := rx.received + 1
        cycles := if seq.toNat < rx.maxSeq.toNat then rx.cycles + 1 else rx.cycles
        maxSeq := seq }, HdrFlags.zero)
  else ({ j with received := rx.received + 1, reordered := rx.reordered + 1 },
    { HdrFlags.zero with reordered := true })

/-- The rule of SESS_PROCESS_RECEIVED (R175). -/
def ruleSessProcessReceived (s : State) : Except CmdError State :=
  if ¬ InRange s s.op.srcAddr s.op.srcLen then .error .invalidParam
  else match parseRtpHeader s.pb s.op.srcAddr.toNat s.op.srcLen.toNat with
    | .error e => .error e
    | .ok ph =>
      let u := updateRxStats s.rx ph.ssrc ph.seq ph.ts s.sess.rxArrival
      .ok { s with
        op := decodedOp s ph
        hdr := decodedHdr s ph { u.2 with extOneByte := isOneByteExt ph }
        rx := u.1 }

/-- SESS_PROCESS_RECEIVED (R175). -/
def execSessProcessReceived (s : State) : Host.Outcome State Fault Refusal := runRule s (ruleSessProcessReceived s)

end Sys2Proof.Machine
end

