-- ==== Sys2Proof/Machine/Replay.lean ====
section
/-! DEFINITION. The sequence-number and replay-window engine: index estimation, the replay window, ROC and s_l, and
the trailer (45_srtp_index_replay.md R250 to R256). -/

namespace Sys2Proof.Machine

open Sys2Proof

/-- EstimateV(c, seq), an unbounded integer between roc − 1 and roc + 1 (R250). -/
def estimateV (b : Ctx) (seq : BitVec 16) : Int :=
  let roc : Int := b.roc.toNat
  if !b.status.slValid then roc
  else if b.sL.toNat < 32768 then
    if (seq.toNat : Int) - b.sL.toNat > 32768 then roc - 1 else roc
  else
    if (b.sL.toNat : Int) - 32768 > seq.toNat then roc + 1 else roc

/-- A replay window (R251): the SRTP or the SRTCP one of a context, with its size W. -/
structure Window where
  valid : Bool
  top : Nat
  bmp : BitVec 4096
  size : Nat

/-- The SRTP window of a context (R251). -/
def srtpWindow (b : Ctx) : Window := ⟨b.status.winValid, b.winTop.toNat, b.bmp, b.winSize.toNat⟩

/-- The SRTCP window of a context (R251). -/
def srtcpWindow (b : Ctx) : Window := ⟨b.status.rtcpWinValid, b.rtcpTop.toNat, b.rtcpBmp, b.winSize.toNat⟩

/-- ReplayCheck(win, index): true when it raises ReplayDetected (R252). -/
def replayed (w : Window) (index : Nat) : Bool :=
  w.valid && decide (index ≤ w.top) && (decide (w.top - index ≥ w.size) || w.bmp.getLsbD (w.top - index))

/-- The bitmap slid up by `s` places with bit 0 set, keeping only positions k < W and k < W_MAX (R253). -/
def slideBitmap (wMax size : Nat) (bmp : BitVec 4096) (s : Nat) : BitVec 4096 :=
  if s < min size wMax then ((bmp <<< s) &&& BitVec.ofNat 4096 (2 ^ min (min size wMax) 4096 - 1)) ||| 1 else 1

/-- The bitmap with bit k set. -/
def setBit (bmp : BitVec 4096) (k : Nat) : BitVec 4096 := if k < 4096 then bmp ||| (1#4096 <<< k) else bmp

/-- ReplayMark(win, index) (R253): the window with the index marked. -/
def replayMark (wMax : Nat) (w : Window) (index : Nat) : Window :=
  if !w.valid then { w with valid := true, top := index, bmp := 1 }
  else if index > w.top then { w with top := index, bmp := slideBitmap wMax w.size w.bmp (index - w.top) }
  else { w with bmp := setBit w.bmp (w.top - index) }

/-- A context with its SRTP window written. -/
def setSrtpWindow (b : Ctx) (w : Window) : Ctx :=
  { b with winTop := BitVec.ofNat 48 w.top, bmp := w.bmp, status := { b.status with winValid := w.valid } }

/-- A context with its SRTCP window written. -/
def setSrtcpWindow (b : Ctx) (w : Window) : Ctx :=
  { b with rtcpTop := BitVec.ofNat 31 w.top, rtcpBmp := w.bmp, status := { b.status with rtcpWinValid := w.valid } }

/-- UpdateRocSl(c, v, seq) (R254), for a v that fits 32 bits. -/
def updateRocSl (b : Ctx) (v : Nat) (seq : BitVec 16) : Ctx :=
  if !b.status.slValid then { b with roc := u32 v, sL := seq, status := { b.status with slValid := true } }
  else if v > b.roc.toNat then { b with roc := u32 v, sL := seq }
  else if v = b.roc.toNat ∧ seq.toNat > b.sL.toNat then { b with sL := seq }
  else b

/-- Where a trailer's tag and MKI lie, as packet offsets (R255). -/
structure TrailerOffsets where
  tagOff : Nat
  mkiOff : Nat

/-- Trailer(p, tlen, m) (R255). -/
def trailer (p : Params) (off tlen m : Nat) : TrailerOffsets :=
  if p.mkiBeforeTag then ⟨off + m, off⟩ else ⟨off, off + tlen⟩

/-- The packet index v · 65536 + seq (R250). -/
def packetIndex (v : Nat) (seq : BitVec 16) : Nat := v * 65536 + seq.toNat

end Sys2Proof.Machine
end

