-- ==== Sys2Proof/Machine/Srtp.lean ====
section
/-! DEFINITION. SRTP_TX, SRTP_RX_CHECK and SRTP_RX_COMMIT (45_srtp_index_replay.md R256 to R262, R268). -/

namespace Sys2Proof.Machine

open Sys2Proof

/-- The SR registers an SRTP command leaves for a packet of `len` bytes at `base` (R259, R261). -/
def srtpReport (s : State) (b : Ctx) (base len : Nat) (hdrLen v index : Nat) : SrRegs :=
  let tlen := (ctxLens s b).tagLen
  let t := trailer s.params len tlen (mkiLen b)
  { index := BitVec.ofNat 48 index, roc := u32 v
    encOff := u32 (base + hdrLen), encLen := u32 (len - hdrLen)
    tagOff := u32 (base + t.tagOff), tagLen := u32 tlen
    mkiOff := if b.cfg.mkiEn then u32 (base + t.mkiOff) else 0, mkiLen := u32 (mkiLen b)
    idxOff := 0, e := false }

/-- The buffer with the MKI placed in the trailer, when there is one (R258). -/
def placeMki (m : Memory) (b : Ctx) (a : Nat) : Memory :=
  if b.cfg.mkiEn then memWriteBytes m a (wordBytes b.mki) else m

/-- The bank after SRTP_TX: ROC, S_L and SL_VALID (R254, R259). -/
def srtpTxBank (b : Ctx) (v : Nat) (seq : BitVec 16) : Ctx := updateRocSl b v seq

/-- The state after SRTP_TX on a packet whose header is `ph`, with ROC value v (R259). -/
def srtpTxDone (c : BitVec 4) (s : State) (ph : RtpHeader) (v : Nat) : State :=
  let b := s.bank c
  let base := s.op.srcAddr.toNat
  let len := s.op.srcLen.toNat
  let tlen := (ctxLens s b).tagLen
  let index := packetIndex v ph.seq
  { s.setBank c (srtpTxBank b v ph.seq) with
    pb := placeMki s.pb b (base + (trailer s.params len tlen (mkiLen b)).mkiOff)
    sk := deriveSet s.params b c false index
    sr := srtpReport s b base len ph.hdrLen v index
    op := { s.op with resLen := u32 (len + tlen + mkiLen b) } }

/-- The rule of SRTP_TX (R259). -/
def ruleSrtpTx (c : BitVec 4) (s : State) : Except CmdError State :=
  let b := s.bank c
  let base := s.op.srcAddr.toNat
  let len := s.op.srcLen.toNat
  match ctxError s c (some false) with
  | some e => .error e
  | none =>
    if ¬ InRange s s.op.srcAddr s.op.dstCap ∨ len > s.op.dstCap.toNat then .error .invalidParam
    else match parseRtpHeader s.pb base len with
      | .error e => .error e
      | .ok ph =>
        let v := estimateV b ph.seq
        if ph.ssrc ≠ b.ssrc then .error .invalidParam
        else if len + (ctxLens s b).tagLen + mkiLen b > s.op.dstCap.toNat then .error .bufferTooSmall
        else if v < 0 then .error .invalidParam
        else if v > 4294967295 then .error .keyExpired
        else .ok (srtpTxDone c s ph v.toNat)

/-- SRTP_TX (R259). -/
def execSrtpTx (c : BitVec 4) (s : State) : Host.Outcome State Fault Refusal := runRule s (ruleSrtpTx c s)

/-- The bank after SRTP_RX_CHECK: the candidate (R261). -/
def srtpCandidate (b : Ctx) (v : Nat) (seq : BitVec 16) : Ctx :=
  { b with
    candIndex := BitVec.ofNat 48 (packetIndex v seq), candRoc := u32 v, candSeq := seq
    status := { b.status with candValid := true } }

/-- The state after SRTP_RX_CHECK of a packet with `len` bytes of RTP, header `ph` and ROC value v (R261). -/
def srtpRxCheckDone (c : BitVec 4) (s : State) (len : Nat) (ph : RtpHeader) (v : Nat) : State :=
  let b := s.bank c
  let index := packetIndex v ph.seq
  { s.setBank c (srtpCandidate b v ph.seq) with
    sk := deriveSet s.params b c false index
    sr := srtpReport s b s.op.srcAddr.toNat len ph.hdrLen v index
    op := { s.op with resLen := u32 len } }

/-- The rule of SRTP_RX_CHECK (R261). -/
def ruleSrtpRxCheck (c : BitVec 4) (s : State) : Except CmdError State :=
  let b := s.bank c
  let base := s.op.srcAddr.toNat
  let tlen := (ctxLens s b).tagLen
  let m := mkiLen b
  let len := s.op.srcLen.toNat - tlen - m
  match ctxError s c (some true) with
  | some e => .error e
  | none =>
    if ¬ InRange s s.op.srcAddr s.op.srcLen then .error .invalidParam
    else if s.op.srcLen.toNat < 12 + tlen + m then .error .invalidPacket
    else match parseRtpHeader s.pb base len with
      | .error e => .error e
      | .ok ph =>
        let v := estimateV b ph.seq
        if ph.ssrc ≠ b.ssrc then .error .invalidPacket
        else if b.cfg.mkiEn ∧ memWord s.pb (base + (trailer s.params len tlen m).mkiOff) ≠ b.mki then
          .error .invalidPacket
        else if v < 0 then .error .replayDetected
        else if v > 4294967295 then .error .keyExpired
        else if replayed (srtpWindow b) (packetIndex v.toNat ph.seq) then .error .replayDetected
        else .ok (srtpRxCheckDone c s len ph v.toNat)

/-- SRTP_RX_CHECK (R261). -/
def execSrtpRxCheck (c : BitVec 4) (s : State) : Host.Outcome State Fault Refusal := runRule s (ruleSrtpRxCheck c s)

/-- The bank after a successful SRTP_RX_COMMIT: ROC and s_l, then the window, and no candidate (R262). -/
def srtpCommitBank (p : Params) (b : Ctx) : Ctx :=
  let b1 := updateRocSl b b.candRoc.toNat b.candSeq
  let b2 := setSrtpWindow b1 (replayMark p.wMax (srtpWindow b) b.candIndex.toNat)
  { b2 with status := { b2.status with candValid := false } }

/-- The rule of SRTP_RX_COMMIT (R262). It runs no DeriveSet: after a commit the SK registers are still those of the check
(95_test_vectors.md line 350; log entry 19 on R227). -/
def ruleSrtpRxCommit (c : BitVec 4) (authOk : Bool) (s : State) : Except CmdError State :=
  let b := s.bank c
  match ctxError s c (some true) with
  | some e => .error e
  | none =>
    if !b.status.candValid then .error .notInitialized
    else if !authOk then .error .authFailed
    else if replayed (srtpWindow b) b.candIndex.toNat then .error .replayDetected
    else .ok { s.setBank c (srtpCommitBank s.params b) with sr := { s.sr with index := b.candIndex, roc := b.candRoc } }

/-- SRTP_RX_COMMIT (R262). -/
def execSrtpRxCommit (c : BitVec 4) (authOk : Bool) (s : State) : Host.Outcome State Fault Refusal :=
  runRule s (ruleSrtpRxCommit c authOk s)

end Sys2Proof.Machine
end

