-- ==== Sys2Proof/Machine/Srtcp.lean ====
section
/-! DEFINITION. SRTCP_TX, SRTCP_RX_CHECK and SRTCP_RX_COMMIT (45_srtp_index_replay.md R256 to R258, R264 to R268). -/

namespace Sys2Proof.Machine

open Sys2Proof

/-- The header check of an RTCP packet of `len` bytes at `base`: version 2 and a length field that fits (R265,
R266). -/
def rtcpHeaderFits (m : Memory) (base len : Nat) : Bool :=
  (memWord m base).extractLsb' 30 2 == 2 &&
    decide (4 * (((memWord m base).extractLsb' 0 16).toNat + 1) ≤ len)

/-- The SR registers an SRTCP command leaves for an RTCP packet of `len` bytes at `base` (R265, R266). -/
def srtcpReport (s : State) (b : Ctx) (base len : Nat) (idx : BitVec 31) (e : Bool) : SrRegs :=
  let tlen := (ctxLens s b).tagLenRtcp
  let t := trailer s.params (len + 4) tlen (mkiLen b)
  { index := idx.setWidth 48, roc := 0
    encOff := u32 (base + 8), encLen := if e then u32 (len - 8) else 0
    tagOff := u32 (base + t.tagOff), tagLen := u32 tlen
    mkiOff := if b.cfg.mkiEn then u32 (base + t.mkiOff) else 0, mkiLen := u32 (mkiLen b)
    idxOff := u32 (base + len), e }

/-- The SRTCP index word: E in bit 31, the index below it (R264). -/
def srtcpIndexWord (e : Bool) (idx : BitVec 31) : Word := BitVec.ofBool e ++ idx

/-- The buffer after SRTCP_TX: the index word, then the MKI (R265). -/
def srtcpTxBuffer (s : State) (b : Ctx) (base len : Nat) (idx : BitVec 31) : Memory :=
  placeMki (memWriteBytes s.pb (base + len) (wordBytes (srtcpIndexWord b.cfg.rtcpEnc idx))) b
    (base + (trailer s.params (len + 4) (ctxLens s b).tagLenRtcp (mkiLen b)).mkiOff)

/-- The state after SRTCP_TX (R265). -/
def srtcpTxDone (c : BitVec 4) (s : State) : State :=
  let b := s.bank c
  let base := s.op.srcAddr.toNat
  let len := s.op.srcLen.toNat
  let idx : BitVec 31 := b.rtcpTxIndex.setWidth 31
  { s.setBank c { b with rtcpTxIndex := b.rtcpTxIndex + 1 } with
    pb := srtcpTxBuffer s b base len idx
    sk := deriveSet s.params b c true idx.toNat
    sr := srtcpReport s b base len idx b.cfg.rtcpEnc
    op := { s.op with resLen := u32 (len + 4 + (ctxLens s b).tagLenRtcp + mkiLen b) } }

/-- The rule of SRTCP_TX (R265). -/
def ruleSrtcpTx (c : BitVec 4) (s : State) : Except CmdError State :=
  let b := s.bank c
  let base := s.op.srcAddr.toNat
  let len := s.op.srcLen.toNat
  match ctxError s c (some false) with
  | some e => .error e
  | none =>
    if ¬ InRange s s.op.srcAddr s.op.dstCap ∨ len > s.op.dstCap.toNat then .error .invalidParam
    else if len < 8 then .error .invalidPacket
    else if !rtcpHeaderFits s.pb base len then .error .invalidPacket
    else if memWord s.pb (base + 4) ≠ b.ssrc then .error .invalidParam
    else if len + 4 + (ctxLens s b).tagLenRtcp + mkiLen b > s.op.dstCap.toNat then .error .bufferTooSmall
    else if b.rtcpTxIndex.toNat > 2147483647 then .error .keyExpired
    else .ok (srtcpTxDone c s)

/-- SRTCP_TX (R265). -/
def execSrtcpTx (c : BitVec 4) (s : State) : Host.Outcome State Fault Refusal := runRule s (ruleSrtcpTx c s)

/-- The state after SRTCP_RX_CHECK of a packet with `len` bytes of RTCP and index word `w` (R266). -/
def srtcpRxCheckDone (c : BitVec 4) (s : State) (len : Nat) (w : Word) : State :=
  let b := s.bank c
  let idx : BitVec 31 := w.setWidth 31
  { s.setBank c { b with rtcpCand := w, status := { b.status with rtcpCandValid := true } } with
    sk := deriveSet s.params b c true idx.toNat
    sr := srtcpReport s b s.op.srcAddr.toNat len idx (w.getLsbD 31)
    op := { s.op with resLen := u32 len } }

/-- The rule of SRTCP_RX_CHECK (R266). -/
def ruleSrtcpRxCheck (c : BitVec 4) (s : State) : Except CmdError State :=
  let b := s.bank c
  let base := s.op.srcAddr.toNat
  let tlen := (ctxLens s b).tagLenRtcp
  let m := mkiLen b
  let len := s.op.srcLen.toNat - 4 - tlen - m
  let w := memWord s.pb (base + len)
  match ctxError s c (some true) with
  | some e => .error e
  | none =>
    if ¬ InRange s s.op.srcAddr s.op.srcLen then .error .invalidParam
    else if s.op.srcLen.toNat < 8 + 4 + tlen + m then .error .invalidPacket
    else if !rtcpHeaderFits s.pb base len then .error .invalidPacket
    else if memWord s.pb (base + 4) ≠ b.ssrc then .error .invalidPacket
    else if b.cfg.mkiEn ∧ memWord s.pb (base + (trailer s.params (len + 4) tlen m).mkiOff) ≠ b.mki then
      .error .invalidPacket
    else if replayed (srtcpWindow b) (w.setWidth 31).toNat then .error .replayDetected
    else .ok (srtcpRxCheckDone c s len w)

/-- SRTCP_RX_CHECK (R266). -/
def execSrtcpRxCheck (c : BitVec 4) (s : State) : Host.Outcome State Fault Refusal :=
  runRule s (ruleSrtcpRxCheck c s)

/-- The bank after a successful SRTCP_RX_COMMIT: the window, and no candidate (R267). -/
def srtcpCommitBank (p : Params) (b : Ctx) : Ctx :=
  let b1 := setSrtcpWindow b (replayMark p.wMax (srtcpWindow b) (b.rtcpCand.setWidth 31).toNat)
  { b1 with status := { b1.status with rtcpCandValid := false } }

/-- The rule of SRTCP_RX_COMMIT (R267). It runs no DeriveSet: after a commit the SK registers are still those of the check
(95_test_vectors.md line 501; log entry 19 on R227). -/
def ruleSrtcpRxCommit (c : BitVec 4) (authOk : Bool) (s : State) : Except CmdError State :=
  let b := s.bank c
  match ctxError s c (some true) with
  | some e => .error e
  | none =>
    if !b.status.rtcpCandValid then .error .notInitialized
    else if !authOk then .error .authFailed
    else if replayed (srtcpWindow b) (b.rtcpCand.setWidth 31).toNat then .error .replayDetected
    else .ok { s.setBank c (srtcpCommitBank s.params b) with
      sr := { s.sr with index := (b.rtcpCand.setWidth 31).setWidth 48, e := b.rtcpCand.getLsbD 31 } }

/-- SRTCP_RX_COMMIT (R267). -/
def execSrtcpRxCommit (c : BitVec 4) (authOk : Bool) (s : State) : Host.Outcome State Fault Refusal :=
  runRule s (ruleSrtcpRxCommit c authOk s)

end Sys2Proof.Machine
end

