-- ==== Sys2Proof/Machine/Dispatch.lean ====
section
/-! DEFINITION. The meaning of every command, one arm per constructor (30_encoding.md R103). -/

namespace Sys2Proof.Machine

open Sys2Proof

def exec (i : Instr) (s : State) : Host.Outcome State Fault Refusal :=
  match i with
  -- 40_control.md
  | .nop => Sys2Proof.Machine.execNop s
  -- 41_rtp_codec.md
  | .rtpEncode => Sys2Proof.Machine.execRtpEncode s
  | .rtpDecode => Sys2Proof.Machine.execRtpDecode s
  -- 42_rtp_session.md
  | .sessInit randSsrc randSeq => Sys2Proof.Machine.execSessInit randSsrc randSeq s
  | .sessCreatePacket marker => Sys2Proof.Machine.execSessCreatePacket marker s
  | .sessProcessReceived => Sys2Proof.Machine.execSessProcessReceived s
  | .seqDiff => Sys2Proof.Machine.execSeqDiff s
  -- 43_rtcp.md
  | .rtcpCreateSr => Sys2Proof.Machine.execRtcpCreateSr s
  | .rtcpCreateRr => Sys2Proof.Machine.execRtcpCreateRr s
  | .rtcpCreateBye => Sys2Proof.Machine.execRtcpCreateBye s
  | .rtcpParse => Sys2Proof.Machine.execRtcpParse s
  -- 44_srtp_context_kdf.md
  | .ctxInit c => Sys2Proof.Machine.execCtxInit c s
  | .ctxUpdateKey c => Sys2Proof.Machine.execCtxUpdateKey c s
  | .ctxTeardown c => Sys2Proof.Machine.execCtxTeardown c s
  | .kdf c rtcp => Sys2Proof.Machine.execKdf c rtcp s
  -- 45_srtp_index_replay.md
  | .srtpTx c => Sys2Proof.Machine.execSrtpTx c s
  | .srtpRxCheck c => Sys2Proof.Machine.execSrtpRxCheck c s
  | .srtpRxCommit c authOk => Sys2Proof.Machine.execSrtpRxCommit c authOk s
  | .srtcpTx c => Sys2Proof.Machine.execSrtcpTx c s
  | .srtcpRxCheck c => Sys2Proof.Machine.execSrtcpRxCheck c s
  | .srtcpRxCommit c authOk => Sys2Proof.Machine.execSrtcpRxCommit c authOk s

end Sys2Proof.Machine
end

