-- ==== Sys2Proof/Machine/RegMap.lean ====
section
/-! DEFINITION. The register window: the names of the registers, their offsets (10_state.md R22 to R35, 20_memory.md
R84), and what a host read of each returns. -/

namespace Sys2Proof.Machine

open Sys2Proof

/-- The registers of a context bank (10_state.md R35). -/
inductive BankReg where
  | ctxCfg | ctxStatus | winSize | kdr | ctxSsrc | mki | rocInit | roc | sL | winTopLo | winTopHi | winBmpIdx
  | winBmpData | candIndexLo | candIndexHi | candRoc | candSeq | rtcpTxIndex | rtcpTop | rtcpBmpData | rtcpCand
  | reserved
  | mkeyStage (i : Fin 8)
  | msaltStage (i : Fin 4)
  deriving DecidableEq, Repr

/-- The registers of SKFE (10_state.md). -/
inductive Reg where
  | id | ctrl | cmd | status | intEn | intStatus | cmdCount | params | pbufSize
  | srcAddr | srcLen | dstAddr | dstCap | auxAddr | auxLen | resLen | reserved | arg0 | arg1 | res0
  | hdrB01 | hdrSeq | hdrTs | hdrSsrc | csrc (i : Fin 15) | extProfile | extLenWords | extOff | payloadOff
  | payloadLen | hdrLen | hdrFlags
  | sessSsrc | sessSeq | sessPt | sessTs | sessTxPkts | sessTxOctets | nowNtpMsw | nowNtpLsw | nowRtpTs | rxArrival
  | rxState | rxSsrc | rxBaseSeq | rxMaxSeq | rxCycles | rxReceived | rxDuplicates | rxReordered | rxJitter16
  | rxLastTransit | rxExpectedPrior | rxReceivedPrior | rxLsr | rxLsrArrival | rtt | remoteLoss | remoteExtMax
  | remoteJitter
  | rtcpHdr | rtcpSsrc | rtcpNtpMsw | rtcpNtpLsw | rtcpRtpTs | rtcpPktCount | rtcpOctetCount | rtcpInfo
  | srIndexLo | srIndexHi | srRoc | srEncOff | srEncLen | srTagOff | srTagLen | srMkiOff | srMkiLen | srIdxOff | srE
  | kdfIdxLo | kdfIdxHi | skEnc (i : Fin 8) | skSalt (i : Fin 4) | skAuth (i : Fin 5) | skInfo | skRLo | skRHi
  | bank (c : BitVec 4) (r : BankReg)
  deriving DecidableEq

/-- Consecutive words from an offset on. -/
def rowsFrom {α : Type} (off : Nat) : List α → List (Nat × α)
  | [] => []
  | r :: rs => (off, r) :: rowsFrom (off + 4) rs

/-- Global control registers (R22). -/
def globalRows : List (Nat × Reg) :=
  rowsFrom 0x000 [.id, .ctrl, .cmd, .status, .intEn, .intStatus, .cmdCount, .params, .pbufSize]

/-- Operand registers (R27); 0x05C is a reserved row. -/
def operandRows : List (Nat × Reg) :=
  rowsFrom 0x040 [.srcAddr, .srcLen, .dstAddr, .dstCap, .auxAddr, .auxLen, .resLen, .reserved, .arg0, .arg1, .res0]

/-- Header-codec registers (R28). -/
def headerRows : List (Nat × Reg) :=
  rowsFrom 0x080 [.hdrB01, .hdrSeq, .hdrTs, .hdrSsrc] ++ rowsFrom 0x090 ((List.finRange 15).map Reg.csrc) ++
    rowsFrom 0x0CC [.extProfile, .extLenWords, .extOff, .payloadOff, .payloadLen, .hdrLen, .hdrFlags]

/-- Session and send-side registers (R30). -/
def sessionRegRows : List (Nat × Reg) :=
  rowsFrom 0x100 [.sessSsrc, .sessSeq, .sessPt, .sessTs, .sessTxPkts, .sessTxOctets, .nowNtpMsw, .nowNtpLsw,
    .nowRtpTs, .rxArrival]

/-- Receive-statistics registers (R31). -/
def rxRows : List (Nat × Reg) :=
  rowsFrom 0x128 [.rxState, .rxSsrc, .rxBaseSeq, .rxMaxSeq, .rxCycles, .rxReceived, .rxDuplicates, .rxReordered,
    .rxJitter16, .rxLastTransit, .rxExpectedPrior, .rxReceivedPrior, .rxLsr, .rxLsrArrival, .rtt, .remoteLoss,
    .remoteExtMax, .remoteJitter]

/-- RTCP parse registers (R32). -/
def rtcpRegRows : List (Nat × Reg) :=
  rowsFrom 0x180 [.rtcpHdr, .rtcpSsrc, .rtcpNtpMsw, .rtcpNtpLsw, .rtcpRtpTs, .rtcpPktCount, .rtcpOctetCount, .rtcpInfo]

/-- SRTP result registers (R33). -/
def srRows : List (Nat × Reg) :=
  rowsFrom 0x200 [.srIndexLo, .srIndexHi, .srRoc, .srEncOff, .srEncLen, .srTagOff, .srTagLen, .srMkiOff, .srMkiLen,
    .srIdxOff, .srE]

/-- KDF argument and session-key output registers (R34). -/
def skRows : List (Nat × Reg) :=
  rowsFrom 0x230 [.kdfIdxLo, .kdfIdxHi] ++ rowsFrom 0x240 ((List.finRange 8).map Reg.skEnc) ++
    rowsFrom 0x260 ((List.finRange 4).map Reg.skSalt) ++ rowsFrom 0x270 ((List.finRange 5).map Reg.skAuth) ++
    rowsFrom 0x284 [.skInfo, .skRLo, .skRHi]

/-- Every register below the banks. -/
def regRows : List (Nat × Reg) :=
  globalRows ++ operandRows ++ headerRows ++ sessionRegRows ++ rxRows ++ rtcpRegRows ++ srRows ++ skRows

/-- The registers of a bank, by bank offset (R35); +0x54 to +0x5C and +0x90 to +0xFC are reserved rows. -/
def bankRows : List (Nat × BankReg) :=
  rowsFrom 0x00 [.ctxCfg, .ctxStatus, .winSize, .kdr, .ctxSsrc, .mki, .rocInit, .roc, .sL, .winTopLo, .winTopHi,
    .winBmpIdx, .winBmpData, .candIndexLo, .candIndexHi, .candRoc, .candSeq, .rtcpTxIndex, .rtcpTop, .rtcpBmpData,
    .rtcpCand] ++
  rowsFrom 0x54 (List.replicate 3 .reserved) ++ rowsFrom 0x60 ((List.finRange 8).map BankReg.mkeyStage) ++
  rowsFrom 0x80 ((List.finRange 4).map BankReg.msaltStage) ++ rowsFrom 0x90 (List.replicate 28 .reserved)

/-- The row at an offset. -/
def rowAt {α : Type} (rows : List (Nat × α)) (off : Nat) : Option α := (rows.find? fun r => r.1 == off).map (·.2)

/-- The register at an offset of the window, or none where the offset is unmapped (R84): bank c is mapped only for
c < N_CTX. -/
def regAt (p : Params) (off : Nat) : Option Reg :=
  if off < 0x400 then rowAt regRows off
  else
    let c := (off - 0x400) / 0x100
    if c < p.nCtx ∧ c < 16 then
      (rowAt bankRows ((off - 0x400) % 0x100)).map (Reg.bank (BitVec.ofNat 4 c))
    else none

/-- The status group, accessible while BUSY = 1 (R85). -/
def inStatusGroup : Reg → Bool
  | .id | .ctrl | .status | .intEn | .intStatus | .cmdCount | .params | .pbufSize => true
  | _ => false

/-- A one-bit field in its place. -/
def bitAt (b : Bool) (i : Nat) : Word := if b then 1#32 <<< i else 0

/-- STATUS as the host reads it (10_state.md R25). -/
def statusWord (st : Status) : Word :=
  bitAt st.busy 0 ||| bitAt st.done 1 ||| bitAt st.err 2 ||| bitAt st.cmdOverrun 3 ||| bitAt st.accErr 4 |||
    (st.errcode.setWidth 32 <<< 8)

/-- INT_EN and INT_STATUS as the host reads them (R22). -/
def intWord (i : IntBits) : Word := bitAt i.done 0 ||| bitAt i.err 1 ||| bitAt i.sec 2

/-- PARAMS (R22). -/
def paramsWord (p : Params) : Word :=
  (BitVec.ofNat 8 p.nCtx).setWidth 32 ||| ((BitVec.ofNat 13 p.wMax).setWidth 32 <<< 8) ||| bitAt p.mkiBeforeTag 21 |||
    ((BitVec.ofNat 8 p.srtcpTag32Len).setWidth 32 <<< 24)

/-- HDR_FLAGS (R29). -/
def hdrFlagsWord (f : HdrFlags) : Word :=
  bitAt f.extOneByte 0 ||| bitAt f.foreignSsrc 1 ||| bitAt f.duplicate 2 ||| bitAt f.reordered 3 ||| bitAt f.first 4

/-- RX_STATE (R31). -/
def rxStateWord (r : RxState) : Word :=
  bitAt r.rxValid 0 ||| bitAt r.lsrValid 1 ||| bitAt r.rttValid 2 ||| bitAt r.remoteValid 3

/-- RTCP_INFO (R32). -/
def rtcpInfoWord (i : RtcpInfo) : Word := i.blocks.setWidth 32 ||| bitAt i.blockForUs 8 ||| bitAt i.unknownPt 9

/-- SK_INFO (R34). -/
def skInfoWord (i : SkInfo) : Word :=
  bitAt i.valid 0 ||| bitAt i.rtcp 1 ||| (i.ctx.setWidth 32 <<< 4) ||| (i.encLen.setWidth 32 <<< 8) |||
    (i.saltLen.setWidth 32 <<< 16) ||| (i.authLen.setWidth 32 <<< 24)

/-- CTX_CFG.PROFILE's encoding (R36). -/
def profileBits : Profile → BitVec 2
  | .aesCm128Sha80 => 0
  | .aesCm128Sha32 => 1
  | .aeadAes128Gcm => 2
  | .aeadAes256Gcm => 3

/-- The profile of a CTX_CFG.PROFILE value; all four are legal (R36). -/
def profileOf (v : BitVec 2) : Profile :=
  if v = 0 then .aesCm128Sha80 else if v = 1 then .aesCm128Sha32 else if v = 2 then .aeadAes128Gcm
  else .aeadAes256Gcm

/-- CTX_CFG (R35). -/
def ctxCfgWord (c : CtxCfg) : Word :=
  (profileBits c.profile).setWidth 32 ||| bitAt c.dir 2 ||| bitAt c.mkiEn 3 ||| bitAt c.rtcpEnc 4

/-- CTX_STATUS (R37). -/
def ctxStatusWord (s : CtxStatus) : Word :=
  bitAt s.valid 0 ||| bitAt s.slValid 1 ||| bitAt s.winValid 2 ||| bitAt s.candValid 3 ||| bitAt s.rtcpWinValid 4 |||
    bitAt s.rtcpCandValid 5

/-- A bitmap word: bit j is position 32·i + j, 0 at and above WIN_SIZE or W_MAX (R40). -/
def bitmapWord (p : Params) (b : Ctx) (bmp : BitVec 4096) : Word :=
  let size := min (min b.winSize.toNat p.wMax) 4096
  (bmp &&& BitVec.ofNat 4096 (2 ^ size - 1)).extractLsb' (32 * b.winBmpIdx.toNat) 32

/-- What a host read of a bank register returns (R35). The staging registers are write-only and read 0 (R39). -/
def readBankReg (p : Params) (b : Ctx) : BankReg → Word
  | .ctxCfg => ctxCfgWord b.cfg
  | .ctxStatus => ctxStatusWord b.status
  | .winSize => b.winSize.setWidth 32
  | .kdr => b.kdr
  | .ctxSsrc => b.ssrc
  | .mki => b.mki
  | .rocInit => b.rocInit
  | .roc => b.roc
  | .sL => b.sL.setWidth 32
  | .winTopLo => b.winTop.extractLsb' 0 32
  | .winTopHi => (b.winTop.extractLsb' 32 16).setWidth 32
  | .winBmpIdx => b.winBmpIdx.setWidth 32
  | .winBmpData => bitmapWord p b b.bmp
  | .candIndexLo => b.candIndex.extractLsb' 0 32
  | .candIndexHi => (b.candIndex.extractLsb' 32 16).setWidth 32
  | .candRoc => b.candRoc
  | .candSeq => b.candSeq.setWidth 32
  | .rtcpTxIndex => b.rtcpTxIndex
  | .rtcpTop => b.rtcpTop.setWidth 32
  | .rtcpBmpData => bitmapWord p b b.rtcpBmp
  | .rtcpCand => b.rtcpCand
  | .reserved => 0
  | .mkeyStage _ => 0
  | .msaltStage _ => 0

/-- What a host read of a register returns (10_state.md). CTRL and CMD read 0, reserved rows read 0 (R21, R22). -/
def readReg (s : State) : Reg → Word
  | .id => 0x534B0001
  | .ctrl => 0
  | .cmd => 0
  | .status => statusWord s.glob.status
  | .intEn => intWord s.glob.intEn
  | .intStatus => intWord s.glob.intStatus
  | .cmdCount => s.glob.cmdCount
  | .params => paramsWord s.params
  | .pbufSize => u32 s.params.pbufSize
  | .srcAddr => s.op.srcAddr
  | .srcLen => s.op.srcLen
  | .dstAddr => s.op.dstAddr
  | .dstCap => s.op.dstCap
  | .auxAddr => s.op.auxAddr
  | .auxLen => s.op.auxLen
  | .resLen => s.op.resLen
  | .reserved => 0
  | .arg0 => s.op.arg0
  | .arg1 => s.op.arg1
  | .res0 => s.op.res0
  | .hdrB01 => s.hdr.b01.setWidth 32
  | .hdrSeq => s.hdr.seq.setWidth 32
  | .hdrTs => s.hdr.ts
  | .hdrSsrc => s.hdr.ssrc
  | .csrc i => s.hdr.csrc[i]
  | .extProfile => s.hdr.extProfile.setWidth 32
  | .extLenWords => s.hdr.extLenWords.setWidth 32
  | .extOff => s.hdr.extOff
  | .payloadOff => s.hdr.payloadOff
  | .payloadLen => s.hdr.payloadLen
  | .hdrLen => s.hdr.hdrLen
  | .hdrFlags => hdrFlagsWord s.hdr.flags
  | .sessSsrc => s.sess.ssrc
  | .sessSeq => s.sess.seq.setWidth 32
  | .sessPt => s.sess.pt.setWidth 32
  | .sessTs => s.sess.ts
  | .sessTxPkts => s.sess.txPkts
  | .sessTxOctets => s.sess.txOctets
  | .nowNtpMsw => s.sess.nowNtpMsw
  | .nowNtpLsw => s.sess.nowNtpLsw
  | .nowRtpTs => s.sess.nowRtpTs
  | .rxArrival => s.sess.rxArrival
  | .rxState => rxStateWord s.rx.state
  | .rxSsrc => s.rx.ssrc
  | .rxBaseSeq => s.rx.baseSeq.setWidth 32
  | .rxMaxSeq => s.rx.maxSeq.setWidth 32
  | .rxCycles => s.rx.cycles.setWidth 32
  | .rxReceived => s.rx.received
  | .rxDuplicates => s.rx.duplicates
  | .rxReordered => s.rx.reordered
  | .rxJitter16 => s.rx.jitter16
  | .rxLastTransit => s.rx.lastTransit
  | .rxExpectedPrior => s.rx.expectedPrior
  | .rxReceivedPrior => s.rx.receivedPrior
  | .rxLsr => s.rx.lsr
  | .rxLsrArrival => s.rx.lsrArrival
  | .rtt => s.rx.rtt
  | .remoteLoss => s.rx.remoteLoss
  | .remoteExtMax => s.rx.remoteExtMax
  | .remoteJitter => s.rx.remoteJitter
  | .rtcpHdr => s.rtcp.hdr
  | .rtcpSsrc => s.rtcp.ssrc
  | .rtcpNtpMsw => s.rtcp.ntpMsw
  | .rtcpNtpLsw => s.rtcp.ntpLsw
  | .rtcpRtpTs => s.rtcp.rtpTs
  | .rtcpPktCount => s.rtcp.pktCount
  | .rtcpOctetCount => s.rtcp.octetCount
  | .rtcpInfo => rtcpInfoWord s.rtcp.info
  | .srIndexLo => s.sr.index.extractLsb' 0 32
  | .srIndexHi => (s.sr.index.extractLsb' 32 16).setWidth 32
  | .srRoc => s.sr.roc
  | .srEncOff => s.sr.encOff
  | .srEncLen => s.sr.encLen
  | .srTagOff => s.sr.tagOff
  | .srTagLen => s.sr.tagLen
  | .srMkiOff => s.sr.mkiOff
  | .srMkiLen => s.sr.mkiLen
  | .srIdxOff => s.sr.idxOff
  | .srE => bitAt s.sr.e 0
  | .kdfIdxLo => s.kdfIdx.extractLsb' 0 32
  | .kdfIdxHi => (s.kdfIdx.extractLsb' 32 16).setWidth 32
  | .skEnc i => keyWord s.sk.enc i.val
  | .skSalt i => keyWord s.sk.salt i.val
  | .skAuth i => keyWord s.sk.auth i.val
  | .skInfo => skInfoWord s.sk.info
  | .skRLo => s.sk.r.extractLsb' 0 32
  | .skRHi => (s.sk.r.extractLsb' 32 16).setWidth 32
  | .bank c r => readBankReg s.params (s.bank c) r

end Sys2Proof.Machine
end

