-- ==== Sys2Proof/Machine/HostBus.lean ====
section
/-! DEFINITION. The host's accesses: widths and alignment (20_memory.md R83), rejection (R85), register writes with
their access types (10_state.md R21, R38), CMD writes (40_control.md R140, 60_exceptions.md R306), W1C (R312), buffer
bytes (20_memory.md R81), and soft reset (70_reset_and_hazards.md R331). -/

namespace Sys2Proof.Machine

open Sys2Proof

/-- The width of an access in bytes; a width R83 does not admit has none, and `targetOf` rejects it first. -/
def widthBytes : Width → Nat
  | .byte => 1
  | .half => 2
  | .word => 4
  | .other => 0

/-- Where a host access lands: a register, or buffer bytes from an address on. -/
inductive Target where
  | reg (r : Reg)
  | buf (a : Nat)
  deriving DecidableEq

/-- The target of an access that meets R83 and R84: a register access is 32 bits wide and a multiple of 4; a buffer
access is 8, 16 or 32 bits wide, naturally aligned and inside the buffer; any other access has no target. -/
def targetOf (p : Params) (off : Nat) (w : Width) : Option Target :=
  if 0x10000 ≤ off then
    if w ≠ .other ∧ off % widthBytes w = 0 ∧ off + widthBytes w ≤ 0x10000 + p.pbufSize then some (.buf (off - 0x10000))
    else none
  else if w = .word ∧ off % 4 = 0 then (regAt p off).map Target.reg
  else none

/-- Accessible while BUSY = 1: the status group, and for a write also CMD, which is then an overrun (R85, R306). DEDUCED:
a read of CMD while BUSY = 1 is rejected (log entry 13), and so is a CMD write of a wrong width (log entry 12). -/
def openWhileBusy (isWrite : Bool) : Target → Bool
  | .reg r => inStatusGroup r || (isWrite && r == .cmd)
  | .buf _ => false

/-- The target of an access the interface accepts; none when it rejects it (R85). -/
def acceptedTarget (s : State) (off : Nat) (w : Width) (isWrite : Bool) : Option Target :=
  match targetOf s.params off w with
  | none => none
  | some t => if s.glob.status.busy && !openWhileBusy isWrite t then none else some t

/-- A rejected access, and a write to a locked register: STATUS.ACC_ERR ← 1 and nothing else (R85, R307, R38). -/
def accessError (s : State) : State :=
  { s with glob := { s.glob with status := { s.glob.status with accErr := true } } }

/-- A host write to CMD (40_control.md R140, R306). A DONE that an earlier command left at 1 stays 1, as R140, R302 and
R308 say. DEDUCED: R91's "DONE = 1, after the CMD write" is read as a DONE that this command set; a read of a DONE left
over from an earlier command can come before the command's writes (log entry 18). -/
def writeCmd (s : State) (w : Word) : State :=
  if s.glob.status.busy then { s with glob := { s.glob with status := { s.glob.status with cmdOverrun := true } } }
  else { s with glob := { s.glob with pending := w, status := { s.glob.status with busy := true } } }

/-- The reset of R330, as a soft reset performs it: every register and the hidden state take their reset values; the
packet buffer stays (R332), and so do the parameters and the model's own fields (log entry 5). -/
def softReset (s : State) : State :=
  { State.reset with params := s.params, pb := s.pb, host := s.host, readData := s.readData, draws := s.draws }

/-- The three low bits of a word as INT_EN holds them (R22). -/
def intBitsOf (v : Word) : IntBits := ⟨v.getLsbD 0, v.getLsbD 1, v.getLsbD 2⟩

/-- A W1C write to INT_STATUS (R312). -/
def clearInts (i : IntBits) (v : Word) : IntBits :=
  ⟨i.done && !v.getLsbD 0, i.err && !v.getLsbD 1, i.sec && !v.getLsbD 2⟩

/-- A write to STATUS clears DONE, CMD_OVERRUN and ACC_ERR where bits 1, 3 and 4 are 1 (R312). -/
def clearStatus (st : Status) (v : Word) : Status :=
  { st with done := st.done && !v.getLsbD 1, cmdOverrun := st.cmdOverrun && !v.getLsbD 3,
            accErr := st.accErr && !v.getLsbD 4 }

/-- A 48-bit quantity with its LO word written. -/
def setLo48 (x : BitVec 48) (v : Word) : BitVec 48 := x.extractLsb' 32 16 ++ v

/-- A 48-bit quantity with its HI half-word written; the other bits of the word written are dropped (R21). -/
def setHi48 (x : BitVec 48) (v : Word) : BitVec 48 := v.extractLsb' 0 16 ++ x.extractLsb' 0 32

/-- CTX_CFG as written (R35). -/
def ctxCfgOf (v : Word) : CtxCfg :=
  { profile := profileOf (v.extractLsb' 0 2), dir := v.getLsbD 2, mkiEn := v.getLsbD 3, rtcpEnc := v.getLsbD 4 }

/-- The registers locked while the context is valid (RW-L, R21, R38). -/
def isLocked : BankReg → Bool
  | .ctxCfg | .winSize | .kdr | .ctxSsrc | .mki | .rocInit => true
  | _ => false

/-- A bank after an accepted write to one of its registers: read-only and reserved registers ignore it (R21). -/
def writeBankReg (b : Ctx) (r : BankReg) (v : Word) : Ctx :=
  match r with
  | .ctxCfg => { b with cfg := ctxCfgOf v }
  | .winSize => { b with winSize := v.setWidth 16 }
  | .kdr => { b with kdr := v }
  | .ctxSsrc => { b with ssrc := v }
  | .mki => { b with mki := v }
  | .rocInit => { b with rocInit := v }
  | .winBmpIdx => { b with winBmpIdx := v.setWidth 7 }
  | .mkeyStage i => { b with mkeyStg := setKeyWord b.mkeyStg i.val v }
  | .msaltStage i => { b with msaltStg := setKeyWord b.msaltStg i.val v }
  | .ctxStatus | .roc | .sL | .winTopLo | .winTopHi | .winBmpData | .candIndexLo | .candIndexHi | .candRoc
  | .candSeq | .rtcpTxIndex | .rtcpTop | .rtcpBmpData | .rtcpCand | .reserved => b

/-- A write to a register of a bank: a locked register of a valid context ignores it and sets ACC_ERR (R38). -/
def writeBank (s : State) (c : BitVec 4) (r : BankReg) (v : Word) : State :=
  if isLocked r && (s.bank c).status.valid then accessError s
  else s.setBank c (writeBankReg (s.bank c) r v)

/-- An accepted host write to a register, by its access type (R21): RW registers keep the bits of their fields, RO
and reserved ones ignore it. -/
def writeReg (s : State) (r : Reg) (v : Word) : State :=
  match r with
  | .ctrl => if v.getLsbD 0 then softReset s else s
  | .cmd => writeCmd s v
  | .status => { s with glob := { s.glob with status := clearStatus s.glob.status v } }
  | .intEn => { s with glob := { s.glob with intEn := intBitsOf v } }
  | .intStatus => { s with glob := { s.glob with intStatus := clearInts s.glob.intStatus v } }
  | .srcAddr => { s with op := { s.op with srcAddr := v } }
  | .srcLen => { s with op := { s.op with srcLen := v } }
  | .dstAddr => { s with op := { s.op with dstAddr := v } }
  | .dstCap => { s with op := { s.op with dstCap := v } }
  | .auxAddr => { s with op := { s.op with auxAddr := v } }
  | .auxLen => { s with op := { s.op with auxLen := v } }
  | .arg0 => { s with op := { s.op with arg0 := v } }
  | .arg1 => { s with op := { s.op with arg1 := v } }
  | .hdrB01 => { s with hdr := { s.hdr with b01 := v.setWidth 16 } }
  | .hdrSeq => { s with hdr := { s.hdr with seq := v.setWidth 16 } }
  | .hdrTs => { s with hdr := { s.hdr with ts := v } }
  | .hdrSsrc => { s with hdr := { s.hdr with ssrc := v } }
  | .csrc i => { s with hdr := { s.hdr with csrc := s.hdr.csrc.set i.val v i.isLt } }
  | .extProfile => { s with hdr := { s.hdr with extProfile := v.setWidth 16 } }
  | .sessSsrc => { s with sess := { s.sess with ssrc := v } }
  | .sessSeq => { s with sess := { s.sess with seq := v.setWidth 16 } }
  | .sessPt => { s with sess := { s.sess with pt := v.setWidth 7 } }
  | .sessTs => { s with sess := { s.sess with ts := v } }
  | .nowNtpMsw => { s with sess := { s.sess with nowNtpMsw := v } }
  | .nowNtpLsw => { s with sess := { s.sess with nowNtpLsw := v } }
  | .nowRtpTs => { s with sess := { s.sess with nowRtpTs := v } }
  | .rxArrival => { s with sess := { s.sess with rxArrival := v } }
  | .kdfIdxLo => { s with kdfIdx := setLo48 s.kdfIdx v }
  | .kdfIdxHi => { s with kdfIdx := setHi48 s.kdfIdx v }
  | .bank c r => writeBank s c r v
  | .id | .cmdCount | .params | .pbufSize | .resLen | .reserved | .res0 | .extLenWords | .extOff | .payloadOff
  | .payloadLen | .hdrLen | .hdrFlags | .sessTxPkts | .sessTxOctets | .rxState | .rxSsrc | .rxBaseSeq | .rxMaxSeq
  | .rxCycles | .rxReceived | .rxDuplicates | .rxReordered | .rxJitter16 | .rxLastTransit | .rxExpectedPrior
  | .rxReceivedPrior | .rxLsr | .rxLsrArrival | .rtt | .remoteLoss | .remoteExtMax | .remoteJitter | .rtcpHdr
  | .rtcpSsrc | .rtcpNtpMsw | .rtcpNtpLsw | .rtcpRtpTs | .rtcpPktCount | .rtcpOctetCount | .rtcpInfo | .srIndexLo
  | .srIndexHi | .srRoc | .srEncOff | .srEncLen | .srTagOff | .srTagLen | .srMkiOff | .srMkiLen | .srIdxOff | .srE
  | .skEnc _ | .skSalt _ | .skAuth _ | .skInfo | .skRLo | .skRHi => s

/-- The n low bytes of a word, low byte first: the buffer's byte lanes (R81). -/
def leBytes (n : Nat) (v : Word) : List Byte := (List.range n).map fun k => v.extractLsb' (8 * k) 8

/-- The host's view of n buffer bytes: PB[a+k] in bits [8k+7:8k] (R81). -/
def bufferLanes (m : Memory) (a n : Nat) : Word := u32 (bytesToNat (memBytes m a n).reverse)

/-- The data a host read returns, and the state it leaves: a read has no side effect (R87), but a rejected one
returns 0 and sets ACC_ERR (R85). -/
def hostRead (s : State) (off : Nat) (w : Width) : State :=
  match acceptedTarget s off w false with
  | none => { accessError s with readData := 0 }
  | some (.reg r) => { s with readData := readReg s r }
  | some (.buf a) => { s with readData := bufferLanes s.pb a (widthBytes w) }

/-- The state a host write leaves (R81, R85, R87). -/
def hostWrite (s : State) (off : Nat) (w : Width) (v : Word) : State :=
  match acceptedTarget s off w true with
  | none => accessError s
  | some (.reg r) => writeReg s r v
  | some (.buf a) => { s with pb := memWriteBytes s.pb a (leBytes (widthBytes w) v) }

/-- One host access (R87), the interrupt line computed again after it (R311). -/
def hostAccess (s : State) (op : HostOp) : State :=
  let t := match op with
    | .read off w => hostRead s off w
    | .write off w v => hostWrite s off w v
  { t with glob := refreshIrq t.glob }

end Sys2Proof.Machine
end

