-- ==== Sys2Proof/Machine/Turn.lean ====
section
/-! DEFINITION. Whose step is next (00_scope.md R18, 40_control.md R140, 20_memory.md R91), and a pending command
placed as though the host had just written it. -/

namespace Sys2Proof.Machine

open Sys2Proof

/-- What the next step of the machine is. -/
inductive Turn where
  /-- The engine performs the pending command. -/
  | engine
  /-- The host performs its next access; `rest` are the ones after it. -/
  | host (op : HostOp) (rest : List HostAccess)
  /-- Nothing to do: BUSY = 0 and no access to come. -/
  | idle

/-- The engine step is enabled exactly when BUSY = 1 (R140). The host's accesses come in issue order (R91); while a
command runs, the next one comes first exactly when it is marked to (R345, log entry 5). -/
def turn (s : State) : Turn :=
  match s.host with
  | [] => if s.glob.status.busy then .engine else .idle
  | a :: rest => if s.glob.status.busy && !a.whileBusy then .engine else .host a.op rest

/-- The host's next access waits for the running command. -/
def deferHost : List HostAccess → List HostAccess
  | [] => []
  | a :: rest => { a with whileBusy := false } :: rest

/-- The state with a command word accepted from the host: PENDING and BUSY as an accepted CMD write leaves them
(R140), and the engine's step next. -/
def withPending (s : State) (w : Word) : State :=
  { s with
    glob := { s.glob with pending := w, status := { s.glob.status with busy := true } }
    host := deferHost s.host }

end Sys2Proof.Machine
end

