-- ==== Sys2Proof/Machine/Step.lean ====
section
/-! DEFINITION. One step of SKFE: the engine performs the pending command, or the host performs an access
(00_scope.md R18, 40_control.md R140). -/

namespace Sys2Proof.Machine

open Sys2Proof

/-- The engine step (R140): the pending word is decoded and run; an illegal word ends in IllegalCommand (R104). -/
def engineStep (s : State) : Host.Outcome State Fault Refusal :=
  match decode s.glob.pending with
  | .ok i => exec i s
  | .error _ => runRule s (.error .illegalCommand)

/-- One step. With BUSY = 0 and no access to come, SKFE is idle and holds all its state (60_exceptions.md R318,
70_reset_and_hazards.md R333). DEDUCED: idling is a step that changes nothing (log entry 10). -/
def step (s : State) : Host.Outcome State Fault Refusal :=
  match turn s with
  | .engine => engineStep s
  | .host op rest => .next (hostAccess { s with host := rest } op)
  | .idle => .next s

/-- The state in which the very next step runs the command word `w` (bits from `nbits` on are 0): the word is in
PENDING with BUSY = 1, as an accepted host write to CMD leaves it (R140, log entry 5). -/
def State.withFetchWord (s : State) (nbits w : Nat) : State := withPending s (BitVec.ofNat 32 (w % 2 ^ nbits))

end Sys2Proof.Machine
end

