-- ==== Sys2Proof/WellFormed.lean ====
section
/-! DEFINITION. Which command words are legal, said by R104's three clauses over the fields (30_encoding.md), and
which parameter values are legal (00_scope.md R8). A term of Instr is well formed by its types: every operand has
exactly the width of its field. -/

namespace Sys2Proof

/-- Clause 1 of R104: OPC is in the table of R103. -/
def CmdFields.opcodeInMap (f : CmdFields) : Bool :=
  f.opc ∈ ([0x00, 0x01, 0x02, 0x08, 0x09, 0x0A, 0x0B, 0x10, 0x11, 0x12, 0x13, 0x20, 0x21, 0x22, 0x23,
    0x28, 0x29, 0x2A, 0x2C, 0x2D, 0x2E] : List (BitVec 8))

/-- Clause 2 of R104: word[15:12] = 0 and word[31:18] = 0. -/
def CmdFields.reservedZero (f : CmdFields) : Bool := f.resLo == 0 && f.resHi == 0

/-- CTX is used exactly by the context opcodes, which all lie in 0x20..0x2E (R100, R103). -/
def CmdFields.usesCtx (f : CmdFields) : Bool := 0x20 ≤ f.opc.toNat && f.opc.toNat ≤ 0x2E

/-- F0 is used by SESS_INIT, SESS_CREATE_PACKET, KDF and the two commits (R103). -/
def CmdFields.usesF0 (f : CmdFields) : Bool := f.opc ∈ ([0x08, 0x09, 0x23, 0x2A, 0x2E] : List (BitVec 8))

/-- F1 is used by SESS_INIT only (R103). -/
def CmdFields.usesF1 (f : CmdFields) : Bool := f.opc == 0x08

/-- Clause 3 of R104: every field the opcode does not use is 0. -/
def CmdFields.unusedZero (f : CmdFields) : Bool :=
  (f.usesCtx || f.ctx == 0) && (f.usesF0 || !f.f0) && (f.usesF1 || !f.f1)

/-- A legal word's fields (R104). -/
def CmdFields.wellFormed (f : CmdFields) : Bool := f.opcodeInMap && f.reservedZero && f.unusedZero

/-- The legal ranges of the parameters (the table of R8). -/
abbrev Params.Legal (p : Params) : Prop :=
  (1 ≤ p.nCtx ∧ p.nCtx ≤ 16) ∧ (64 ≤ p.wMax ∧ p.wMax ≤ 4096 ∧ p.wMax % 32 = 0) ∧
  (256 ≤ p.pbufSize ∧ p.pbufSize ≤ 65536 ∧ p.pbufSize % 4 = 0) ∧ (p.srtcpTag32Len = 4 ∨ p.srtcpTag32Len = 10)

end Sys2Proof
end

