-- ==== Sys2Proof/Safety.lean ====
section
/-! DEFINITION. The terms claims use: how a command ends, what it leaves unchanged, the parts of a packet as the wire
formats give them, the invariants of the machine's state, and the session state of a context. -/

namespace Sys2Proof.Machine

open Sys2Proof

/-- The state a command leaves when it raises `e`: only the completion effects (60_exceptions.md R302, R303). -/
def raised (s : State) (e : CmdError) : State := { s with glob := completeGlob s.glob (some e) }

/-- The command ends by raising `e`: nothing but the completion effects (60_exceptions.md R302, R303). -/
abbrev Raises (i : Instr) (s : State) (e : CmdError) : Prop := exec i s = .next (raised s e)

/-- The global registers after a command that finished (60_exceptions.md R302). -/
def finishedGlob (g : GlobalRegs) : GlobalRegs := completeGlob g none

/-- Every buffer byte outside `n` bytes at `a` reads as before. -/
abbrev SameBytesOutside (s t : State) (a n : Nat) : Prop := ∀ b, b < a ∨ a + n ≤ b → memByte t.pb b = memByte s.pb b

/-- Byte k of a big-endian byte string held in a bit vector, byte 0 most significant (10_state.md R34). -/
def keyByte {w : Nat} (v : BitVec w) (k : Nat) : Byte := v.extractLsb' (w - 8 * (k + 1)) 8

/-- Header length from X, CC and length_words (30_encoding.md R113). -/
def hdrLenOf (x : Bool) (cc words : Nat) : Nat := 12 + 4 * cc + (if x then 4 + 4 * words else 0)

/-- The CSRC count of the RTP packet at `base` (30_encoding.md R110). -/
def rtpCc (m : Memory) (base : Nat) : Nat := (memByte m base).toNat % 16

/-- The extension flag of the RTP packet at `base` (30_encoding.md R110). -/
def rtpX (m : Memory) (base : Nat) : Bool := (memByte m base).toNat / 16 % 2 == 1

/-- The address of the extension header of the RTP packet at `base` (30_encoding.md R112). -/
def rtpExtAddr (m : Memory) (base : Nat) : Nat := base + 12 + 4 * rtpCc m base

/-- length_words of the RTP packet at `base` (30_encoding.md R112). -/
def rtpWords (m : Memory) (base : Nat) : Nat := if rtpX m base then memRead m (rtpExtAddr m base + 2) 2 else 0

/-- The header length of the RTP packet at `base` (30_encoding.md R113). -/
def rtpHdrLen (m : Memory) (base : Nat) : Nat := hdrLenOf (rtpX m base) (rtpCc m base) (rtpWords m base)

/-- The checks of ParseRtpHeader pass for `len` bytes at `base` (41_rtp_codec.md R150). -/
abbrev RtpFits (m : Memory) (base len : Nat) : Prop :=
  12 ≤ len ∧ (memByte m base).toNat / 64 = 2 ∧ 12 + 4 * rtpCc m base ≤ len ∧
  (rtpX m base = true → 12 + 4 * rtpCc m base + 4 ≤ len) ∧ rtpHdrLen m base ≤ len

/-- The sequence number of the RTP packet at `base` (30_encoding.md R110). -/
def rtpSeq (m : Memory) (base : Nat) : BitVec 16 := BitVec.ofNat 16 (memRead m (base + 2) 2)

/-- The header-codec registers show the `len`-byte RTP packet at `base`, but for HDR_FLAGS (41_rtp_codec.md R153). -/
structure ShowsPacket (h : HeaderRegs) (m : Memory) (base len : Nat) : Prop where
  b01 : h.b01 = BitVec.ofNat 16 (memRead m base 2)
  seq : h.seq = rtpSeq m base
  ts : h.ts = memWord m (base + 4)
  ssrc : h.ssrc = memWord m (base + 8)
  csrc : ∀ i : Fin 15, h.csrc[i] = if i.val < rtpCc m base then memWord m (base + 12 + 4 * i.val) else 0
  extProfile : h.extProfile = if rtpX m base then BitVec.ofNat 16 (memRead m (rtpExtAddr m base) 2) else 0
  extLenWords : h.extLenWords = BitVec.ofNat 16 (rtpWords m base)
  extOff : h.extOff = if rtpX m base then u32 (rtpExtAddr m base + 4) else 0
  hdrLen : h.hdrLen = u32 (rtpHdrLen m base)
  payloadOff : h.payloadOff = u32 (base + rtpHdrLen m base)
  payloadLen : h.payloadLen = u32 (len - rtpHdrLen m base)

/-- X = 1 and profile 0xBEDE (41_rtp_codec.md R156). -/
def rtpOneByteExt (m : Memory) (base : Nat) : Bool := rtpX m base && memRead m (rtpExtAddr m base) 2 == 0xBEDE

/-- The version of the RTCP packet at `base` (30_encoding.md R115). -/
def rtcpVersion (m : Memory) (base : Nat) : Nat := memRead m base 4 / 2 ^ 30

/-- The count field of the RTCP packet at `base` (30_encoding.md R115). -/
def rtcpCount (m : Memory) (base : Nat) : Nat := memRead m base 4 / 2 ^ 24 % 32

/-- The packet type of the RTCP packet at `base` (30_encoding.md R115). -/
def rtcpPt (m : Memory) (base : Nat) : Nat := memRead m base 4 / 2 ^ 16 % 256

/-- The length in bytes of the RTCP packet at `base` (30_encoding.md R115). -/
def rtcpPlen (m : Memory) (base : Nat) : Nat := 4 * (memRead m base 4 % 2 ^ 16 + 1)

/-- The checks of ParseCommonHeader pass for `len` bytes at `base` (43_rtcp.md R200). -/
abbrev RtcpFits (m : Memory) (base len : Nat) : Prop := 4 ≤ len ∧ rtcpVersion m base = 2 ∧ rtcpPlen m base ≤ len

/-- The body of the RTCP packet at `base` fits its length (43_rtcp.md R201, R203). -/
abbrev RtcpBodyFits (m : Memory) (base : Nat) : Prop :=
  (rtcpPt m base = 200 → 28 + 24 * rtcpCount m base ≤ rtcpPlen m base) ∧
  (rtcpPt m base = 201 → 8 + 24 * rtcpCount m base ≤ rtcpPlen m base) ∧
  (rtcpPt m base = 203 → 4 + 4 * rtcpCount m base ≤ rtcpPlen m base)

/-- Report block `i` of the list at `p` is the first one about `ssrc` (43_rtcp.md R202). -/
abbrev FirstBlock (m : Memory) (ssrc : Word) (p i : Nat) : Prop :=
  memWord m (p + 24 * i) = ssrc ∧ ∀ j, j < i → memWord m (p + 24 * j) ≠ ssrc

/-- The statistics after the block at `b` about this session is processed (43_rtcp.md R202): lsr ≠ 0 gives a
round-trip time. -/
structure BlockTaken (m : Memory) (now : Word) (b : Nat) (before after : RxRegs) : Prop where
  remote : after.remoteLoss = memWord m (b + 4) ∧ after.remoteExtMax = memWord m (b + 8) ∧
    after.remoteJitter = memWord m (b + 12) ∧ after.state.remoteValid = true
  rtt : memWord m (b + 16) ≠ 0 →
    after.rtt = now - memWord m (b + 16) - memWord m (b + 20) ∧ after.state.rttValid = true
  noRtt : memWord m (b + 16) = 0 → after.rtt = before.rtt ∧ after.state.rttValid = before.state.rttValid
  frame : after = { before with
    remoteLoss := after.remoteLoss, remoteExtMax := after.remoteExtMax, remoteJitter := after.remoteJitter,
    rtt := after.rtt, state := { before.state with remoteValid := true, rttValid := after.state.rttValid } }

/-- STATUS.ERR is 1 exactly when ERRCODE is not 0 (10_state.md R25), and ERRCODE is one of the codes of R300. -/
abbrev StatusInv (s : State) : Prop :=
  s.glob.status.err = (s.glob.status.errcode != 0) ∧ s.glob.status.errcode.toNat ≤ 8

/-- The interrupt line shows INT_STATUS masked by INT_EN (60_exceptions.md R311). -/
abbrev IrqInv (s : State) : Prop := s.glob.irq = irqLine s.glob.intEn s.glob.intStatus

/-- The packet buffer keeps its canonical form and holds no byte outside itself (10_state.md R43). -/
abbrev BufferInv (s : State) : Prop := s.pb.wf ∧ ∀ x ∈ s.pb, x.1 < s.params.pbufSize

/-- A window is sound (45_srtp_index_replay.md R251): positions from W on are 0; while not valid it is empty; while
valid its top index is marked. -/
abbrev WindowOk (w : Window) : Prop :=
  (∀ k, w.size ≤ k → w.bmp.getLsbD k = false) ∧ (w.valid = false → w.top = 0 ∧ w.bmp = 0) ∧
  (w.valid = true → w.bmp.getLsbD 0 = true)

/-- Index `i` is one the window remembers as accepted (45_srtp_index_replay.md R251). -/
abbrev Accepted (w : Window) (i : Nat) : Prop :=
  w.valid = true ∧ i ≤ w.top ∧ w.top - i < w.size ∧ w.bmp.getLsbD (w.top - i) = true

/-- The session state of a context (44_srtp_context_kdf.md R224). -/
structure SessionState where
  roc : Word
  sL : BitVec 16
  slValid : Bool
  winValid : Bool
  rtcpWinValid : Bool
  winTop : BitVec 48
  bmp : BitVec 4096
  rtcpTop : BitVec 31
  rtcpBmp : BitVec 4096
  rtcpTxIndex : Word
  deriving DecidableEq, Repr

/-- The session state of a bank (44_srtp_context_kdf.md R224). -/
def sessionState (b : Ctx) : SessionState :=
  ⟨b.roc, b.sL, b.status.slValid, b.status.winValid, b.status.rtcpWinValid, b.winTop, b.bmp, b.rtcpTop, b.rtcpBmp,
   b.rtcpTxIndex⟩

/-- A context that is not valid has no session state and no status bit; one that is valid runs with a legal window
size, its windows are sound, and a candidate made before any sequence number was seen has the context's own ROC
(10_state.md R38, 45_srtp_index_replay.md R250, R251). -/
abbrev CtxOk (p : Params) (b : Ctx) : Prop :=
  (b.status.valid = false → sessionState b = sessionState Ctx.reset ∧ b.status = CtxStatus.zero) ∧
  (b.status.valid = true → (1 ≤ b.winSize.toNat ∧ b.winSize.toNat ≤ p.wMax) ∧
    WindowOk (srtpWindow b) ∧ WindowOk (srtcpWindow b) ∧
    (b.status.slValid = false → b.status.candValid = true → b.candRoc = b.roc))

/-- Every bank's context is sound. -/
abbrev ContextsInv (s : State) : Prop := ∀ c : BitVec 4, CtxOk s.params (s.bank c)

/-- The bank exists, its context is valid, and its direction is the given one (60_exceptions.md R305, steps 2 to
4). -/
abbrev CtxReady (s : State) (c : BitVec 4) (dir : Bool) : Prop :=
  c.toNat < s.params.nCtx ∧ (s.bank c).status.valid = true ∧ (s.bank c).cfg.dir = dir

/-- The context a command works on, if it is a context command (30_encoding.md R103). -/
def contextOf : Instr → Option (BitVec 4)
  | .ctxInit c | .ctxUpdateKey c | .ctxTeardown c | .kdf c _ | .srtpTx c | .srtpRxCheck c | .srtpRxCommit c _
  | .srtcpTx c | .srtcpRxCheck c | .srtcpRxCommit c _ => some c
  | .nop | .rtpEncode | .rtpDecode | .sessInit _ _ | .sessCreatePacket _ | .sessProcessReceived | .seqDiff
  | .rtcpCreateSr | .rtcpCreateRr | .rtcpCreateBye | .rtcpParse => none

/-- The direction an SRTP or SRTCP command needs: false for send, true for receive (60_exceptions.md R305, step 4). -/
def directionOf : Instr → Option Bool
  | .srtpTx _ | .srtcpTx _ => some false
  | .srtpRxCheck _ | .srtpRxCommit _ _ | .srtcpRxCheck _ | .srtcpRxCommit _ _ => some true
  | .nop | .rtpEncode | .rtpDecode | .sessInit _ _ | .sessCreatePacket _ | .sessProcessReceived | .seqDiff
  | .rtcpCreateSr | .rtcpCreateRr | .rtcpCreateBye | .rtcpParse | .ctxInit _ | .ctxUpdateKey _ | .ctxTeardown _
  | .kdf _ _ => none

/-- The errors a command may raise, by the last column of the table of 60_exceptions.md R300. -/
def mayRaise : Instr → List CmdError
  | .nop | .sessInit _ _ | .seqDiff => []
  | .rtpEncode | .sessCreatePacket _ | .rtcpCreateSr | .rtcpCreateRr | .rtcpCreateBye => [.invalidParam, .bufferTooSmall]
  | .rtpDecode | .sessProcessReceived | .rtcpParse => [.invalidParam, .invalidPacket]
  | .ctxInit _ | .ctxTeardown _ => [.invalidParam]
  | .ctxUpdateKey _ | .kdf _ _ => [.invalidParam, .notInitialized]
  | .srtpTx _ | .srtcpTx _ => [.invalidParam, .notInitialized, .invalidPacket, .bufferTooSmall, .keyExpired]
  | .srtpRxCheck _ => [.invalidParam, .notInitialized, .invalidPacket, .replayDetected, .keyExpired]
  | .srtcpRxCheck _ => [.invalidParam, .notInitialized, .invalidPacket, .replayDetected]
  | .srtpRxCommit _ _ | .srtcpRxCommit _ _ => [.invalidParam, .notInitialized, .authFailed, .replayDetected]

/-- The commands that may write the session state of context `c` (44_srtp_context_kdf.md R223, R226;
45_srtp_index_replay.md R259, R262, R265, R267). -/
def changesSession (c : BitVec 4) : Instr → Bool
  | .ctxInit d | .ctxTeardown d | .srtpTx d | .srtcpTx d => d == c
  | .srtpRxCommit d authOk | .srtcpRxCommit d authOk => d == c && authOk
  | .nop | .rtpEncode | .rtpDecode | .sessInit _ _ | .sessCreatePacket _ | .sessProcessReceived | .seqDiff
  | .rtcpCreateSr | .rtcpCreateRr | .rtcpCreateBye | .rtcpParse | .ctxUpdateKey _ | .kdf _ _ | .srtpRxCheck _
  | .srtcpRxCheck _ => false

/-- The next step of the machine runs a command that may write the session state of context `c`, or is a soft
reset. -/
def SessionStep (c : BitVec 4) (s : State) : Prop :=
  match turn s with
  | .engine => ∃ i, decode s.glob.pending = .ok i ∧ changesSession c i = true
  | .host (.write off .word v) _ => off = 4 ∧ v.getLsbD 0 = true
  | .host _ _ => False
  | .idle => False

/-- The middle 32 bits of an NTP timestamp (30_encoding.md R122). -/
def midNtp (msw lsw : Word) : Word := (msw <<< 16) ||| (lsw >>> 16)

/-- The time of day as the session sees it, in NTP short format (43_rtcp.md R194). -/
def sessionNow (s : State) : Word := midNtp s.sess.nowNtpMsw s.sess.nowNtpLsw

/-- The statistics after an SR is recorded: its time, and when it came (43_rtcp.md R201). -/
def withSr (rx : RxRegs) (msw lsw now : Word) : RxRegs :=
  { rx with lsr := midNtp msw lsw, lsrArrival := now, state := { rx.state with lsrValid := true } }

/-- What a parsed report's blocks do: the first of `count` blocks at `p` about this session is taken, or none is
(43_rtcp.md R202). `forUs` is RTCP_INFO.BLOCK_FOR_US. -/
abbrev BlocksProcessed (s : State) (p count : Nat) (before after : RxRegs) (forUs : Bool) : Prop :=
  (∃ i, i < count ∧ FirstBlock s.pb s.sess.ssrc p i ∧ forUs = true ∧
    BlockTaken s.pb (sessionNow s) (p + 24 * i) before after) ∨
  ((∀ i, i < count → memWord s.pb (p + 24 * i) ≠ s.sess.ssrc) ∧ forUs = false ∧ after = before)

/-- Extended highest sequence number (43_rtcp.md R191). -/
def extHighest (rx : RxRegs) : Word := (rx.cycles.setWidth 32 <<< 16) ||| rx.maxSeq.setWidth 32

/-- Packets expected since the statistics began (43_rtcp.md R191). -/
def packetsExpected (rx : RxRegs) : Word := extHighest rx - rx.baseSeq.setWidth 32 + 1

/-- The 24-byte report block at `b` tells the statistics of `s` (43_rtcp.md R191 to R194). -/
structure ShowsBlock (m : Memory) (b : Nat) (s : State) : Prop where
  ssrc : memWord m b = s.rx.ssrc
  fraction : ∀ expInt lostInt : Int, expInt = (packetsExpected s.rx - s.rx.expectedPrior).toInt →
    lostInt = expInt - (s.rx.received - s.rx.receivedPrior).toInt →
    ((memByte m (b + 4)).toNat : Int) = if 0 < expInt ∧ 0 < lostInt then min 255 (lostInt * 256 / expInt) else 0
  lost : BitVec.ofNat 24 (memRead m (b + 5) 3) = BitVec.ofInt 24
    (max (-2 ^ 23) (min (2 ^ 23 - 1) ((packetsExpected s.rx).toNat - s.rx.received.toNat : Int)))
  highest : memWord m (b + 8) = extHighest s.rx
  jitter : memWord m (b + 12) = s.rx.jitter16 >>> 4
  lsr : memWord m (b + 16) = if s.rx.state.lsrValid then s.rx.lsr else 0
  dlsr : memWord m (b + 20) = if s.rx.state.lsrValid then sessionNow s - s.rx.lsrArrival else 0

/-- The statistics after a report is built: a block that was written starts a new interval (43_rtcp.md R191). -/
def intervalStarted (rx : RxRegs) : RxRegs :=
  if rx.state.rxValid then { rx with expectedPrior := packetsExpected rx, receivedPrior := rx.received } else rx

/-- The four bytes of an RTCP common header with V = 2 and P = 0 (30_encoding.md R115). -/
structure ShowsCommon (m : Memory) (d count pt lenWords : Nat) : Prop where
  flags : (memByte m d).toNat = 128 + count
  pt : (memByte m (d + 1)).toNat = pt
  length : memRead m (d + 2) 2 = lenWords

/-- Byte k of PRF(c, label, r, ·): AES in counter mode from x · 2^16 under the first klen bytes of the master key
(44_srtp_context_kdf.md R229, R230). -/
def prfByte (b : Ctx) (klen label : Nat) (r : BitVec 48) (k : Nat) : Byte :=
  let x : BitVec 112 := b.msaltAct ^^^ ((BitVec.ofNat 112 label <<< 48) ||| r.setWidth 112)
  (aesEnc ((List.range klen).map (keyByte b.mkeyAct)) ((x.setWidth 128 <<< 16) + BitVec.ofNat 128 (k / 16))).getD
    (k % 16) 0

/-- The SK registers show the session keys of bank `b` for labels `lb` to `lb + 2` and the given r
(44_srtp_context_kdf.md R231, 10_state.md R34). -/
structure ShowsKeys (p : Params) (b : Ctx) (c : BitVec 4) (rtcp : Bool) (r : BitVec 48) (sk : SkRegs) : Prop where
  enc : ∀ k, k < 32 → keyByte sk.enc k = if k < (profileLens p b.cfg.profile).elen then
    prfByte b (profileLens p b.cfg.profile).klen (if rtcp then 3 else 0) r k else 0
  auth : ∀ k, k < 20 → keyByte sk.auth k = if k < (profileLens p b.cfg.profile).alen then
    prfByte b (profileLens p b.cfg.profile).klen (if rtcp then 4 else 1) r k else 0
  salt : ∀ k, k < 16 → keyByte sk.salt k = if k < (profileLens p b.cfg.profile).sslen then
    prfByte b (profileLens p b.cfg.profile).klen (if rtcp then 5 else 2) r k else 0
  info : sk.info = ⟨true, rtcp, c, BitVec.ofNat 8 (profileLens p b.cfg.profile).elen,
    BitVec.ofNat 8 (profileLens p b.cfg.profile).sslen, BitVec.ofNat 8 (profileLens p b.cfg.profile).alen⟩
  r : sk.r = r

/-- A master key and salt as CTX_INIT and CTX_UPDATE_KEY load them from the staged bytes
(44_srtp_context_kdf.md R223, R225). -/
structure KeysLoaded (p : Params) (before after : Ctx) : Prop where
  key : ∀ k, k < 32 → keyByte after.mkeyAct k =
    if k < (profileLens p before.cfg.profile).klen then keyByte before.mkeyStg k else 0
  salt : ∀ k, k < 14 → keyByte after.msaltAct k =
    if k < (profileLens p before.cfg.profile).slen then keyByte before.msaltStg k else 0

/-- The mapped register offsets below the banks (20_memory.md R84, the tables of 10_state.md). -/
def mappedRegister (off : Nat) : Bool :=
  off % 4 == 0 && (decide (off ≤ 0x020) || (decide (0x040 ≤ off) && decide (off ≤ 0x068)) ||
    (decide (0x080 ≤ off) && decide (off ≤ 0x0E4)) || (decide (0x100 ≤ off) && decide (off ≤ 0x16C)) ||
    (decide (0x180 ≤ off) && decide (off ≤ 0x19C)) || (decide (0x200 ≤ off) && decide (off ≤ 0x228)) ||
    (decide (0x230 ≤ off) && decide (off ≤ 0x234)) || (decide (0x240 ≤ off) && decide (off ≤ 0x28C)))

/-- The status group's offsets (20_memory.md R85). -/
def statusGroupOffset (off : Nat) : Bool :=
  off ∈ ([0x000, 0x004, 0x00C, 0x010, 0x014, 0x018, 0x01C, 0x020] : List Nat)

/-- The interface rejects an access (20_memory.md R83 to R85): unmapped, of a wrong width or alignment, or made while
BUSY = 1 outside the status group. A CMD write while BUSY = 1 is not rejected. -/
def rejects (s : State) (off : Nat) (w : Width) (isWrite : Bool) : Bool :=
  if off < 0x10000 then
    w != .word || off % 4 != 0 ||
      !(mappedRegister off || (decide (0x400 ≤ off) && decide (off < 0x400 + 0x100 * s.params.nCtx))) ||
      (s.glob.status.busy && !(statusGroupOffset off || (isWrite && off == 8)))
  else
    w == .other || off % widthBytes w != 0 || decide (0x10000 + s.params.pbufSize < off + widthBytes w) || s.glob.status.busy

/-- The RW registers below the banks, with the width of their field (10_state.md R22, R27, R28, R30, R34). -/
def rwRegisters : List (Nat × Nat) :=
  [(0x010, 3), (0x040, 32), (0x044, 32), (0x048, 32), (0x04C, 32), (0x050, 32), (0x054, 32), (0x060, 32), (0x064, 32),
   (0x080, 16), (0x084, 16), (0x088, 32), (0x08C, 32)] ++ (List.range 15).map (fun i => (0x090 + 4 * i, 32)) ++
  [(0x0CC, 16), (0x100, 32), (0x104, 16), (0x108, 7), (0x10C, 32), (0x118, 32), (0x11C, 32), (0x120, 32), (0x124, 32),
   (0x230, 32), (0x234, 16)]

/-- `n` consecutive word offsets from `off` on. -/
def offsetsFrom (off n : Nat) : List Nat := (List.range n).map (fun i => off + 4 * i)

/-- The RO and reserved registers below the banks (10_state.md R22, R27, R28, R30 to R34). -/
def roRegisters : List Nat :=
  [0x000, 0x018, 0x01C, 0x020, 0x058, 0x05C, 0x068] ++ offsetsFrom 0x0D0 6 ++ [0x110, 0x114] ++ offsetsFrom 0x128 18 ++
  offsetsFrom 0x180 8 ++ offsetsFrom 0x200 11 ++ offsetsFrom 0x240 20

/-- The RO and reserved registers of a bank (10_state.md R35). -/
def roBankRegisters : List Nat := [0x04, 0x1C, 0x20, 0x24, 0x28] ++ offsetsFrom 0x30 12 ++ offsetsFrom 0x90 28

/-- The registers of a bank that are locked while the context is valid, with the width of their field (10_state.md
R35, R38). -/
def lockedRegisters : List (Nat × Nat) := [(0x00, 5), (0x08, 16), (0x0C, 32), (0x10, 32), (0x14, 32), (0x18, 32)]

/-- The number CTX_CFG.PROFILE gives a profile (10_state.md R36). -/
def profileNumber : Profile → Nat
  | .aesCm128Sha80 => 0
  | .aesCm128Sha32 => 1
  | .aeadAes128Gcm => 2
  | .aeadAes256Gcm => 3

/-- The profile CTX_CFG.PROFILE = n selects, for n < 4 (10_state.md R36). -/
def profileNumbered : Nat → Profile
  | 0 => .aesCm128Sha80
  | 1 => .aesCm128Sha32
  | 2 => .aeadAes128Gcm
  | _ => .aeadAes256Gcm

/-- The bank `b` after `v` is written to the field of the locked register at bank offset `off`, and nothing else
(10_state.md R35, R36). -/
def withLockedField (off : Nat) (v : Word) (b : Ctx) : Ctx :=
  match off with
  | 0x00 => { b with cfg := ⟨profileNumbered (v.toNat % 4), v.getLsbD 2, v.getLsbD 3, v.getLsbD 4⟩ }
  | 0x08 => { b with winSize := BitVec.ofNat 16 v.toNat }
  | 0x0C => { b with kdr := v }
  | 0x10 => { b with ssrc := v }
  | 0x14 => { b with mki := v }
  | 0x18 => { b with rocInit := v }
  | _ => b

/-- The state after `v` is written to the field of the RW register at `off` below the banks, and nothing else
(10_state.md R22, R27, R28, R30, R34). The last case is the CSRC list. -/
def withRegister (off : Nat) (v : Word) (s : State) : State :=
  match off with
  | 0x010 => { s with glob := { s.glob with intEn := ⟨v.getLsbD 0, v.getLsbD 1, v.getLsbD 2⟩ } }
  | 0x040 => { s with op := { s.op with srcAddr := v } }
  | 0x044 => { s with op := { s.op with srcLen := v } }
  | 0x048 => { s with op := { s.op with dstAddr := v } }
  | 0x04C => { s with op := { s.op with dstCap := v } }
  | 0x050 => { s with op := { s.op with auxAddr := v } }
  | 0x054 => { s with op := { s.op with auxLen := v } }
  | 0x060 => { s with op := { s.op with arg0 := v } }
  | 0x064 => { s with op := { s.op with arg1 := v } }
  | 0x080 => { s with hdr := { s.hdr with b01 := BitVec.ofNat 16 v.toNat } }
  | 0x084 => { s with hdr := { s.hdr with seq := BitVec.ofNat 16 v.toNat } }
  | 0x088 => { s with hdr := { s.hdr with ts := v } }
  | 0x08C => { s with hdr := { s.hdr with ssrc := v } }
  | 0x0CC => { s with hdr := { s.hdr with extProfile := BitVec.ofNat 16 v.toNat } }
  | 0x100 => { s with sess := { s.sess with ssrc := v } }
  | 0x104 => { s with sess := { s.sess with seq := BitVec.ofNat 16 v.toNat } }
  | 0x108 => { s with sess := { s.sess with pt := BitVec.ofNat 7 v.toNat } }
  | 0x10C => { s with sess := { s.sess with ts := v } }
  | 0x118 => { s with sess := { s.sess with nowNtpMsw := v } }
  | 0x11C => { s with sess := { s.sess with nowNtpLsw := v } }
  | 0x120 => { s with sess := { s.sess with nowRtpTs := v } }
  | 0x124 => { s with sess := { s.sess with rxArrival := v } }
  | 0x230 => { s with kdfIdx := BitVec.ofNat 48 (s.kdfIdx.toNat / 2 ^ 32 * 2 ^ 32 + v.toNat) }
  | 0x234 => { s with kdfIdx := BitVec.ofNat 48 (v.toNat % 2 ^ 16 * 2 ^ 32 + s.kdfIdx.toNat % 2 ^ 32) }
  | _ => { s with hdr := { s.hdr with
      csrc := Vector.ofFn (fun i : Fin 15 => if off = 0x090 + 4 * i.val then v else s.hdr.csrc[i]) } }

/-- A register word with the given fields, each its lowest bit, its width and its value; every other bit is 0
(10_state.md R21). -/
def packed (fields : List (Nat × Nat × Nat)) : Word :=
  BitVec.ofNat 32 (fields.map fun f => f.2.2 % 2 ^ f.2.1 * 2 ^ f.1).sum

/-- Word i of packed key material: byte 4i in bits 31 to 24 down to byte 4i + 3 in bits 7 to 0 (10_state.md R34). -/
def packedKeyWord {w : Nat} (v : BitVec w) (i : Nat) : Word :=
  packed [(0, 8, (keyByte v (4 * i + 3)).toNat), (8, 8, (keyByte v (4 * i + 2)).toNat),
    (16, 8, (keyByte v (4 * i + 1)).toNat), (24, 8, (keyByte v (4 * i)).toNat)]

/-- The global control registers as the host reads them (10_state.md R22, R25). -/
def globalWords (s : State) : List (Nat × Word) :=
  [(0x000, 0x534B0001), (0x004, 0), (0x008, 0),
   (0x00C, packed [(0, 1, s.glob.status.busy.toNat), (1, 1, s.glob.status.done.toNat),
     (2, 1, s.glob.status.err.toNat), (3, 1, s.glob.status.cmdOverrun.toNat), (4, 1, s.glob.status.accErr.toNat),
     (8, 8, s.glob.status.errcode.toNat)]),
   (0x010, packed [(0, 1, s.glob.intEn.done.toNat), (1, 1, s.glob.intEn.err.toNat), (2, 1, s.glob.intEn.sec.toNat)]),
   (0x014, packed [(0, 1, s.glob.intStatus.done.toNat), (1, 1, s.glob.intStatus.err.toNat),
     (2, 1, s.glob.intStatus.sec.toNat)]),
   (0x018, s.glob.cmdCount),
   (0x01C, packed [(0, 8, s.params.nCtx), (8, 13, s.params.wMax), (21, 1, s.params.mkiBeforeTag.toNat),
     (24, 8, s.params.srtcpTag32Len)]),
   (0x020, packed [(0, 32, s.params.pbufSize)])]

/-- The operand registers as the host reads them (10_state.md R27). -/
def operandWords (o : OperandRegs) : List (Nat × Word) :=
  [(0x040, o.srcAddr), (0x044, o.srcLen), (0x048, o.dstAddr), (0x04C, o.dstCap), (0x050, o.auxAddr), (0x054, o.auxLen),
   (0x058, o.resLen), (0x05C, 0), (0x060, o.arg0), (0x064, o.arg1), (0x068, o.res0)]

/-- The header-codec registers as the host reads them (10_state.md R28, R29). -/
def headerWords (h : HeaderRegs) : List (Nat × Word) :=
  [(0x080, packed [(0, 16, h.b01.toNat)]), (0x084, packed [(0, 16, h.seq.toNat)]), (0x088, h.ts), (0x08C, h.ssrc)] ++
  (List.finRange 15).map (fun i => (0x090 + 4 * i.val, h.csrc[i])) ++
  [(0x0CC, packed [(0, 16, h.extProfile.toNat)]), (0x0D0, packed [(0, 16, h.extLenWords.toNat)]), (0x0D4, h.extOff),
   (0x0D8, h.payloadOff), (0x0DC, h.payloadLen), (0x0E0, h.hdrLen),
   (0x0E4, packed [(0, 1, h.flags.extOneByte.toNat), (1, 1, h.flags.foreignSsrc.toNat), (2, 1, h.flags.duplicate.toNat),
     (3, 1, h.flags.reordered.toNat), (4, 1, h.flags.first.toNat)])]

/-- The session and send-side registers as the host reads them (10_state.md R30). -/
def sessionWords (r : SessionRegs) : List (Nat × Word) :=
  [(0x100, r.ssrc), (0x104, packed [(0, 16, r.seq.toNat)]), (0x108, packed [(0, 7, r.pt.toNat)]), (0x10C, r.ts),
   (0x110, r.txPkts), (0x114, r.txOctets), (0x118, r.nowNtpMsw), (0x11C, r.nowNtpLsw), (0x120, r.nowRtpTs),
   (0x124, r.rxArrival)]

/-- The receive-statistics registers as the host reads them (10_state.md R31). -/
def rxWords (r : RxRegs) : List (Nat × Word) :=
  [(0x128, packed [(0, 1, r.state.rxValid.toNat), (1, 1, r.state.lsrValid.toNat), (2, 1, r.state.rttValid.toNat),
     (3, 1, r.state.remoteValid.toNat)]),
   (0x12C, r.ssrc), (0x130, packed [(0, 16, r.baseSeq.toNat)]), (0x134, packed [(0, 16, r.maxSeq.toNat)]),
   (0x138, packed [(0, 16, r.cycles.toNat)]), (0x13C, r.received), (0x140, r.duplicates), (0x144, r.reordered),
   (0x148, r.jitter16), (0x14C, r.lastTransit), (0x150, r.expectedPrior), (0x154, r.receivedPrior), (0x158, r.lsr),
   (0x15C, r.lsrArrival), (0x160, r.rtt), (0x164, r.remoteLoss), (0x168, r.remoteExtMax), (0x16C, r.remoteJitter)]

/-- The RTCP parse registers as the host reads them (10_state.md R32). -/
def rtcpWords (r : RtcpRegs) : List (Nat × Word) :=
  [(0x180, r.hdr), (0x184, r.ssrc), (0x188, r.ntpMsw), (0x18C, r.ntpLsw), (0x190, r.rtpTs), (0x194, r.pktCount),
   (0x198, r.octetCount),
   (0x19C, packed [(0, 5, r.info.blocks.toNat), (8, 1, r.info.blockForUs.toNat), (9, 1, r.info.unknownPt.toNat)])]

/-- The SRTP result registers as the host reads them (10_state.md R33). -/
def srWords (r : SrRegs) : List (Nat × Word) :=
  [(0x200, packed [(0, 32, r.index.toNat)]), (0x204, packed [(0, 16, r.index.toNat / 2 ^ 32)]), (0x208, r.roc),
   (0x20C, r.encOff), (0x210, r.encLen), (0x214, r.tagOff), (0x218, r.tagLen), (0x21C, r.mkiOff), (0x220, r.mkiLen),
   (0x224, r.idxOff), (0x228, packed [(0, 1, r.e.toNat)])]

/-- The KDF argument and the session-key registers as the host reads them (10_state.md R34). -/
def skWords (kdfIdx : BitVec 48) (r : SkRegs) : List (Nat × Word) :=
  [(0x230, packed [(0, 32, kdfIdx.toNat)]), (0x234, packed [(0, 16, kdfIdx.toNat / 2 ^ 32)])] ++
  (List.range 8).map (fun i => (0x240 + 4 * i, packedKeyWord r.enc i)) ++
  (List.range 4).map (fun i => (0x260 + 4 * i, packedKeyWord r.salt i)) ++
  (List.range 5).map (fun i => (0x270 + 4 * i, packedKeyWord r.auth i)) ++
  [(0x284, packed [(0, 1, r.info.valid.toNat), (1, 1, r.info.rtcp.toNat), (4, 4, r.info.ctx.toNat),
     (8, 8, r.info.encLen.toNat), (16, 8, r.info.saltLen.toNat), (24, 8, r.info.authLen.toNat)]),
   (0x288, packed [(0, 32, r.r.toNat)]), (0x28C, packed [(0, 16, r.r.toNat / 2 ^ 32)])]

/-- Every mapped offset below the banks, with the word a host read of it returns (10_state.md R22, R25, R27 to R34). -/
def registerWords (s : State) : List (Nat × Word) :=
  globalWords s ++ operandWords s.op ++ headerWords s.hdr ++ sessionWords s.sess ++ rxWords s.rx ++ rtcpWords s.rtcp ++
  srWords s.sr ++ skWords s.kdfIdx s.sk

/-- Every offset of a bank, with the word a host read of it returns (10_state.md R35 to R37, R39), but for the two
bitmap words (R40). -/
def bankWords (b : Ctx) : List (Nat × Word) :=
  [(0x00, packed [(0, 2, profileNumber b.cfg.profile), (2, 1, b.cfg.dir.toNat), (3, 1, b.cfg.mkiEn.toNat),
     (4, 1, b.cfg.rtcpEnc.toNat)]),
   (0x04, packed [(0, 1, b.status.valid.toNat), (1, 1, b.status.slValid.toNat), (2, 1, b.status.winValid.toNat),
     (3, 1, b.status.candValid.toNat), (4, 1, b.status.rtcpWinValid.toNat), (5, 1, b.status.rtcpCandValid.toNat)]),
   (0x08, packed [(0, 16, b.winSize.toNat)]), (0x0C, b.kdr), (0x10, b.ssrc), (0x14, b.mki), (0x18, b.rocInit),
   (0x1C, b.roc), (0x20, packed [(0, 16, b.sL.toNat)]), (0x24, packed [(0, 32, b.winTop.toNat)]),
   (0x28, packed [(0, 16, b.winTop.toNat / 2 ^ 32)]), (0x2C, packed [(0, 7, b.winBmpIdx.toNat)]),
   (0x34, packed [(0, 32, b.candIndex.toNat)]), (0x38, packed [(0, 16, b.candIndex.toNat / 2 ^ 32)]),
   (0x3C, b.candRoc), (0x40, packed [(0, 16, b.candSeq.toNat)]), (0x44, b.rtcpTxIndex),
   (0x48, packed [(0, 31, b.rtcpTop.toNat)]), (0x50, b.rtcpCand)] ++
  (offsetsFrom 0x54 15 ++ offsetsFrom 0x90 28).map (fun off => (off, 0))

/-- A register below the banks is open to the host: BUSY = 0, or its offset is in the status group (20_memory.md
R85). -/
abbrev OpenNow (s : State) (off : Nat) : Prop := s.glob.status.busy = false ∨ statusGroupOffset off = true

/-- The offset of a register of bank `c` (10_state.md R35). -/
def bankOffset (c : BitVec 4) (off : Nat) : Nat := 0x400 + 0x100 * c.toNat + off

/-- The low `n` bits of a word. -/
def lowBits (n : Nat) (v : Word) : Word := BitVec.ofNat 32 (v.toNat % 2 ^ n)

/-- The state with the interrupt line computed again, and nothing else (60_exceptions.md R311). -/
def withIrq (s : State) : State :=
  { s with glob := { s.glob with irq := irqLine s.glob.intEn s.glob.intStatus } }

end Sys2Proof.Machine
end

