-- ==== Sys2Proof/Certificates/Slice0/Obligations.lean ====
section
/-! DEFINITION. The statements for the provers, from the numbered rules of spec/. -/

open Sys2Proof Sys2Proof.Machine

/-- Decoding and encoding agree in both directions: the word of any command, with every operand at every value, decodes
to that command, and a word that decodes is the word of its command (R100, R103, R104). -/
def Obligations.DecodeEncodeAgree : Prop :=
  (∀ i : Instr, decode (encode i) = .ok i) ∧ ∀ (w : Word) (i : Instr), decode w = .ok i → encode i = w

/-- Legal words: the decoder accepts a word exactly when R104's three clauses hold of its fields, and a pending word
that is not legal ends in IllegalCommand and changes nothing else (R104). -/
def Obligations.LegalWords : Prop :=
  (∀ w : Word, (∃ i, decode w = .ok i) ↔ (CmdFields.ofWord w).wellFormed = true) ∧
  (∀ s : State, (CmdFields.ofWord s.glob.pending).wellFormed = false →
    engineStep s = .next (raised s .illegalCommand))

/-- Words of R106 and of the vectors V1.1 to V1.15 decode, or do not, as the spec says. -/
def Obligations.SpecWordsDecode : Prop :=
  decode 0x00000000#32 = .ok .nop ∧ decode 0x00030008#32 = .ok (.sessInit true true) ∧
  decode 0x00010009#32 = .ok (.sessCreatePacket true) ∧ decode 0x00000013#32 = .ok .rtcpParse ∧
  decode 0x00000F20#32 = .ok (.ctxInit 15) ∧ decode 0x00010023#32 = .ok (.kdf 0 true) ∧
  decode 0x0001012A#32 = .ok (.srtpRxCommit 1 true) ∧ decode 0x0000012A#32 = .ok (.srtpRxCommit 1 false) ∧
  decode 0x0000012D#32 = .ok (.srtcpRxCheck 1) ∧ decode 0x00000003#32 = .error .reservedOpcode ∧
  decode 0x00000024#32 = .error .reservedOpcode ∧ decode 0xFFFFFFFF#32 = .error .reservedOpcode ∧
  decode 0x00000101#32 = .error .nonzeroField ∧ decode 0x00001020#32 = .error .nonzeroField ∧
  decode 0x00040028#32 = .error .nonzeroField ∧ decode 0x00010028#32 = .error .nonzeroField ∧
  decode 0x00020023#32 = .error .nonzeroField ∧ decode 0x00020009#32 = .error .nonzeroField

/-- With a command pending, and no host access that comes before it, one step is exactly the meaning of the command
its word decodes to: the step adds nothing around it (R140). That a host access to come may wait for the command is the model's
choice of input (log entry 5). -/
def Obligations.StepRunsDecodedCommand : Prop :=
  ∀ (s : State) (i : Instr), s.glob.status.busy = true →
    (s.host = [] ∨ ∃ a rest, s.host = a :: rest ∧ a.whileBusy = false) →
    decode s.glob.pending = .ok i → step s = exec i s

/-- The other steps: with BUSY = 0 and no access to come the machine holds all its state; a host access that is due is
performed, and the ones after it stay in issue order (R18, R91, R318). The list of accesses is the model's choice of
input (log entry 5), and the idle step is its reading of R318 (log entry 10). -/
def Obligations.IdleAndHostSteps : Prop :=
  (∀ s : State, s.glob.status.busy = false → s.host = [] → step s = .next s) ∧
  (∀ (s : State) (a : HostAccess) (rest : List HostAccess), s.host = a :: rest →
    (s.glob.status.busy = false ∨ a.whileBusy = true) → step s = .next (hostAccess { s with host := rest } a.op))

/-- Every engine step completes the pending command with exactly the effects of R302 on the global registers, whatever
the command and its outcome. -/
def Obligations.CompletionEffects : Prop :=
  ∀ s : State, ∃ (t : State) (code : BitVec 8), engineStep s = .next t ∧ code.toNat ≤ 8 ∧
    t.glob =
      { status := { s.glob.status with busy := false, done := true, err := code != 0, errcode := code }
        intEn := s.glob.intEn
        intStatus := ⟨true, s.glob.intStatus.err || decide (code ∈ ([1, 2, 6, 7, 8] : List (BitVec 8))),
          s.glob.intStatus.sec || decide (code ∈ ([3, 4, 5] : List (BitVec 8)))⟩
        cmdCount := s.glob.cmdCount + 1
        pending := s.glob.pending
        irq := irqLine s.glob.intEn t.glob.intStatus }

/-- A command that raises leaves every register, every bank, the hidden state and the buffer as they were, but for what
R302 writes: STATUS, INT_STATUS, CMD_COUNT and the interrupt line (R303). -/
def Obligations.RaisingChangesNothingElse : Prop :=
  ∀ (s t : State) (code : BitVec 8), engineStep s = .next t → code = t.glob.status.errcode → code ≠ 0 →
    t = { s with glob :=
      { s.glob with
        status := { s.glob.status with busy := false, done := true, err := true, errcode := code }
        intStatus := ⟨true, s.glob.intStatus.err || decide (code ∈ ([1, 2, 6, 7, 8] : List (BitVec 8))),
          s.glob.intStatus.sec || decide (code ∈ ([3, 4, 5] : List (BitVec 8)))⟩
        cmdCount := s.glob.cmdCount + 1, irq := irqLine s.glob.intEn t.glob.intStatus } }

/-- Each error is raised only by the commands R300's table lists for it. -/
def Obligations.ErrorSources : Prop := ∀ (i : Instr) (s : State) (e : CmdError), Raises i s e → e ∈ mayRaise i

/-- The first checks of every context command, in the order of R305: the bank, the context's validity, the direction. -/
def Obligations.ContextCheckOrder : Prop :=
  ∀ (s : State) (i : Instr) (c : BitVec 4), contextOf i = some c →
    (s.params.nCtx ≤ c.toNat → Raises i s .invalidParam) ∧
    (c.toNat < s.params.nCtx → (s.bank c).status.valid = false → i ≠ .ctxInit c → i ≠ .ctxTeardown c →
      Raises i s .notInitialized) ∧
    (c.toNat < s.params.nCtx → (s.bank c).status.valid = true → i = .ctxInit c → Raises i s .invalidParam) ∧
    (c.toNat < s.params.nCtx → (s.bank c).status.valid = true →
      ∀ d, directionOf i = some d → (s.bank c).cfg.dir ≠ d → Raises i s .invalidParam)

/-- Every step keeps STATUS.ERR and ERRCODE in agreement and the interrupt line at INT_STATUS masked by INT_EN, and no
step changes a parameter (R25, R311, R8). -/
def Obligations.StepKeepsStatusIrqParams : Prop :=
  ∀ s t : State, step s = .next t → (StatusInv s → StatusInv t) ∧ (IrqInv s → IrqInv t) ∧ t.params = s.params

/-- Every step keeps the packet buffer canonical and inside PBUF_SIZE: no command and no host access writes outside it
(R43, R86). -/
def Obligations.StepKeepsBuffer : Prop := ∀ s t : State, BufferInv s → step s = .next t → BufferInv t

/-- Every step keeps every context sound: no state of an invalid context, a legal window size while valid, empty
windows while not valid, no bit at or above W, the top index marked (R38, R251). -/
def Obligations.StepKeepsContexts : Prop := ∀ s t : State, ContextsInv s → step s = .next t → ContextsInv t

/-- The reset state meets the invariants, and its parameters are legal. -/
def Obligations.ResetMeetsInvariants : Prop :=
  StatusInv State.reset ∧ IrqInv State.reset ∧ BufferInv State.reset ∧ ContextsInv State.reset ∧
    State.reset.params.Legal

/-- What reset leaves (R330): every register reads its reset value (ID, PARAMS and PBUF_SIZE theirs, WIN_SIZE 64, all
others 0), the hidden keys and bitmaps are 0, no command is pending, and the line is low. PARAMS and PBUF_SIZE show the
parameters at the reference values, the model's choice (log entry 1); that no buffer byte has a cell is how it holds
unspecified bytes (log entry 2). -/
def Obligations.ResetValues : Prop :=
  (∀ r : Reg, readReg State.reset r = match r with
    | .id => 0x534B0001
    | .params => 0x0A040002
    | .pbufSize => 4096
    | .bank _ .winSize => 64
    | _ => 0) ∧
  (∀ c : BitVec 4, (State.reset.bank c).mkeyAct = 0 ∧ (State.reset.bank c).msaltAct = 0 ∧
    (State.reset.bank c).mkeyStg = 0 ∧ (State.reset.bank c).msaltStg = 0 ∧ (State.reset.bank c).bmp = 0 ∧
    (State.reset.bank c).rtcpBmp = 0) ∧
  State.reset.glob.pending = 0 ∧ State.reset.glob.status.busy = false ∧ State.reset.glob.irq = false ∧
  State.reset.pb = []

/-- A host write to CMD: with BUSY = 0 the word is latched and BUSY set; with BUSY = 1 it is ignored and only
CMD_OVERRUN is set (R140, R306). -/
def Obligations.HostCmdWrite : Prop :=
  ∀ (s : State) (w : Word),
    (s.glob.status.busy = false → hostAccess s (.write 0x008 .word w) =
      withIrq { s with glob := { s.glob with pending := w, status := { s.glob.status with busy := true } } }) ∧
    (s.glob.status.busy = true → hostAccess s (.write 0x008 .word w) =
      withIrq { s with glob := { s.glob with status := { s.glob.status with cmdOverrun := true } } })

/-- A rejected access, among them every access of a width other than 8, 16 and 32 bits, sets ACC_ERR, a rejected read returns 0 and a rejected write changes nothing; an accepted read
changes nothing but the data it returns (R83 to R87, R307), which for the buffer is its bytes (R81) and for a register
the word of its table (RegisterAccessTypes). That a CMD write of a wrong width made while BUSY = 1 is
rejected (log entry 12), that a CMD read while BUSY = 1 is (log entry 13), and where the data returned is held (log
entry 6) are the model's reading. -/
def Obligations.HostRejection : Prop :=
  ∀ (s : State) (off : Nat) (w : Width) (v : Word), s.params.Legal →
    (rejects s off w false = true → hostAccess s (.read off w) =
      withIrq { s with readData := 0, glob := { s.glob with status := { s.glob.status with accErr := true } } }) ∧
    (rejects s off w true = true → hostAccess s (.write off w v) =
      withIrq { s with glob := { s.glob with status := { s.glob.status with accErr := true } } }) ∧
    (rejects s off w false = false → hostAccess s (.read off w) =
      withIrq { s with readData := (hostAccess s (.read off w)).readData }) ∧
    (rejects s off w false = false → 0x10000 ≤ off → ∀ k, k < widthBytes w →
      (hostAccess s (.read off w)).readData.extractLsb' (8 * k) 8 = memByte s.pb (off - 0x10000 + k))

/-- Soft reset (R331): a write to CTRL with bit 0 = 1 resets every register and the hidden state even while BUSY = 1,
keeps the buffer (R332) and the parameters, and leaves the model's own fields (log entry 5); with bit 0 = 0 it does
nothing. -/
def Obligations.SoftReset : Prop :=
  ∀ (s : State) (v : Word),
    (v.getLsbD 0 = true → hostAccess s (.write 0x004 .word v) =
      { State.reset with
        params := s.params, pb := s.pb, host := s.host, readData := s.readData, draws := s.draws }) ∧
    (v.getLsbD 0 = false → hostAccess s (.write 0x004 .word v) = withIrq s)

/-- W1C (R312): a write to INT_STATUS or STATUS clears exactly the writable bits that are 1 in it, also while
BUSY = 1. -/
def Obligations.WriteOneToClear : Prop :=
  ∀ (s : State) (v : Word),
    hostAccess s (.write 0x014 .word v) = withIrq { s with glob := { s.glob with intStatus :=
      ⟨s.glob.intStatus.done && !v.getLsbD 0, s.glob.intStatus.err && !v.getLsbD 1,
       s.glob.intStatus.sec && !v.getLsbD 2⟩ } } ∧
    hostAccess s (.write 0x00C .word v) = withIrq { s with glob := { s.glob with status :=
      { s.glob.status with
        done := s.glob.status.done && !v.getLsbD 1, cmdOverrun := s.glob.status.cmdOverrun && !v.getLsbD 3
        accErr := s.glob.status.accErr && !v.getLsbD 4 } } }

/-- Locked registers (R38, R21): while the context is valid a write is ignored and sets ACC_ERR; while it is not, the
register's field takes the value its row gives (R35; CTX_CFG[1:0] the profile of R36, [2] DIR, [3] MKI_EN, [4]
RTCP_ENC), it reads back the bits of its field, and neither another field of its bank nor anything outside the bank
changes. -/
def Obligations.LockedRegisters : Prop :=
  ∀ (s : State) (c : BitVec 4) (r : Nat × Nat) (v : Word), s.glob.status.busy = false → c.toNat < s.params.nCtx →
    r ∈ lockedRegisters →
    ((s.bank c).status.valid = true → hostAccess s (.write (bankOffset c r.1) .word v) =
      withIrq { s with glob := { s.glob with status := { s.glob.status with accErr := true } } }) ∧
    ((s.bank c).status.valid = false → ∃ t, hostAccess s (.write (bankOffset c r.1) .word v) = t ∧
      (hostAccess t (.read (bankOffset c r.1) .word)).readData = lowBits r.2 v ∧
      t = withIrq (s.setBank c (withLockedField r.1 v (s.bank c))))

/-- The register tables, below the banks and in them. A read of any mapped register but the bitmap words returns the
word its table gives (R22, R25, R27 to R35, with R36 and R37). By access type (R21): a write to an RW register below the
banks writes the bits of its field and nothing else, so it reads back and every other register there reads as before;
WIN_BMP_IDX, the RW register of a bank, takes its seven bits and nothing else changes, also while the context is valid;
a write to an RO or reserved register changes nothing. All of it with BUSY = 0, and for the status group also with
BUSY = 1 (R85). -/
def Obligations.RegisterAccessTypes : Prop :=
  ∀ (s : State) (v : Word),
    (∀ x ∈ registerWords s, OpenNow s x.1 → hostAccess s (.read x.1 .word) = withIrq { s with readData := x.2 }) ∧
    (∀ r ∈ rwRegisters, OpenNow s r.1 → ∃ t, hostAccess s (.write r.1 .word v) = t ∧
      t = withIrq (withRegister r.1 v s) ∧
      (hostAccess t (.read r.1 .word)).readData = lowBits r.2 v ∧
      (∀ off, off < 0x400 → off ≠ r.1 →
        (hostAccess t (.read off .word)).readData = (hostAccess s (.read off .word)).readData)) ∧
    (∀ off ∈ roRegisters, OpenNow s off → hostAccess s (.write off .word v) = withIrq s) ∧
    (∀ c : BitVec 4, c.toNat < s.params.nCtx → s.glob.status.busy = false →
      (∀ x ∈ bankWords (s.bank c),
        hostAccess s (.read (bankOffset c x.1) .word) = withIrq { s with readData := x.2 }) ∧
      (∃ t, hostAccess s (.write (bankOffset c 0x2C) .word v) = t ∧
        t = withIrq (s.setBank c { s.bank c with winBmpIdx := BitVec.ofNat 7 v.toNat }) ∧
        (hostAccess t (.read (bankOffset c 0x2C) .word)).readData = lowBits 7 v) ∧
      ∀ off ∈ roBankRegisters, hostAccess s (.write (bankOffset c off) .word v) = withIrq s)

/-- Key staging (R34, R39): word i holds key or salt bytes 4i to 4i + 3, its most significant byte first; the other
staged bytes and everything else stay; the register reads 0. -/
def Obligations.KeyStaging : Prop :=
  ∀ (s : State) (c : BitVec 4) (v : Word) (i : Nat), s.glob.status.busy = false → c.toNat < s.params.nCtx →
    (i < 8 → ∃ t, hostAccess s (.write (bankOffset c (0x60 + 4 * i)) .word v) = t ∧
      (∀ k, k < 32 → keyByte (t.bank c).mkeyStg k =
        if k / 4 = i then keyByte v (k % 4) else keyByte (s.bank c).mkeyStg k) ∧
      t = withIrq (s.setBank c { s.bank c with mkeyStg := (t.bank c).mkeyStg }) ∧
      (hostAccess t (.read (bankOffset c (0x60 + 4 * i)) .word)).readData = 0) ∧
    (i < 4 → ∃ t, hostAccess s (.write (bankOffset c (0x80 + 4 * i)) .word v) = t ∧
      (∀ k, k < 16 → keyByte (t.bank c).msaltStg k =
        if k / 4 = i then keyByte v (k % 4) else keyByte (s.bank c).msaltStg k) ∧
      t = withIrq (s.setBank c { s.bank c with msaltStg := (t.bank c).msaltStg }) ∧
      (hostAccess t (.read (bankOffset c (0x80 + 4 * i)) .word)).readData = 0)

/-- No host read tells the active or staged master key or salt (R39, R41): it returns the same whatever they are. -/
def Obligations.HostCannotReadKeys : Prop :=
  ∀ (s : State) (c : BitVec 4) (k1 k2 : BitVec 256) (s1 : BitVec 112) (s2 : BitVec 128) (off : Nat) (w : Width),
    (hostAccess (s.setBank c { s.bank c with mkeyAct := k1, mkeyStg := k2, msaltAct := s1, msaltStg := s2 })
      (.read off w)).readData = (hostAccess s (.read off w)).readData

/-- Buffer lanes (R81): an accepted write of n bytes (n = 1, 2 or 4; any other width is rejected, HostRejection) at buffer address a changes exactly PB[a] to PB[a + n - 1], with
PB[a + k] in bits [8k + 7 : 8k], and a read of the same width returns them. That the bits of the data above a narrow
read are 0 is the model's choice (log entry 6). -/
def Obligations.BufferLanes : Prop :=
  ∀ (s : State) (a : Nat) (w : Width) (v : Word), w ≠ .other → s.glob.status.busy = false → a % widthBytes w = 0 →
    a + widthBytes w ≤ s.params.pbufSize → ∃ t, hostAccess s (.write (0x10000 + a) w v) = t ∧
      t = withIrq { s with pb := t.pb } ∧
      (∀ k, k < widthBytes w → memByte t.pb (a + k) = v.extractLsb' (8 * k) 8) ∧
      SameBytesOutside s t a (widthBytes w) ∧
      (hostAccess t (.read (0x10000 + a) w)).readData = lowBits (8 * widthBytes w) v

/-- Bitmap readback (R40): the two words, and that WIN_BMP_DATA and RTCP_BMP_DATA of a bank return them to the host. -/
def Obligations.BitmapReadback : Prop :=
  ∀ (s : State) (c : BitVec 4) (j p : Nat), j < 32 → p = 32 * (s.bank c).winBmpIdx.toNat + j →
    (s.glob.status.busy = false → c.toNat < s.params.nCtx →
      hostAccess s (.read (bankOffset c 0x30) .word) =
        withIrq { s with readData := readReg s (.bank c .winBmpData) } ∧
      hostAccess s (.read (bankOffset c 0x4C) .word) =
        withIrq { s with readData := readReg s (.bank c .rtcpBmpData) }) ∧
    (readReg s (.bank c .winBmpData)).getLsbD j =
      (decide (p < (s.bank c).winSize.toNat) && decide (p < s.params.wMax) && (s.bank c).bmp.getLsbD p) ∧
    (readReg s (.bank c .rtcpBmpData)).getLsbD j =
      (decide (p < (s.bank c).winSize.toNat) && decide (p < s.params.wMax) && (s.bank c).rtcpBmp.getLsbD p)

/-- Context independence (R96): a command that is not about context c neither reads nor writes bank c, so it does the
same whatever bank c holds, and bank c stays. -/
def Obligations.ContextIndependence : Prop :=
  ∀ (i : Instr) (s t : State) (c : BitVec 4) (b : Ctx), contextOf i ≠ some c → exec i s = .next t →
    exec i (s.setBank c b) = .next (t.setBank c b) ∧ t.bank c = s.bank c

/-- NOP (R141). -/
def Obligations.NopCompletes : Prop :=
  ∀ s : State, exec .nop s = .next { s with glob :=
    { s.glob with
      status := { s.glob.status with busy := false, done := true, err := false, errcode := 0 }
      intStatus := { s.glob.intStatus with done := true }
      cmdCount := s.glob.cmdCount + 1
      irq := irqLine s.glob.intEn { s.glob.intStatus with done := true } } }

/-- RTP_ENCODE (R151, R152): the checks in order, then the packet at DST_ADDR built from the bytes as they were, the
result registers, and nothing else. -/
def Obligations.RtpEncode : Prop :=
  ∀ (s : State) (d cc words total : Nat) (x : Bool), s.params.Legal → d = s.op.dstAddr.toNat →
    x = s.hdr.b01.getLsbD 12 → cc = (s.hdr.b01.extractLsb' 8 4).toNat →
    words = (if x then (s.op.auxLen.toNat + 3) / 4 else 0) → total = hdrLenOf x cc words + s.op.srcLen.toNat →
    if ¬ InRange s s.op.srcAddr s.op.srcLen then Raises .rtpEncode s .invalidParam
    else if x = true ∧ ¬ InRange s s.op.auxAddr s.op.auxLen then Raises .rtpEncode s .invalidParam
    else if ¬ InRange s s.op.dstAddr s.op.dstCap then Raises .rtpEncode s .invalidParam
    else if s.op.dstCap.toNat < total then Raises .rtpEncode s .bufferTooSmall
    else ∃ t, exec .rtpEncode s = .next t ∧
      t = { s with
        glob := finishedGlob s.glob, pb := t.pb, op := { s.op with resLen := u32 total }
        hdr := { s.hdr with
          hdrLen := u32 (hdrLenOf x cc words), extLenWords := BitVec.ofNat 16 words
          extOff := if x then u32 (d + 12 + 4 * cc + 4) else 0
          payloadOff := u32 (d + hdrLenOf x cc words), payloadLen := s.op.srcLen } } ∧
      memByte t.pb d = 0x80 ||| ((s.hdr.b01.extractLsb' 8 6).setWidth 8) ∧
      memByte t.pb (d + 1) = s.hdr.b01.extractLsb' 0 8 ∧ memRead t.pb (d + 2) 2 = s.hdr.seq.toNat ∧
      memWord t.pb (d + 4) = s.hdr.ts ∧ memWord t.pb (d + 8) = s.hdr.ssrc ∧
      (∀ i : Fin 15, i.val < cc → memWord t.pb (d + 12 + 4 * i.val) = s.hdr.csrc[i]) ∧
      (x = true → memRead t.pb (d + 12 + 4 * cc) 2 = s.hdr.extProfile.toNat ∧
        memRead t.pb (d + 12 + 4 * cc + 2) 2 = words ∧
        memBytes t.pb (d + 12 + 4 * cc + 4) s.op.auxLen.toNat = memBytes s.pb s.op.auxAddr.toNat s.op.auxLen.toNat ∧
        ∀ k, s.op.auxLen.toNat ≤ k → k < 4 * words → memByte t.pb (d + 12 + 4 * cc + 4 + k) = 0) ∧
      memBytes t.pb (d + hdrLenOf x cc words) s.op.srcLen.toNat =
        memBytes s.pb s.op.srcAddr.toNat s.op.srcLen.toNat ∧
      SameBytesOutside s t d total

/-- RTP_DECODE (R150, R153, R156). -/
def Obligations.RtpDecode : Prop :=
  ∀ (s : State) (base len : Nat), base = s.op.srcAddr.toNat → len = s.op.srcLen.toNat →
    if ¬ InRange s s.op.srcAddr s.op.srcLen then Raises .rtpDecode s .invalidParam
    else if ¬ RtpFits s.pb base len then Raises .rtpDecode s .invalidPacket
    else ∃ t, exec .rtpDecode s = .next t ∧ ShowsPacket t.hdr s.pb base len ∧
      t.hdr.flags = ⟨rtpOneByteExt s.pb base, false, false, false, false⟩ ∧
      t = { s with
        glob := finishedGlob s.glob, hdr := t.hdr, op := { s.op with resLen := u32 (len - rtpHdrLen s.pb base) } }

/-- RTP_DECODE is total and local (R155): it finishes or raises InvalidParam or InvalidPacket, and it does the same
whatever the bytes outside its source range are. -/
def Obligations.RtpDecodeTotalAndLocal : Prop :=
  ∀ s : State, ∃ t, exec .rtpDecode s = .next t ∧
    (t.glob.status.errcode = 0 ∨ t = raised s .invalidParam ∨ t = raised s .invalidPacket) ∧
    ∀ m : Memory, (∀ a, s.op.srcAddr.toNat ≤ a → a < s.op.srcAddr.toNat + s.op.srcLen.toNat →
      memByte m a = memByte s.pb a) → exec .rtpDecode { s with pb := m } = .next { t with pb := m }

/-- SEQ_DIFF (R170, R172): RES0 is the one number in -32768 .. 32767 that equals ARG0[15:0] - ARG1[15:0] modulo 2^16. -/
def Obligations.SeqDiff : Prop :=
  ∀ s : State, ∃ d : Int, -32768 ≤ d ∧ d ≤ 32767 ∧
    (d - ((s.op.arg0.toNat % 65536 : Nat) - (s.op.arg1.toNat % 65536 : Nat))) % 65536 = 0 ∧
    exec .seqDiff s = .next { s with glob := finishedGlob s.glob, op := { s.op with res0 := BitVec.ofInt 32 d } }

/-- SESS_INIT (R171): the SSRC and sequence number are the next draws where a flag asks for one and stay otherwise;
the send counters and every receive-statistics register are 0. -/
def Obligations.SessInit : Prop :=
  ∀ (s : State) (f0 f1 : Bool), exec (.sessInit f0 f1) s = .next { s with
    glob := finishedGlob s.glob
    sess := { s.sess with
      ssrc := if f0 then Config.draw32 s.draws else s.sess.ssrc
      seq := if f1 then Config.draw16 (s.draws + if f0 then 1 else 0) else s.sess.seq
      txPkts := 0, txOctets := 0 }
    rx := ⟨⟨false, false, false, false⟩, 0, 0, 0, 0, 0, 0, 0, 0, 0, 0, 0, 0, 0, 0, 0, 0, 0⟩
    draws := s.draws + (if f0 then 1 else 0) + (if f1 then 1 else 0) }

/-- SESS_CREATE_PACKET (R173, R174). -/
def Obligations.SessCreatePacket : Prop :=
  ∀ (s : State) (m : Bool) (d total : Nat), d = s.op.dstAddr.toNat → total = 12 + s.op.srcLen.toNat →
    if ¬ InRange s s.op.srcAddr s.op.srcLen then Raises (.sessCreatePacket m) s .invalidParam
    else if ¬ InRange s s.op.dstAddr s.op.dstCap then Raises (.sessCreatePacket m) s .invalidParam
    else if s.op.dstCap.toNat < total then Raises (.sessCreatePacket m) s .bufferTooSmall
    else ∃ t, exec (.sessCreatePacket m) s = .next t ∧
      t = { s with
        glob := finishedGlob s.glob, pb := t.pb, op := { s.op with resLen := u32 total }
        sess := { s.sess with
          seq := s.sess.seq + 1, txPkts := s.sess.txPkts + 1, txOctets := s.sess.txOctets + s.op.srcLen }
        hdr := { s.hdr with
          b01 := 0x8000#16 ||| (if m then 0x0080#16 else 0#16) ||| s.sess.pt.setWidth 16, seq := s.sess.seq
          ts := s.sess.ts, ssrc := s.sess.ssrc, hdrLen := 12, extLenWords := 0, extOff := 0
          payloadOff := u32 (d + 12), payloadLen := s.op.srcLen } } ∧
      memByte t.pb d = 0x80 ∧ memByte t.pb (d + 1) = (if m then 0x80#8 else 0#8) ||| s.sess.pt.setWidth 8 ∧
      memRead t.pb (d + 2) 2 = s.sess.seq.toNat ∧ memWord t.pb (d + 4) = s.sess.ts ∧
      memWord t.pb (d + 8) = s.sess.ssrc ∧
      memBytes t.pb (d + 12) s.op.srcLen.toNat = memBytes s.pb s.op.srcAddr.toNat s.op.srcLen.toNat ∧
      SameBytesOutside s t d total

/-- SESS_PROCESS_RECEIVED (R175): the checks, the decode registers, and only the statistics beside them; the last-SR,
RTT and remote-report registers stay. -/
def Obligations.SessProcessReceived : Prop :=
  ∀ (s : State) (base len : Nat), base = s.op.srcAddr.toNat → len = s.op.srcLen.toNat →
    if ¬ InRange s s.op.srcAddr s.op.srcLen then Raises .sessProcessReceived s .invalidParam
    else if ¬ RtpFits s.pb base len then Raises .sessProcessReceived s .invalidPacket
    else ∃ t, exec .sessProcessReceived s = .next t ∧ ShowsPacket t.hdr s.pb base len ∧
      t.hdr.flags.extOneByte = rtpOneByteExt s.pb base ∧
      t = { s with
        glob := finishedGlob s.glob, hdr := t.hdr, op := { s.op with resLen := u32 (len - rtpHdrLen s.pb base) }
        rx := { t.rx with
          lsr := s.rx.lsr, lsrArrival := s.rx.lsrArrival, rtt := s.rx.rtt, remoteLoss := s.rx.remoteLoss
          remoteExtMax := s.rx.remoteExtMax, remoteJitter := s.rx.remoteJitter
          state := { s.rx.state with rxValid := true } } }

/-- The receive statistics (R176 to R179): the first packet, a foreign SSRC, a duplicate, a packet ahead of the highest,
and a reordered one, with the flag each sets. -/
def Obligations.ReceiveStatistics : Prop :=
  ∀ (s : State) (base : Nat) (ssrc transit jitter : Word) (seq dist : BitVec 16) (dev : Int),
    base = s.op.srcAddr.toNat → ssrc = memWord s.pb (base + 8) → seq = rtpSeq s.pb base →
    transit = s.sess.rxArrival - memWord s.pb (base + 4) → dev = (transit - s.rx.lastTransit).toInt →
    jitter = BitVec.ofInt 32 (s.rx.jitter16.toNat + dev.natAbs - (s.rx.jitter16.toNat + 8) / 16) →
    dist = seq - s.rx.maxSeq → InRange s s.op.srcAddr s.op.srcLen → RtpFits s.pb base s.op.srcLen.toNat →
    ∃ t, exec .sessProcessReceived s = .next t ∧
      if s.rx.state.rxValid = false then
        t.hdr.flags = ⟨rtpOneByteExt s.pb base, false, false, false, true⟩ ∧
        t.rx = { s.rx with
          state := { s.rx.state with rxValid := true }, ssrc := ssrc, baseSeq := seq, maxSeq := seq, cycles := 0
          received := 1, duplicates := 0, reordered := 0, jitter16 := 0, lastTransit := transit, expectedPrior := 0
          receivedPrior := 0 }
      else if ssrc ≠ s.rx.ssrc then
        t.hdr.flags = ⟨rtpOneByteExt s.pb base, true, false, false, false⟩ ∧ t.rx = s.rx
      else if dist = 0 then
        t.hdr.flags = ⟨rtpOneByteExt s.pb base, false, true, false, false⟩ ∧
        t.rx = { s.rx with duplicates := s.rx.duplicates + 1 }
      else if dist.toNat ≤ 32767 then
        t.hdr.flags = ⟨rtpOneByteExt s.pb base, false, false, false, false⟩ ∧
        t.rx = { s.rx with
          received := s.rx.received + 1, maxSeq := seq, jitter16 := jitter, lastTransit := transit
          cycles := if seq.toNat < s.rx.maxSeq.toNat then s.rx.cycles + 1 else s.rx.cycles }
      else
        t.hdr.flags = ⟨rtpOneByteExt s.pb base, false, false, true, false⟩ ∧
        t.rx = { s.rx with
          received := s.rx.received + 1, reordered := s.rx.reordered + 1, jitter16 := jitter, lastTransit := transit }

/-- RTCP_CREATE_SR (R191, R195). -/
def Obligations.RtcpCreateSr : Prop :=
  ∀ (s : State) (d rc len : Nat), d = s.op.dstAddr.toNat → rc = (if s.rx.state.rxValid then 1 else 0) →
    len = 28 + 24 * rc →
    if ¬ InRange s s.op.dstAddr s.op.dstCap then Raises .rtcpCreateSr s .invalidParam
    else if s.op.dstCap.toNat < len then Raises .rtcpCreateSr s .bufferTooSmall
    else ∃ t, exec .rtcpCreateSr s = .next t ∧
      t = { s with
        glob := finishedGlob s.glob, pb := t.pb, op := { s.op with resLen := u32 len }
        rx := intervalStarted s.rx } ∧
      ShowsCommon t.pb d rc 200 (len / 4 - 1) ∧ memWord t.pb (d + 4) = s.sess.ssrc ∧
      memWord t.pb (d + 8) = s.sess.nowNtpMsw ∧ memWord t.pb (d + 12) = s.sess.nowNtpLsw ∧
      memWord t.pb (d + 16) = s.sess.nowRtpTs ∧ memWord t.pb (d + 20) = s.sess.txPkts ∧
      memWord t.pb (d + 24) = s.sess.txOctets ∧ (rc = 1 → ShowsBlock t.pb (d + 28) s) ∧ SameBytesOutside s t d len

/-- RTCP_CREATE_RR (R191, R196). -/
def Obligations.RtcpCreateRr : Prop :=
  ∀ (s : State) (d rc len : Nat), d = s.op.dstAddr.toNat → rc = (if s.rx.state.rxValid then 1 else 0) →
    len = 8 + 24 * rc →
    if ¬ InRange s s.op.dstAddr s.op.dstCap then Raises .rtcpCreateRr s .invalidParam
    else if s.op.dstCap.toNat < len then Raises .rtcpCreateRr s .bufferTooSmall
    else ∃ t, exec .rtcpCreateRr s = .next t ∧
      t = { s with
        glob := finishedGlob s.glob, pb := t.pb, op := { s.op with resLen := u32 len }
        rx := intervalStarted s.rx } ∧
      ShowsCommon t.pb d rc 201 (len / 4 - 1) ∧ memWord t.pb (d + 4) = s.sess.ssrc ∧
      (rc = 1 → ShowsBlock t.pb (d + 8) s) ∧ SameBytesOutside s t d len

/-- RTCP_CREATE_BYE (R197). -/
def Obligations.RtcpCreateBye : Prop :=
  ∀ (s : State) (d : Nat), d = s.op.dstAddr.toNat →
    if ¬ InRange s s.op.dstAddr s.op.dstCap then Raises .rtcpCreateBye s .invalidParam
    else if s.op.dstCap.toNat < 8 then Raises .rtcpCreateBye s .bufferTooSmall
    else ∃ t, exec .rtcpCreateBye s = .next t ∧
      t = { s with glob := finishedGlob s.glob, pb := t.pb, op := { s.op with resLen := 8 } } ∧
      memBytes t.pb d 4 = [0x81, 0xCB, 0x00, 0x01] ∧ memWord t.pb (d + 4) = s.sess.ssrc ∧ SameBytesOutside s t d 8

/-- The loss arithmetic of a report block: Clamp24 and Fraction for every pair of integers (R192, R193). -/
def Obligations.LossArithmetic : Prop :=
  (∀ n : Int, (n < -2 ^ 23 → clamp24 n = -2 ^ 23) ∧ (2 ^ 23 - 1 < n → clamp24 n = 2 ^ 23 - 1) ∧
    (-2 ^ 23 ≤ n → n ≤ 2 ^ 23 - 1 → clamp24 n = n)) ∧
  (∀ e l : Int, (e ≤ 0 ∨ l ≤ 0 → lossFraction e l = 0) ∧
    (0 < e → 0 < l → (lossFraction e l : Int) = min 255 (l * 256 / e)))

/-- RTCP_PARSE (R200 to R204): its checks in order, and what every accepted packet leaves: RTCP_HDR, RES_LEN, and
nothing outside the parse registers, the statistics and RES_LEN. -/
def Obligations.RtcpParse : Prop :=
  ∀ (s : State) (base : Nat), base = s.op.srcAddr.toNat →
    if ¬ InRange s s.op.srcAddr s.op.srcLen then Raises .rtcpParse s .invalidParam
    else if ¬ RtcpFits s.pb base s.op.srcLen.toNat then Raises .rtcpParse s .invalidPacket
    else if ¬ RtcpBodyFits s.pb base then Raises .rtcpParse s .invalidPacket
    else ∃ t, exec .rtcpParse s = .next t ∧ t.rtcp.hdr = memWord s.pb base ∧
      t = { s with
        glob := finishedGlob s.glob, rtcp := t.rtcp, rx := t.rx
        op := { s.op with resLen := u32 (rtcpPlen s.pb base) } }

/-- RTCP_PARSE of an SR (R201, R202): the sender's report in the parse registers, its time recorded, and the first block
about this session taken. -/
def Obligations.RtcpParseSenderReport : Prop :=
  ∀ (s : State) (base count : Nat) (msw lsw : Word), base = s.op.srcAddr.toNat → count = rtcpCount s.pb base →
    msw = memWord s.pb (base + 8) → lsw = memWord s.pb (base + 12) → InRange s s.op.srcAddr s.op.srcLen →
    RtcpFits s.pb base s.op.srcLen.toNat → RtcpBodyFits s.pb base → rtcpPt s.pb base = 200 →
    ∃ t, exec .rtcpParse s = .next t ∧
      t.rtcp = ⟨memWord s.pb base, memWord s.pb (base + 4), msw, lsw, memWord s.pb (base + 16),
        memWord s.pb (base + 20), memWord s.pb (base + 24),
        ⟨BitVec.ofNat 5 count, t.rtcp.info.blockForUs, false⟩⟩ ∧
      BlocksProcessed s (base + 28) count (withSr s.rx msw lsw (sessionNow s)) t.rx t.rtcp.info.blockForUs

/-- RTCP_PARSE of an RR (R202, R203): its blocks processed, and no other statistic changed. -/
def Obligations.RtcpParseReceiverReport : Prop :=
  ∀ (s : State) (base count : Nat), base = s.op.srcAddr.toNat → count = rtcpCount s.pb base →
    InRange s s.op.srcAddr s.op.srcLen → RtcpFits s.pb base s.op.srcLen.toNat → RtcpBodyFits s.pb base →
    rtcpPt s.pb base = 201 →
    ∃ t, exec .rtcpParse s = .next t ∧
      t.rtcp = ⟨memWord s.pb base, memWord s.pb (base + 4), 0, 0, 0, 0, 0,
        ⟨BitVec.ofNat 5 count, t.rtcp.info.blockForUs, false⟩⟩ ∧
      BlocksProcessed s (base + 8) count s.rx t.rx t.rtcp.info.blockForUs

/-- RTCP_PARSE of any other packet (R203): BYE reports its first source, the four known types and every unknown type
their first SSRC word, an unknown type sets UNKNOWN_PT, and no statistic changes. -/
def Obligations.RtcpParseOtherTypes : Prop :=
  ∀ (s : State) (base pt : Nat), base = s.op.srcAddr.toNat → pt = rtcpPt s.pb base →
    InRange s s.op.srcAddr s.op.srcLen → RtcpFits s.pb base s.op.srcLen.toNat → RtcpBodyFits s.pb base →
    pt ≠ 200 → pt ≠ 201 →
    ∃ t, exec .rtcpParse s = .next t ∧ t.rx = s.rx ∧
      t.rtcp = ⟨memWord s.pb base, t.rtcp.ssrc, 0, 0, 0, 0, 0,
        ⟨0, false, decide (pt ∉ ([202, 203, 204, 205, 206] : List Nat))⟩⟩ ∧
      (pt = 203 → t.rtcp.ssrc = if 0 < rtcpCount s.pb base then memWord s.pb (base + 4) else 0) ∧
      (pt ≠ 203 → t.rtcp.ssrc = if 8 ≤ rtcpPlen s.pb base then memWord s.pb (base + 4) else 0)

/-- The RTCP round trip (R205): parsing an SR where it was built recovers the SSRC, the counts and the times. -/
def Obligations.RtcpRoundTrip : Prop :=
  ∀ s t : State, exec .rtcpCreateSr s = .next t → t.glob.status.errcode = 0 →
    ∃ u, exec .rtcpParse { t with op := { t.op with srcAddr := s.op.dstAddr, srcLen := t.op.resLen } } = .next u ∧
      u.glob.status.errcode = 0 ∧ u.rtcp.ssrc = s.sess.ssrc ∧ u.rtcp.pktCount = s.sess.txPkts ∧
      u.rtcp.octetCount = s.sess.txOctets ∧ u.rtcp.ntpMsw = s.sess.nowNtpMsw ∧ u.rtcp.ntpLsw = s.sess.nowNtpLsw ∧
      u.rtcp.rtpTs = s.sess.nowRtpTs

/-- CTX_INIT (R221 to R224). -/
def Obligations.CtxInit : Prop :=
  ∀ (s : State) (c : BitVec 4),
    if s.params.nCtx ≤ c.toNat then Raises (.ctxInit c) s .invalidParam
    else if (s.bank c).status.valid = true then Raises (.ctxInit c) s .invalidParam
    else if ¬ ((s.bank c).kdr = 0 ∨ ∃ t : Fin 25, (s.bank c).kdr.toNat = 2 ^ t.val) then
      Raises (.ctxInit c) s .invalidParam
    else if ¬ (1 ≤ (s.bank c).winSize.toNat ∧ (s.bank c).winSize.toNat ≤ s.params.wMax) then
      Raises (.ctxInit c) s .invalidParam
    else ∃ t, exec (.ctxInit c) s = .next t ∧ KeysLoaded s.params (s.bank c) (t.bank c) ∧
      t = { s.setBank c { s.bank c with
          mkeyAct := (t.bank c).mkeyAct, msaltAct := (t.bank c).msaltAct, roc := (s.bank c).rocInit, sL := 0
          winTop := 0, bmp := 0, rtcpTop := 0, rtcpBmp := 0, rtcpTxIndex := 0, candIndex := 0, candRoc := 0
          candSeq := 0, rtcpCand := 0, status := ⟨true, false, false, false, false, false⟩ } with
        glob := finishedGlob s.glob }

/-- CTX_UPDATE_KEY (R225): the new key and salt, no candidate, the shown keys of this context cleared, and the session
state of the context untouched. -/
def Obligations.CtxUpdateKey : Prop :=
  ∀ (s : State) (c : BitVec 4),
    if s.params.nCtx ≤ c.toNat then Raises (.ctxUpdateKey c) s .invalidParam
    else if (s.bank c).status.valid = false then Raises (.ctxUpdateKey c) s .notInitialized
    else ∃ t, exec (.ctxUpdateKey c) s = .next t ∧ KeysLoaded s.params (s.bank c) (t.bank c) ∧
      sessionState (t.bank c) = sessionState (s.bank c) ∧
      t = { s.setBank c { s.bank c with
          mkeyAct := (t.bank c).mkeyAct, msaltAct := (t.bank c).msaltAct
          status := { (s.bank c).status with candValid := false, rtcpCandValid := false } } with
        glob := finishedGlob s.glob, sk := if s.sk.info.ctx = c then SkRegs.reset else s.sk }

/-- CTX_TEARDOWN (R226). -/
def Obligations.CtxTeardown : Prop :=
  ∀ (s : State) (c : BitVec 4),
    (s.params.nCtx ≤ c.toNat → Raises (.ctxTeardown c) s .invalidParam) ∧
    (c.toNat < s.params.nCtx → exec (.ctxTeardown c) s = .next
      { s.setBank c { s.bank c with
          mkeyAct := 0, msaltAct := 0, mkeyStg := 0, msaltStg := 0, roc := 0, sL := 0, winTop := 0, bmp := 0
          rtcpTop := 0, rtcpBmp := 0, rtcpTxIndex := 0, candIndex := 0, candRoc := 0, candSeq := 0, rtcpCand := 0
          status := ⟨false, false, false, false, false, false⟩ } with
        glob := finishedGlob s.glob
        sk := if s.sk.info.ctx = c then
          ⟨0, 0, 0, ⟨false, false, 0, 0, 0, 0⟩, 0⟩ else s.sk })

/-- KDF (R229 to R233): the session keys of the index's r, byte for byte, and nothing else. -/
def Obligations.KdfSessionKeys : Prop :=
  ∀ (s : State) (c : BitVec 4) (rtcp : Bool) (index : Nat),
    index = (if rtcp then s.kdfIdx.toNat % 2 ^ 31 else s.kdfIdx.toNat) →
    if s.params.nCtx ≤ c.toNat then Raises (.kdf c rtcp) s .invalidParam
    else if (s.bank c).status.valid = false then Raises (.kdf c rtcp) s .notInitialized
    else ∃ t, exec (.kdf c rtcp) s = .next t ∧ t = { s with glob := finishedGlob s.glob, sk := t.sk } ∧
      ShowsKeys s.params (s.bank c) c rtcp
        (if (s.bank c).kdr = 0 then 0 else BitVec.ofNat 48 (index / (s.bank c).kdr.toNat)) t.sk

/-- Index estimation (R250): v is ROC before any packet, and afterwards the choice among ROC - 1, ROC and ROC + 1 that
puts the packet's index nearest to the highest one. -/
def Obligations.IndexEstimate : Prop :=
  ∀ (b : Ctx) (seq : BitVec 16) (v dist : Int), v = estimateV b seq →
    dist = (v * 65536 + seq.toNat) - ((b.roc.toNat : Int) * 65536 + b.sL.toNat) →
    (b.status.slValid = false → v = b.roc.toNat) ∧
    (b.status.slValid = true → (b.roc.toNat : Int) - 1 ≤ v ∧ v ≤ b.roc.toNat + 1 ∧
      (b.sL.toNat < 32768 → -32768 < dist ∧ dist ≤ 32768) ∧
      (32768 ≤ b.sL.toNat → -32768 ≤ dist ∧ dist < 32768))

/-- The replay window (R251 to R253): the check rejects exactly what is below the floor or accepted; marking an index
that passed keeps the window sound, accepts that index, and forgets only what falls below the new floor. -/
def Obligations.ReplayWindow : Prop :=
  ∀ (w : Window) (i wMax : Nat), WindowOk w → 1 ≤ w.size → w.size ≤ wMax → wMax ≤ 4096 →
    (replayed w i = true ↔ w.valid = true ∧ i ≤ w.top ∧ (w.size ≤ w.top - i ∨ Accepted w i)) ∧
    (replayed w i = false → WindowOk (replayMark wMax w i) ∧
      (replayMark wMax w i).top = (if w.valid then max w.top i else i) ∧
      ∀ j, Accepted (replayMark wMax w i) j ↔
        j = i ∨ (Accepted w j ∧ (replayMark wMax w i).top - j < w.size))

/-- ROC never decreases (R254): no command but CTX_INIT and CTX_TEARDOWN of a sound context lowers its ROC. -/
def Obligations.RocNeverDecreases : Prop :=
  ∀ (i : Instr) (s t : State) (c : BitVec 4), CtxOk s.params (s.bank c) → i ≠ .ctxInit c → i ≠ .ctxTeardown c →
    exec i s = .next t → (s.bank c).roc.toNat ≤ (t.bank c).roc.toNat

/-- An index already accepted is rejected (R263), by its check and by its commit, whatever the packet's bytes: the check
of a packet that gets past the framing checks, and the commit of any candidate, raise ReplayDetected. -/
def Obligations.AcceptedIndexIsRejected : Prop :=
  ∀ (s : State) (c : BitVec 4), CtxReady s c true →
    ((s.bank c).status.candValid = true → Accepted (srtpWindow (s.bank c)) (s.bank c).candIndex.toNat →
      Raises (.srtpRxCommit c true) s .replayDetected) ∧
    (∀ len v : Nat, InRange s s.op.srcAddr s.op.srcLen → 12 ≤ len →
      s.op.srcLen.toNat = len + (ctxLens s (s.bank c)).tagLen + (if (s.bank c).cfg.mkiEn then 4 else 0) →
      RtpFits s.pb s.op.srcAddr.toNat len → memWord s.pb (s.op.srcAddr.toNat + 8) = (s.bank c).ssrc →
      ((s.bank c).cfg.mkiEn = true → memWord s.pb (s.op.srcAddr.toNat + len +
        if s.params.mkiBeforeTag then 0 else (ctxLens s (s.bank c)).tagLen) = (s.bank c).mki) →
      estimateV (s.bank c) (rtpSeq s.pb s.op.srcAddr.toNat) = v → v < 2 ^ 32 →
      Accepted (srtpWindow (s.bank c)) (v * 65536 + (rtpSeq s.pb s.op.srcAddr.toNat).toNat) →
      Raises (.srtpRxCheck c) s .replayDetected)

/-- The controlling invariant (R263): over any run, a context's session state changes only in a step that runs a
commit with AUTH_OK = 1, a send, CTX_INIT or CTX_TEARDOWN of that context, or in a soft reset. -/
def Obligations.SessionStateChangesOnlyBy : Prop :=
  ∀ (c : BitVec 4) (n : Nat) (s t : State), Sys2Proof.core.run n s = .next t →
    (∀ k u, k < n → Sys2Proof.core.run k s = .next u → ¬ SessionStep c u) →
    sessionState (t.bank c) = sessionState (s.bank c)

/-- SRTP_TX (R255 to R259, R268). -/
def Obligations.SrtpTx : Prop :=
  ∀ (s : State) (c : BitVec 4) (b : Ctx) (base len tlen m : Nat) (seq : BitVec 16) (v : Int), CtxReady s c false →
    b = s.bank c → base = s.op.srcAddr.toNat → len = s.op.srcLen.toNat → tlen = (ctxLens s b).tagLen →
    m = (if b.cfg.mkiEn then 4 else 0) → seq = rtpSeq s.pb base → v = estimateV b seq →
    if ¬ (InRange s s.op.srcAddr s.op.dstCap ∧ len ≤ s.op.dstCap.toNat) then Raises (.srtpTx c) s .invalidParam
    else if ¬ RtpFits s.pb base len then Raises (.srtpTx c) s .invalidPacket
    else if memWord s.pb (base + 8) ≠ b.ssrc then Raises (.srtpTx c) s .invalidParam
    else if s.op.dstCap.toNat < len + tlen + m then Raises (.srtpTx c) s .bufferTooSmall
    else if v < 0 then Raises (.srtpTx c) s .invalidParam
    else if 2 ^ 32 - 1 < v then Raises (.srtpTx c) s .keyExpired
    else ∃ t, exec (.srtpTx c) s = .next t ∧
      t = { s.setBank c { b with
          roc := if b.status.slValid = false ∨ v > b.roc.toNat then u32 v.toNat else b.roc
          sL := if b.status.slValid = false ∨ v > b.roc.toNat ∨ (v = b.roc.toNat ∧ seq.toNat > b.sL.toNat) then seq
            else b.sL
          status := { b.status with slValid := true } } with
        glob := finishedGlob s.glob, pb := t.pb
        sk := deriveSet s.params b c false (v.toNat * 65536 + seq.toNat)
        sr := ⟨BitVec.ofNat 48 (v.toNat * 65536 + seq.toNat), u32 v.toNat, u32 (base + rtpHdrLen s.pb base),
          u32 (len - rtpHdrLen s.pb base), u32 (base + len + if s.params.mkiBeforeTag then m else 0), u32 tlen,
          if b.cfg.mkiEn then u32 (base + len + if s.params.mkiBeforeTag then 0 else tlen) else 0, u32 m, 0, false⟩
        op := { s.op with resLen := u32 (len + tlen + m) } } ∧
      (b.cfg.mkiEn = false → t.pb = s.pb) ∧
      (b.cfg.mkiEn = true → memWord t.pb (base + len + if s.params.mkiBeforeTag then 0 else tlen) = b.mki ∧
        SameBytesOutside s t (base + len + if s.params.mkiBeforeTag then 0 else tlen) 4)

/-- Sender wrap (R260): a send whose sequence number is one more than the last has v = ROC, but ROC + 1 when it wraps to
0, and leaves ROC = v and S_L at the sequence number. -/
def Obligations.SenderWrap : Prop :=
  ∀ (s t : State) (c : BitVec 4), CtxReady s c false → (s.bank c).status.slValid = true →
    rtpSeq s.pb s.op.srcAddr.toNat = (s.bank c).sL + 1 → exec (.srtpTx c) s = .next t →
    t.glob.status.errcode = 0 →
    t.sr.roc = (if rtpSeq s.pb s.op.srcAddr.toNat = 0 then (s.bank c).roc + 1 else (s.bank c).roc) ∧
    (t.bank c).roc = t.sr.roc ∧ (t.bank c).sL = rtpSeq s.pb s.op.srcAddr.toNat ∧
    (t.bank c).status.slValid = true ∧
    t.sr.index.toNat = t.sr.roc.toNat * 65536 + (t.bank c).sL.toNat ∧
    t.sr.index.toNat = (s.bank c).roc.toNat * 65536 + (s.bank c).sL.toNat + 1

/-- SRTP_RX_CHECK (R255 to R258, R261, R268): the checks in order, then only the candidate, the SR and SK registers and
RES_LEN. -/
def Obligations.SrtpRxCheck : Prop :=
  ∀ (s : State) (c : BitVec 4) (b : Ctx) (base len tlen m : Nat) (seq : BitVec 16) (v : Int), CtxReady s c true →
    b = s.bank c → base = s.op.srcAddr.toNat → tlen = (ctxLens s b).tagLen → m = (if b.cfg.mkiEn then 4 else 0) →
    len = s.op.srcLen.toNat - tlen - m → seq = rtpSeq s.pb base → v = estimateV b seq →
    if ¬ InRange s s.op.srcAddr s.op.srcLen then Raises (.srtpRxCheck c) s .invalidParam
    else if s.op.srcLen.toNat < 12 + tlen + m then Raises (.srtpRxCheck c) s .invalidPacket
    else if ¬ RtpFits s.pb base len then Raises (.srtpRxCheck c) s .invalidPacket
    else if memWord s.pb (base + 8) ≠ b.ssrc then Raises (.srtpRxCheck c) s .invalidPacket
    else if b.cfg.mkiEn = true ∧ memWord s.pb (base + len + if s.params.mkiBeforeTag then 0 else tlen) ≠ b.mki then
      Raises (.srtpRxCheck c) s .invalidPacket
    else if v < 0 then Raises (.srtpRxCheck c) s .replayDetected
    else if 2 ^ 32 - 1 < v then Raises (.srtpRxCheck c) s .keyExpired
    else if replayed (srtpWindow b) (v.toNat * 65536 + seq.toNat) = true then Raises (.srtpRxCheck c) s .replayDetected
    else exec (.srtpRxCheck c) s = .next { s.setBank c { b with
          candIndex := BitVec.ofNat 48 (v.toNat * 65536 + seq.toNat), candRoc := u32 v.toNat, candSeq := seq
          status := { b.status with candValid := true } } with
        glob := finishedGlob s.glob
        sk := deriveSet s.params b c false (v.toNat * 65536 + seq.toNat)
        sr := ⟨BitVec.ofNat 48 (v.toNat * 65536 + seq.toNat), u32 v.toNat, u32 (base + rtpHdrLen s.pb base),
          u32 (len - rtpHdrLen s.pb base), u32 (base + len + if s.params.mkiBeforeTag then m else 0), u32 tlen,
          if b.cfg.mkiEn then u32 (base + len + if s.params.mkiBeforeTag then 0 else tlen) else 0, u32 m, 0, false⟩
        op := { s.op with resLen := u32 len } }

/-- SRTP_RX_COMMIT (R253, R254, R262): the checks in order; then the index is accepted, ROC and S_L move as R254 says,
the candidate is consumed, and only the index and ROC of the SR registers change. That the SK registers stay follows
R262, which runs no DeriveSet, and is the model's reading against R227's "every ... command" (log entry 19). -/
def Obligations.SrtpRxCommit : Prop :=
  ∀ (s : State) (c : BitVec 4) (b : Ctx) (authOk : Bool) (w : Window), CtxReady s c true → b = s.bank c →
    w = replayMark s.params.wMax (srtpWindow b) b.candIndex.toNat →
    if b.status.candValid = false then Raises (.srtpRxCommit c authOk) s .notInitialized
    else if authOk = false then Raises (.srtpRxCommit c authOk) s .authFailed
    else if replayed (srtpWindow b) b.candIndex.toNat = true then Raises (.srtpRxCommit c authOk) s .replayDetected
    else exec (.srtpRxCommit c authOk) s = .next { s.setBank c { b with
          roc := if b.status.slValid = false ∨ b.candRoc.toNat > b.roc.toNat then b.candRoc else b.roc
          sL := if b.status.slValid = false ∨ b.candRoc.toNat > b.roc.toNat ∨
            (b.candRoc = b.roc ∧ b.candSeq.toNat > b.sL.toNat) then b.candSeq else b.sL
          winTop := BitVec.ofNat 48 w.top, bmp := w.bmp
          status := { b.status with slValid := true, winValid := true, candValid := false } } with
        glob := finishedGlob s.glob, sr := { s.sr with index := b.candIndex, roc := b.candRoc } }

/-- The SRTP round trip (R269): what SRTP_TX of a send context frames, SRTP_RX_CHECK of the matching receive context
takes apart with the same index, ROC, keys and ranges. Between the two the cipher unit may write the encrypted range
and the tag. R269 does not list the key-derivation rate among what the two contexts share; the same keys need it, so it
is a premise here (log entry 17). -/
def Obligations.SrtpRoundTrip : Prop :=
  ∀ (s t : State) (m : Memory) (cs cr : BitVec 4), cs ≠ cr → exec (.srtpTx cs) s = .next t →
    t.glob.status.errcode = 0 → s.params.Legal → CtxReady s cr true →
    (s.bank cr).cfg.profile = (s.bank cs).cfg.profile → (s.bank cr).cfg.mkiEn = (s.bank cs).cfg.mkiEn →
    (s.bank cr).mki = (s.bank cs).mki → (s.bank cr).ssrc = (s.bank cs).ssrc → (s.bank cr).kdr = (s.bank cs).kdr →
    (s.bank cr).mkeyAct = (s.bank cs).mkeyAct → (s.bank cr).msaltAct = (s.bank cs).msaltAct →
    (s.bank cr).roc = (s.bank cs).roc → (s.bank cr).sL = (s.bank cs).sL →
    (s.bank cr).status.slValid = (s.bank cs).status.slValid →
    replayed (srtpWindow (s.bank cr)) t.sr.index.toNat = false →
    (∀ a, s.op.srcAddr.toNat ≤ a → a < s.op.srcAddr.toNat + t.op.resLen.toNat →
      (a < t.sr.encOff.toNat ∨ t.sr.encOff.toNat + t.sr.encLen.toNat ≤ a) →
      (a < t.sr.tagOff.toNat ∨ t.sr.tagOff.toNat + t.sr.tagLen.toNat ≤ a) → memByte m a = memByte t.pb a) →
    ∃ u, exec (.srtpRxCheck cr) { t with pb := m, op := { t.op with srcLen := t.op.resLen } } = .next u ∧
      u.glob.status.errcode = 0 ∧ u.sr = t.sr ∧ u.sk = { t.sk with info := { t.sk.info with ctx := cr } } ∧
      u.op.resLen = s.op.srcLen

/-- SRTCP_TX (R255, R257, R258, R264, R265, R268). -/
def Obligations.SrtcpTx : Prop :=
  ∀ (s : State) (c : BitVec 4) (b : Ctx) (base len tlen m idx : Nat), CtxReady s c false → b = s.bank c →
    base = s.op.srcAddr.toNat → len = s.op.srcLen.toNat → tlen = (ctxLens s b).tagLenRtcp →
    m = (if b.cfg.mkiEn then 4 else 0) → idx = b.rtcpTxIndex.toNat →
    if ¬ (InRange s s.op.srcAddr s.op.dstCap ∧ len ≤ s.op.dstCap.toNat) then Raises (.srtcpTx c) s .invalidParam
    else if len < 8 ∨ rtcpVersion s.pb base ≠ 2 ∨ len < rtcpPlen s.pb base then Raises (.srtcpTx c) s .invalidPacket
    else if memWord s.pb (base + 4) ≠ b.ssrc then Raises (.srtcpTx c) s .invalidParam
    else if s.op.dstCap.toNat < len + 4 + tlen + m then Raises (.srtcpTx c) s .bufferTooSmall
    else if 2 ^ 31 - 1 < idx then Raises (.srtcpTx c) s .keyExpired
    else ∃ t, exec (.srtcpTx c) s = .next t ∧
      t = { s.setBank c { b with rtcpTxIndex := b.rtcpTxIndex + 1 } with
        glob := finishedGlob s.glob, pb := t.pb, sk := deriveSet s.params b c true idx
        sr := ⟨BitVec.ofNat 48 idx, 0, u32 (base + 8), if b.cfg.rtcpEnc then u32 (len - 8) else 0,
          u32 (base + len + 4 + if s.params.mkiBeforeTag then m else 0), u32 tlen,
          if b.cfg.mkiEn then u32 (base + len + 4 + if s.params.mkiBeforeTag then 0 else tlen) else 0, u32 m,
          u32 (base + len), b.cfg.rtcpEnc⟩
        op := { s.op with resLen := u32 (len + 4 + tlen + m) } } ∧
      memRead t.pb (base + len) 4 = (if b.cfg.rtcpEnc then 2 ^ 31 else 0) + idx ∧
      (b.cfg.mkiEn = true →
        memWord t.pb (base + len + 4 + if s.params.mkiBeforeTag then 0 else tlen) = b.mki) ∧
      (∀ a, a < base + len ∨ base + len + 4 ≤ a → (b.cfg.mkiEn = true →
        a < base + len + 4 + (if s.params.mkiBeforeTag then 0 else tlen) ∨
        base + len + 4 + (if s.params.mkiBeforeTag then 0 else tlen) + 4 ≤ a) → memByte t.pb a = memByte s.pb a)

/-- SRTCP_RX_CHECK (R255 to R258, R264, R266): the checks in order, then only the SRTCP candidate, the SR and SK
registers and RES_LEN. -/
def Obligations.SrtcpRxCheck : Prop :=
  ∀ (s : State) (c : BitVec 4) (b : Ctx) (base len tlen m idx : Nat) (e : Bool), CtxReady s c true → b = s.bank c →
    base = s.op.srcAddr.toNat → tlen = (ctxLens s b).tagLenRtcp → m = (if b.cfg.mkiEn then 4 else 0) →
    len = s.op.srcLen.toNat - 4 - tlen - m → idx = memRead s.pb (base + len) 4 % 2 ^ 31 →
    e = decide (2 ^ 31 ≤ memRead s.pb (base + len) 4) →
    if ¬ InRange s s.op.srcAddr s.op.srcLen then Raises (.srtcpRxCheck c) s .invalidParam
    else if s.op.srcLen.toNat < 8 + 4 + tlen + m then Raises (.srtcpRxCheck c) s .invalidPacket
    else if rtcpVersion s.pb base ≠ 2 ∨ len < rtcpPlen s.pb base then Raises (.srtcpRxCheck c) s .invalidPacket
    else if memWord s.pb (base + 4) ≠ b.ssrc then Raises (.srtcpRxCheck c) s .invalidPacket
    else if b.cfg.mkiEn = true ∧ memWord s.pb (base + len + 4 + if s.params.mkiBeforeTag then 0 else tlen) ≠ b.mki then
      Raises (.srtcpRxCheck c) s .invalidPacket
    else if replayed (srtcpWindow b) idx = true then Raises (.srtcpRxCheck c) s .replayDetected
    else exec (.srtcpRxCheck c) s = .next { s.setBank c { b with
          rtcpCand := memWord s.pb (base + len), status := { b.status with rtcpCandValid := true } } with
        glob := finishedGlob s.glob, sk := deriveSet s.params b c true idx
        sr := ⟨BitVec.ofNat 48 idx, 0, u32 (base + 8), if e then u32 (len - 8) else 0,
          u32 (base + len + 4 + if s.params.mkiBeforeTag then m else 0), u32 tlen,
          if b.cfg.mkiEn then u32 (base + len + 4 + if s.params.mkiBeforeTag then 0 else tlen) else 0, u32 m,
          u32 (base + len), e⟩
        op := { s.op with resLen := u32 len } }

/-- SRTCP_RX_COMMIT (R253, R267): the checks in order; then the SRTCP index is accepted, the candidate consumed, and
ROC and S_L not involved. That the SK registers stay follows R267, which runs no DeriveSet, and is the model's reading
against R227's "every ... command" (log entry 19). -/
def Obligations.SrtcpRxCommit : Prop :=
  ∀ (s : State) (c : BitVec 4) (b : Ctx) (authOk : Bool) (idx : Nat) (w : Window), CtxReady s c true → b = s.bank c →
    idx = b.rtcpCand.toNat % 2 ^ 31 → w = replayMark s.params.wMax (srtcpWindow b) idx →
    if b.status.rtcpCandValid = false then Raises (.srtcpRxCommit c authOk) s .notInitialized
    else if authOk = false then Raises (.srtcpRxCommit c authOk) s .authFailed
    else if replayed (srtcpWindow b) idx = true then Raises (.srtcpRxCommit c authOk) s .replayDetected
    else exec (.srtcpRxCommit c authOk) s = .next { s.setBank c { b with
          rtcpTop := BitVec.ofNat 31 w.top, rtcpBmp := w.bmp
          status := { b.status with rtcpWinValid := true, rtcpCandValid := false } } with
        glob := finishedGlob s.glob
        sr := { s.sr with index := BitVec.ofNat 48 idx, e := b.rtcpCand.getLsbD 31 } }
end

