-- ==== Sys2Proof/Laws/State.lean ====
section
/-! SUPPORT. What each named update of State does to each field, as simp lemmas, so that no later proof unfolds a record
update. -/

namespace Sys2Proof.Machine

open Sys2Proof

@[simp] theorem setBank_params (s : State) (c : BitVec 4) (b : Ctx) : (s.setBank c b).params = s.params := rfl
@[simp] theorem setBank_glob (s : State) (c : BitVec 4) (b : Ctx) : (s.setBank c b).glob = s.glob := rfl
@[simp] theorem setBank_op (s : State) (c : BitVec 4) (b : Ctx) : (s.setBank c b).op = s.op := rfl
@[simp] theorem setBank_hdr (s : State) (c : BitVec 4) (b : Ctx) : (s.setBank c b).hdr = s.hdr := rfl
@[simp] theorem setBank_sess (s : State) (c : BitVec 4) (b : Ctx) : (s.setBank c b).sess = s.sess := rfl
@[simp] theorem setBank_rx (s : State) (c : BitVec 4) (b : Ctx) : (s.setBank c b).rx = s.rx := rfl
@[simp] theorem setBank_rtcp (s : State) (c : BitVec 4) (b : Ctx) : (s.setBank c b).rtcp = s.rtcp := rfl
@[simp] theorem setBank_sr (s : State) (c : BitVec 4) (b : Ctx) : (s.setBank c b).sr = s.sr := rfl
@[simp] theorem setBank_kdfIdx (s : State) (c : BitVec 4) (b : Ctx) : (s.setBank c b).kdfIdx = s.kdfIdx := rfl
@[simp] theorem setBank_sk (s : State) (c : BitVec 4) (b : Ctx) : (s.setBank c b).sk = s.sk := rfl
@[simp] theorem setBank_banks (s : State) (c : BitVec 4) (b : Ctx) :
    (s.setBank c b).banks = s.banks.set c.toNat b c.isLt := rfl
@[simp] theorem setBank_pb (s : State) (c : BitVec 4) (b : Ctx) : (s.setBank c b).pb = s.pb := rfl
@[simp] theorem setBank_host (s : State) (c : BitVec 4) (b : Ctx) : (s.setBank c b).host = s.host := rfl
@[simp] theorem setBank_readData (s : State) (c : BitVec 4) (b : Ctx) : (s.setBank c b).readData = s.readData := rfl
@[simp] theorem setBank_draws (s : State) (c : BitVec 4) (b : Ctx) : (s.setBank c b).draws = s.draws := rfl

@[simp] theorem accessError_params (s : State)  : (accessError s).params = s.params := rfl
@[simp] theorem accessError_glob (s : State)  :
    (accessError s).glob = { s.glob with status := { s.glob.status with accErr := true } } := rfl
@[simp] theorem accessError_op (s : State)  : (accessError s).op = s.op := rfl
@[simp] theorem accessError_hdr (s : State)  : (accessError s).hdr = s.hdr := rfl
@[simp] theorem accessError_sess (s : State)  : (accessError s).sess = s.sess := rfl
@[simp] theorem accessError_rx (s : State)  : (accessError s).rx = s.rx := rfl
@[simp] theorem accessError_rtcp (s : State)  : (accessError s).rtcp = s.rtcp := rfl
@[simp] theorem accessError_sr (s : State)  : (accessError s).sr = s.sr := rfl
@[simp] theorem accessError_kdfIdx (s : State)  : (accessError s).kdfIdx = s.kdfIdx := rfl
@[simp] theorem accessError_sk (s : State)  : (accessError s).sk = s.sk := rfl
@[simp] theorem accessError_banks (s : State)  : (accessError s).banks = s.banks := rfl
@[simp] theorem accessError_pb (s : State)  : (accessError s).pb = s.pb := rfl
@[simp] theorem accessError_host (s : State)  : (accessError s).host = s.host := rfl
@[simp] theorem accessError_readData (s : State)  : (accessError s).readData = s.readData := rfl
@[simp] theorem accessError_draws (s : State)  : (accessError s).draws = s.draws := rfl

@[simp] theorem withPending_params (s : State) (w : Word) : (withPending s w).params = s.params := rfl
@[simp] theorem withPending_glob (s : State) (w : Word) :
    (withPending s w).glob = { s.glob with pending := w, status := { s.glob.status with busy := true } } := rfl
@[simp] theorem withPending_op (s : State) (w : Word) : (withPending s w).op = s.op := rfl
@[simp] theorem withPending_hdr (s : State) (w : Word) : (withPending s w).hdr = s.hdr := rfl
@[simp] theorem withPending_sess (s : State) (w : Word) : (withPending s w).sess = s.sess := rfl
@[simp] theorem withPending_rx (s : State) (w : Word) : (withPending s w).rx = s.rx := rfl
@[simp] theorem withPending_rtcp (s : State) (w : Word) : (withPending s w).rtcp = s.rtcp := rfl
@[simp] theorem withPending_sr (s : State) (w : Word) : (withPending s w).sr = s.sr := rfl
@[simp] theorem withPending_kdfIdx (s : State) (w : Word) : (withPending s w).kdfIdx = s.kdfIdx := rfl
@[simp] theorem withPending_sk (s : State) (w : Word) : (withPending s w).sk = s.sk := rfl
@[simp] theorem withPending_banks (s : State) (w : Word) : (withPending s w).banks = s.banks := rfl
@[simp] theorem withPending_pb (s : State) (w : Word) : (withPending s w).pb = s.pb := rfl
@[simp] theorem withPending_host (s : State) (w : Word) :
    (withPending s w).host = deferHost s.host := rfl
@[simp] theorem withPending_readData (s : State) (w : Word) : (withPending s w).readData = s.readData := rfl
@[simp] theorem withPending_draws (s : State) (w : Word) : (withPending s w).draws = s.draws := rfl

@[simp] theorem softReset_params (s : State)  : (softReset s).params = s.params := rfl
@[simp] theorem softReset_glob (s : State)  :
    (softReset s).glob = GlobalRegs.reset := rfl
@[simp] theorem softReset_op (s : State)  :
    (softReset s).op = OperandRegs.reset := rfl
@[simp] theorem softReset_hdr (s : State)  :
    (softReset s).hdr = HeaderRegs.reset := rfl
@[simp] theorem softReset_sess (s : State)  :
    (softReset s).sess = SessionRegs.reset := rfl
@[simp] theorem softReset_rx (s : State)  :
    (softReset s).rx = RxRegs.reset := rfl
@[simp] theorem softReset_rtcp (s : State)  :
    (softReset s).rtcp = RtcpRegs.reset := rfl
@[simp] theorem softReset_sr (s : State)  :
    (softReset s).sr = SrRegs.reset := rfl
@[simp] theorem softReset_kdfIdx (s : State)  :
    (softReset s).kdfIdx = 0 := rfl
@[simp] theorem softReset_sk (s : State)  :
    (softReset s).sk = SkRegs.reset := rfl
@[simp] theorem softReset_banks (s : State)  :
    (softReset s).banks = Vector.replicate 16 Ctx.reset := rfl
@[simp] theorem softReset_pb (s : State)  : (softReset s).pb = s.pb := rfl
@[simp] theorem softReset_host (s : State)  : (softReset s).host = s.host := rfl
@[simp] theorem softReset_readData (s : State)  : (softReset s).readData = s.readData := rfl
@[simp] theorem softReset_draws (s : State)  : (softReset s).draws = s.draws := rfl

theorem bank_setBank_self (s : State) (c : BitVec 4) (b : Ctx) : (s.setBank c b).bank c = b := by
  simp [State.bank]

theorem bank_setBank_ne (s : State) {c d : BitVec 4} (b : Ctx) (h : c ≠ d) :
    (s.setBank c b).bank d = s.bank d := by
  have hn : c.toNat ≠ d.toNat := fun e => h (BitVec.eq_of_toNat_eq e)
  simp [State.bank, hn]

/-- Writing one bank and reading any bank. -/
@[simp] theorem bank_setBank (s : State) (c d : BitVec 4) (b : Ctx) :
    (s.setBank c b).bank d = if c = d then b else s.bank d := by
  by_cases h : c = d
  · subst h; simp [bank_setBank_self]
  · simp [h, bank_setBank_ne]

/-- Banks written in another order. -/
theorem setBank_comm (s : State) {c d : BitVec 4} (b e : Ctx) (h : c ≠ d) :
    (s.setBank c b).setBank d e = (s.setBank d e).setBank c b := by
  have hn : c.toNat ≠ d.toNat := fun e => h (BitVec.eq_of_toNat_eq e)
  simp only [State.setBank]
  congr 1
  exact Vector.set_comm _ _ hn

/-- A bank written with what it holds. -/
@[simp] theorem setBank_bank (s : State) (c : BitVec 4) : s.setBank c (s.bank c) = s := by
  have h : s.banks.set c.toNat (s.banks[c.toNat]'c.isLt) c.isLt = s.banks := Vector.set_getElem_self _
  simp only [State.setBank, State.bank, h]

/-- The banks of a state that keeps them. -/
theorem bank_congr {s t : State} (h : t.banks = s.banks) (c : BitVec 4) : t.bank c = s.bank c := by
  simp [State.bank, h]

@[simp] theorem bank_softReset (s : State) (c : BitVec 4) : (softReset s).bank c = Ctx.reset := by
  simp [State.bank]

@[simp] theorem bank_accessError (s : State) (c : BitVec 4) : (accessError s).bank c = s.bank c := rfl

@[simp] theorem bank_reset (c : BitVec 4) : State.reset.bank c = Ctx.reset := by
  simp [State.bank, State.reset]

end Sys2Proof.Machine
end

