-- ==== Sys2Proof/Laws/Ops.lean ====
section
/-! SUPPORT. One lemma for each shared operation of the commands: how a rule ends, that every command is the end of its
rule, and the checks on a context. -/

namespace Sys2Proof.Machine

open Sys2Proof

/-- The rule of each command: the state with its writes applied, or the error it raises. -/
def ruleOf : Instr → State → Except CmdError State
  | .nop, s => .ok s
  | .rtpEncode, s => ruleRtpEncode s
  | .rtpDecode, s => ruleRtpDecode s
  | .sessInit f0 f1, s => .ok { s with
      sess := { s.sess with ssrc := initSsrc s f0, seq := initSeq s f0 f1, txPkts := 0, txOctets := 0 }
      rx := RxRegs.reset, draws := s.draws + f0.toNat + f1.toNat }
  | .sessCreatePacket m, s => ruleSessCreatePacket m s
  | .sessProcessReceived, s => ruleSessProcessReceived s
  | .seqDiff, s => .ok { s with op := { s.op with
      res0 := BitVec.ofInt 32 (sequenceDiff (s.op.arg0.setWidth 16) (s.op.arg1.setWidth 16)) } }
  | .rtcpCreateSr, s => buildAt s (srLen s) (srBytes s) (rxAfterReport s.rx)
  | .rtcpCreateRr, s => buildAt s (rrLen s) (rrBytes s) (rxAfterReport s.rx)
  | .rtcpCreateBye, s => buildAt s 8 (byeBytes s) s.rx
  | .rtcpParse, s => ruleRtcpParse s
  | .ctxInit c, s => ruleCtxInit c s
  | .ctxUpdateKey c, s => ruleCtxUpdateKey c s
  | .ctxTeardown c, s => ruleCtxTeardown c s
  | .kdf c rtcp, s => ruleKdf c rtcp s
  | .srtpTx c, s => ruleSrtpTx c s
  | .srtpRxCheck c, s => ruleSrtpRxCheck c s
  | .srtpRxCommit c authOk, s => ruleSrtpRxCommit c authOk s
  | .srtcpTx c, s => ruleSrtcpTx c s
  | .srtcpRxCheck c, s => ruleSrtcpRxCheck c s
  | .srtcpRxCommit c authOk, s => ruleSrtcpRxCommit c authOk s

/-- Every command is the end of its rule. -/
theorem exec_eq (i : Instr) (s : State) : exec i s = runRule s (ruleOf i s) := by cases i <;> rfl

@[simp] theorem runRule_error (s : State) (e : CmdError) : runRule s (.error e) = .next (raised s e) := rfl

@[simp] theorem runRule_ok (s t : State) : runRule s (.ok t) = .next { t with glob := finishedGlob t.glob } := rfl

/-- The two ways a command ends. -/
theorem exec_next_cases {i : Instr} {s t : State} (h : exec i s = .next t) :
    (∃ e, ruleOf i s = .error e ∧ t = raised s e) ∨
    (∃ u, ruleOf i s = .ok u ∧ t = { u with glob := finishedGlob u.glob }) := by
  rw [exec_eq] at h
  cases hr : ruleOf i s with
  | error e => rw [hr] at h; cases h; exact .inl ⟨e, rfl, rfl⟩
  | ok u => rw [hr] at h; cases h; exact .inr ⟨u, rfl, rfl⟩

/-- A command raises exactly when its rule does. -/
theorem exec_of_error {i : Instr} {s : State} {e : CmdError} (h : ruleOf i s = .error e) : Raises i s e := by
  rw [Raises, exec_eq, h, runRule_error]

theorem exec_of_ok {i : Instr} {s u : State} (h : ruleOf i s = .ok u) :
    exec i s = .next { u with glob := finishedGlob u.glob } := by
  rw [exec_eq, h, runRule_ok]

/-- The state a command that finishes leaves, under a name of its own. -/
theorem exec_finishes {i : Instr} {s u : State} (h : ruleOf i s = .ok u) :
    ∃ t, exec i s = .next t ∧ t = { u with glob := finishedGlob u.glob } := ⟨_, exec_of_ok h, rfl⟩

theorem code_ne_zero (e : CmdError) : e.code ≠ 0 := by cases e <;> decide

theorem code_injective {e e' : CmdError} (h : e.code = e'.code) : e = e' := by
  cases e <;> cases e' <;> first | rfl | exact absurd h (by decide)

@[simp] theorem raised_errcode (s : State) (e : CmdError) : (raised s e).glob.status.errcode = e.code := rfl

@[simp] theorem finishedGlob_errcode (g : GlobalRegs) : (finishedGlob g).status.errcode = 0 := rfl

/-- A command whose completion shows no error finished its rule. -/
theorem exec_finished {i : Instr} {s t : State} (h : exec i s = .next t) (h0 : t.glob.status.errcode = 0) :
    ∃ u, ruleOf i s = .ok u ∧ t = { u with glob := finishedGlob u.glob } := by
  obtain ⟨e, -, rfl⟩ | h := exec_next_cases h
  · exact absurd h0 (code_ne_zero e)
  · exact h

/-- A command raises e exactly when its rule answers e. -/
theorem raises_iff (i : Instr) (s : State) (e : CmdError) : Raises i s e ↔ ruleOf i s = .error e := by
  constructor
  · intro h
    obtain ⟨e', hr, ht⟩ | ⟨u, -, ht⟩ := exec_next_cases h
    · have hc : e.code = e'.code := congrArg (fun t => t.glob.status.errcode) ht
      rw [hr, code_injective hc]
    · exact absurd (congrArg (fun t => t.glob.status.errcode) ht : e.code = 0) (code_ne_zero e)
  · exact exec_of_error

/-- What the context checks answer (60_exceptions.md R305, steps 2 to 4). -/
theorem ctxError_bank {s : State} {c : BitVec 4} {dir : Option Bool} (h : s.params.nCtx ≤ c.toNat) :
    ctxError s c dir = some .invalidParam := by simp [ctxError, h]

theorem ctxError_invalid {s : State} {c : BitVec 4} {dir : Option Bool} (h : c.toNat < s.params.nCtx)
    (hv : (s.bank c).status.valid = false) : ctxError s c dir = some .notInitialized := by
  simp [ctxError, Nat.not_le.mpr h, hv]

theorem ctxError_direction {s : State} {c : BitVec 4} {d : Bool} (h : c.toNat < s.params.nCtx)
    (hv : (s.bank c).status.valid = true) (hd : (s.bank c).cfg.dir ≠ d) :
    ctxError s c (some d) = some .invalidParam := by
  simp [ctxError, Nat.not_le.mpr h, hv, hd]

theorem ctxError_none {s : State} {c : BitVec 4} (h : c.toNat < s.params.nCtx)
    (hv : (s.bank c).status.valid = true) : ctxError s c none = none := by
  simp [ctxError, Nat.not_le.mpr h, hv]

/-- A context that is ready passes every check. -/
theorem ctxError_ready {s : State} {c : BitVec 4} {d : Bool} (h : CtxReady s c d) : ctxError s c (some d) = none := by
  simp [ctxError, Nat.not_le.mpr h.1, h.2.1, h.2.2]

/-- A context that passes the checks exists and is valid. -/
theorem ctxError_eq_none {s : State} {c : BitVec 4} {dir : Option Bool} (h : ctxError s c dir = none) :
    c.toNat < s.params.nCtx ∧ (s.bank c).status.valid = true ∧ ∀ d, dir = some d → (s.bank c).cfg.dir = d := by
  unfold ctxError at h
  split at h
  · cases h
  · split at h
    · cases h
    · cases dir <;> simp_all

/-- The context checks raise InvalidParam or NotInitialized, nothing else. -/
theorem ctxError_some {s : State} {c : BitVec 4} {dir : Option Bool} {e : CmdError} (h : ctxError s c dir = some e) :
    e = .invalidParam ∨ e = .notInitialized := by
  unfold ctxError at h
  repeat' split at h
  all_goals simp_all

/-- The checks of a bank read nothing of another bank. -/
theorem ctxError_setBank_ne {s : State} {c d : BitVec 4} (b : Ctx) (dir : Option Bool) (h : d ≠ c) :
    ctxError (s.setBank c b) d dir = ctxError s d dir := by
  simp [ctxError, Ne.symm h]

end Sys2Proof.Machine
end

