-- ==== Sys2Proof/Laws/Frame.lean ====
section
/-! SUPPORT. What no command changes, said once for all of them: the parameters, the global registers, the host's
accesses, the KDF index, and every bank the command is not about. -/

namespace Sys2Proof.Machine

open Sys2Proof

/-- The fields of State no rule writes (the completion writes the global registers after it). -/
structure RuleFrame (s u : State) : Prop where
  params : u.params = s.params
  glob : u.glob = s.glob
  kdfIdx : u.kdfIdx = s.kdfIdx
  host : u.host = s.host
  readData : u.readData = s.readData

theorem ruleOf_frame {i : Instr} {s u : State} (h : ruleOf i s = .ok u) : RuleFrame s u := by
  cases i <;> simp only [ruleOf] at h
  case nop | sessInit | seqDiff => cases h; exact ⟨rfl, rfl, rfl, rfl, rfl⟩
  case rtpEncode | sessCreatePacket | rtcpCreateSr | rtcpCreateRr | rtcpCreateBye | ctxInit | ctxTeardown =>
    simp only [ruleRtpEncode, ruleSessCreatePacket, buildAt, ruleCtxInit, ruleCtxTeardown] at h
    repeat' split at h
    all_goals first | (cases h; done) | (cases h; exact ⟨rfl, rfl, rfl, rfl, rfl⟩)
  case rtpDecode | sessProcessReceived | rtcpParse | ctxUpdateKey | kdf =>
    simp only [ruleRtpDecode, ruleSessProcessReceived, ruleRtcpParse, ruleCtxUpdateKey, ruleKdf] at h
    repeat' split at h
    all_goals first | (cases h; done) | (cases h; exact ⟨rfl, rfl, rfl, rfl, rfl⟩)
  case srtpTx | srtpRxCheck | srtpRxCommit =>
    simp only [ruleSrtpTx, ruleSrtpRxCheck, ruleSrtpRxCommit] at h
    repeat' split at h
    all_goals first | (cases h; done) | (cases h; exact ⟨rfl, rfl, rfl, rfl, rfl⟩)
  case srtcpTx | srtcpRxCheck | srtcpRxCommit =>
    simp only [ruleSrtcpTx, ruleSrtcpRxCheck, ruleSrtcpRxCommit] at h
    repeat' split at h
    all_goals first | (cases h; done) | (cases h; exact ⟨rfl, rfl, rfl, rfl, rfl⟩)

/-- What a command that finishes does to the bank of its context, with what its checks have shown. -/
inductive BankChange (p : Params) (b : Ctx) (c : BitVec 4) : Instr → Ctx → Prop
  | init (hv : b.status.valid = false) (hw : winLegal p b.winSize = true) : BankChange p b c (.ctxInit c) (initBank p b)
  | updateKey (hv : b.status.valid = true) : BankChange p b c (.ctxUpdateKey c) (updateKeyBank p b)
  | teardown : BankChange p b c (.ctxTeardown c) (teardownBank b)
  | kdf (hv : b.status.valid = true) (rtcp : Bool) : BankChange p b c (.kdf c rtcp) b
  | srtpTx (hv : b.status.valid = true) (v : Nat) (seq : BitVec 16) (he : estimateV b seq = v) (hl : v < 2 ^ 32) :
      BankChange p b c (.srtpTx c) (srtpTxBank b v seq)
  | srtpRxCheck (hv : b.status.valid = true) (v : Nat) (seq : BitVec 16) (he : estimateV b seq = v)
      (hl : v < 2 ^ 32) (hr : replayed (srtpWindow b) (packetIndex v seq) = false) :
      BankChange p b c (.srtpRxCheck c) (srtpCandidate b v seq)
  | srtpRxCommit (hv : b.status.valid = true) (hc : b.status.candValid = true)
      (hr : replayed (srtpWindow b) b.candIndex.toNat = false) :
      BankChange p b c (.srtpRxCommit c true) (srtpCommitBank p b)
  | srtcpTx (hv : b.status.valid = true) (hi : b.rtcpTxIndex.toNat < 2 ^ 31) :
      BankChange p b c (.srtcpTx c) { b with rtcpTxIndex := b.rtcpTxIndex + 1 }
  | srtcpRxCheck (hv : b.status.valid = true) (w : Word)
      (hr : replayed (srtcpWindow b) (w.setWidth 31 : BitVec 31).toNat = false) :
      BankChange p b c (.srtcpRxCheck c) { b with rtcpCand := w, status := { b.status with rtcpCandValid := true } }
  | srtcpRxCommit (hv : b.status.valid = true) (hc : b.status.rtcpCandValid = true)
      (hr : replayed (srtcpWindow b) (b.rtcpCand.setWidth 31 : BitVec 31).toNat = false) :
      BankChange p b c (.srtcpRxCommit c true) (srtcpCommitBank p b)

/-- A command that finishes and is about no context leaves every bank. -/
theorem ruleOf_banks_none {i : Instr} {s u : State} (h : ruleOf i s = .ok u) (hc : contextOf i = none) :
    u.banks = s.banks := by
  cases i <;> simp only [contextOf, reduceCtorEq] at hc <;> simp only [ruleOf] at h
  case nop | sessInit | seqDiff => cases h; rfl
  case rtpEncode | sessCreatePacket | rtcpCreateSr | rtcpCreateRr | rtcpCreateBye =>
    simp only [ruleRtpEncode, ruleSessCreatePacket, buildAt] at h
    repeat' split at h
    all_goals first | (cases h; done) | (cases h; rfl)
  case rtpDecode | sessProcessReceived | rtcpParse =>
    simp only [ruleRtpDecode, ruleSessProcessReceived, ruleRtcpParse] at h
    repeat' split at h
    all_goals first | (cases h; done) | (cases h; rfl)

/-- A command that finishes and is about context c writes at most its bank, and as BankChange says. -/
theorem ruleOf_banks_some {i : Instr} {s u : State} {c : BitVec 4} (h : ruleOf i s = .ok u)
    (hc : contextOf i = some c) :
    c.toNat < s.params.nCtx ∧ ∃ b, BankChange s.params (s.bank c) c i b ∧ u.banks = (s.setBank c b).banks := by
  cases i <;> simp only [contextOf, Option.some.injEq, reduceCtorEq] at hc <;> subst hc <;> simp only [ruleOf] at h
  case ctxInit c =>
    simp only [ruleCtxInit] at h
    split at h
    · cases h
    · split at h
      · cases h
      · split at h
        · cases h
        · split at h
          · cases h
          · cases h; exact ⟨by omega, _, .init (by simp_all) (by simp_all), rfl⟩
  case ctxUpdateKey c =>
    simp only [ruleCtxUpdateKey] at h
    split at h
    · cases h
    · next he => cases h; exact ⟨(ctxError_eq_none he).1, _, .updateKey (ctxError_eq_none he).2.1, rfl⟩
  case ctxTeardown c =>
    simp only [ruleCtxTeardown] at h
    split at h
    · cases h
    · cases h; exact ⟨by omega, _, .teardown, rfl⟩
  case kdf c rtcp =>
    simp only [ruleKdf] at h
    split at h
    · cases h
    · next he =>
      cases h
      exact ⟨(ctxError_eq_none he).1, _, .kdf (ctxError_eq_none he).2.1 rtcp, by rw [setBank_bank]⟩
  case srtpTx c =>
    simp only [ruleSrtpTx] at h
    split at h
    · cases h
    · next he =>
      split at h
      · cases h
      · split at h
        · cases h
        · next ph hp =>
          repeat' split at h
          all_goals first | (cases h; done) | skip
          cases h
          exact ⟨(ctxError_eq_none he).1, _, .srtpTx (ctxError_eq_none he).2.1 _ ph.seq
            (Int.toNat_of_nonneg (by omega)).symm (by omega), rfl⟩
  case srtpRxCheck c =>
    simp only [ruleSrtpRxCheck] at h
    split at h
    · cases h
    · next he =>
      split at h
      · cases h
      · split at h
        · cases h
        · split at h
          · cases h
          · next ph hp =>
            repeat' split at h
            all_goals first | (cases h; done) | skip
            next hr =>
            cases h
            exact ⟨(ctxError_eq_none he).1, _, .srtpRxCheck (ctxError_eq_none he).2.1 _ ph.seq
              (Int.toNat_of_nonneg (by omega)).symm (by omega) (by simpa using hr), rfl⟩
  case srtpRxCommit c authOk =>
    simp only [ruleSrtpRxCommit] at h
    split at h
    · cases h
    · next he =>
      repeat' split at h
      all_goals first | (cases h; done) | skip
      next h1 h2 h3 =>
      cases h
      obtain rfl : authOk = true := by simpa using h2
      exact ⟨(ctxError_eq_none he).1, _, .srtpRxCommit (ctxError_eq_none he).2.1 (by simpa using h1)
        (by simpa using h3), rfl⟩
  case srtcpTx c =>
    simp only [ruleSrtcpTx] at h
    split at h
    · cases h
    · next he =>
      repeat' split at h
      all_goals first | (cases h; done) | skip
      cases h
      exact ⟨(ctxError_eq_none he).1, _, .srtcpTx (ctxError_eq_none he).2.1 (by omega), rfl⟩
  case srtcpRxCheck c =>
    simp only [ruleSrtcpRxCheck] at h
    split at h
    · cases h
    · next he =>
      repeat' split at h
      all_goals first | (cases h; done) | skip
      next hr =>
      cases h
      exact ⟨(ctxError_eq_none he).1, _, .srtcpRxCheck (ctxError_eq_none he).2.1 _ (by simpa using hr), rfl⟩
  case srtcpRxCommit c authOk =>
    simp only [ruleSrtcpRxCommit] at h
    split at h
    · cases h
    · next he =>
      repeat' split at h
      all_goals first | (cases h; done) | skip
      next h1 h2 h3 =>
      cases h
      obtain rfl : authOk = true := by simpa using h2
      exact ⟨(ctxError_eq_none he).1, _, .srtcpRxCommit (ctxError_eq_none he).2.1 (by simpa using h1)
        (by simpa using h3), rfl⟩

/-- What a command that finishes does to any bank: nothing, or what BankChange says of the bank of its context. -/
theorem ruleOf_bank {i : Instr} {s u : State} (h : ruleOf i s = .ok u) (c : BitVec 4) :
    u.bank c = s.bank c ∨ BankChange s.params (s.bank c) c i (u.bank c) := by
  cases hc : contextOf i with
  | none => exact .inl (bank_congr (ruleOf_banks_none h hc) c)
  | some d =>
    obtain ⟨-, b, hb, hu⟩ := ruleOf_banks_some h hc
    have hd := bank_congr (s := s.setBank d b) (t := u) hu c
    by_cases hdc : d = c
    · subst hdc; right; rw [hd, bank_setBank_self]; exact hb
    · left; rw [hd, bank_setBank_ne s b hdc]

/-- A command leaves every bank but that of its context. -/
theorem ruleOf_bank_other {i : Instr} {s u : State} (h : ruleOf i s = .ok u) {c : BitVec 4}
    (hc : contextOf i ≠ some c) : u.bank c = s.bank c := by
  cases hi : contextOf i with
  | none => exact bank_congr (ruleOf_banks_none h hi) c
  | some d =>
    obtain ⟨-, b, -, hu⟩ := ruleOf_banks_some h hi
    rw [bank_congr (s := s.setBank d b) (t := u) hu c, bank_setBank_ne s b (by rintro rfl; exact hc hi)]

end Sys2Proof.Machine
end

