-- ==== Sys2Proof/Laws/Bank.lean ====
section
/-! SUPPORT. A command's rule does the same whatever a bank it is not about holds (20_memory.md R96). -/

namespace Sys2Proof.Machine

open Sys2Proof

/-- A rule's answer with bank `c` replaced. -/
def withBank (c : BitVec 4) (b : Ctx) : Except CmdError State → Except CmdError State
  | .error e => .error e
  | .ok u => .ok (u.setBank c b)

theorem withBank_error (c : BitVec 4) (b : Ctx) (e : CmdError) : withBank c b (.error e) = .error e := rfl

theorem withBank_ok (c : BitVec 4) (b : Ctx) (u : State) : withBank c b (.ok u) = .ok (u.setBank c b) := rfl

theorem withBank_ite (c : BitVec 4) (b : Ctx) (p : Prop) [Decidable p] (x y : Except CmdError State) :
    withBank c b (if p then x else y) = if p then withBank c b x else withBank c b y := by split <;> rfl

theorem ruleRtpEncode_setBank (s : State) (c : BitVec 4) (b : Ctx) :
    ruleRtpEncode (s.setBank c b) = withBank c b (ruleRtpEncode s) := by
  have e1 : encodeHdrLen (s.setBank c b) = encodeHdrLen s := rfl
  have e2 : encodePacket (s.setBank c b) = encodePacket s := rfl
  have e3 : encodeWords (s.setBank c b) = encodeWords s := rfl
  simp only [ruleRtpEncode, withBank_ite, withBank_error, withBank_ok, e1, e2, e3, setBank_op, setBank_hdr,
    setBank_params, setBank_pb]
  rfl

theorem ruleSessCreatePacket_setBank (m : Bool) (s : State) (c : BitVec 4) (b : Ctx) :
    ruleSessCreatePacket m (s.setBank c b) = withBank c b (ruleSessCreatePacket m s) := by
  have e : createdPacket (s.setBank c b) m = createdPacket s m := rfl
  simp only [ruleSessCreatePacket, withBank_ite, withBank_error, withBank_ok, e, setBank_op, setBank_hdr,
    setBank_sess, setBank_params, setBank_pb]
  rfl

theorem ruleRtpDecode_setBank (s : State) (c : BitVec 4) (b : Ctx) :
    ruleRtpDecode (s.setBank c b) = withBank c b (ruleRtpDecode s) := by
  simp only [ruleRtpDecode, withBank_ite, withBank_error, setBank_op, setBank_pb, setBank_params]
  cases parseRtpHeader s.pb s.op.srcAddr.toNat s.op.srcLen.toNat <;> rfl

theorem ruleSessProcessReceived_setBank (s : State) (c : BitVec 4) (b : Ctx) :
    ruleSessProcessReceived (s.setBank c b) = withBank c b (ruleSessProcessReceived s) := by
  simp only [ruleSessProcessReceived, withBank_ite, withBank_error, setBank_op, setBank_pb, setBank_params]
  cases parseRtpHeader s.pb s.op.srcAddr.toNat s.op.srcLen.toNat <;> rfl

theorem buildAt_setBank (s : State) (c : BitVec 4) (b : Ctx) (len : Nat) (bytes : List Byte) (rx : RxRegs) :
    buildAt (s.setBank c b) len bytes rx = withBank c b (buildAt s len bytes rx) := by
  simp only [buildAt, withBank_ite, withBank_error, withBank_ok, setBank_op, setBank_params, setBank_pb]
  rfl

theorem ruleRtcpParse_setBank (s : State) (c : BitVec 4) (b : Ctx) :
    ruleRtcpParse (s.setBank c b) = withBank c b (ruleRtcpParse s) := by
  have hb : ∀ a ch, parseBody (s.setBank c b) a ch = parseBody s a ch := fun _ _ => rfl
  simp only [ruleRtcpParse, withBank_ite, withBank_error, setBank_op, setBank_pb, setBank_params, hb]
  cases parseCommonHeader s.pb s.op.srcAddr.toNat s.op.srcLen.toNat with
  | error => rfl
  | ok ch => cases hp : parseBody s s.op.srcAddr.toNat ch <;> simp only [hp] <;> rfl

/-- The rule of a command that is about no context. -/
theorem ruleOf_setBank_none {i : Instr} (s : State) (c : BitVec 4) (b : Ctx) (hc : contextOf i = none) :
    ruleOf i (s.setBank c b) = withBank c b (ruleOf i s) := by
  cases i <;> simp only [contextOf, reduceCtorEq] at hc <;> simp only [ruleOf]
  case nop | sessInit | seqDiff => rfl
  case rtpEncode => exact ruleRtpEncode_setBank s c b
  case sessCreatePacket => exact ruleSessCreatePacket_setBank _ s c b
  case rtpDecode => exact ruleRtpDecode_setBank s c b
  case sessProcessReceived => exact ruleSessProcessReceived_setBank s c b
  case rtcpCreateSr => exact buildAt_setBank s c b _ _ _
  case rtcpCreateRr => exact buildAt_setBank s c b _ _ _
  case rtcpCreateBye => exact buildAt_setBank s c b _ _ _
  case rtcpParse => exact ruleRtcpParse_setBank s c b

theorem srtpTxDone_setBank {s : State} {c d : BitVec 4} (b : Ctx) (ph : RtpHeader) (v : Nat) (h : d ≠ c) :
    srtpTxDone d (s.setBank c b) ph v = (srtpTxDone d s ph v).setBank c b := by
  simp only [srtpTxDone, bank_setBank_ne _ _ (Ne.symm h), setBank_comm _ _ _ (Ne.symm h)]
  rfl

theorem srtpRxCheckDone_setBank {s : State} {c d : BitVec 4} (b : Ctx) (len : Nat) (ph : RtpHeader) (v : Nat)
    (h : d ≠ c) :
    srtpRxCheckDone d (s.setBank c b) len ph v = (srtpRxCheckDone d s len ph v).setBank c b := by
  simp only [srtpRxCheckDone, bank_setBank_ne _ _ (Ne.symm h), setBank_comm _ _ _ (Ne.symm h)]
  rfl

theorem ruleSrtpTx_setBank {s : State} {c d : BitVec 4} (b : Ctx) (h : d ≠ c) :
    ruleSrtpTx d (s.setBank c b) = withBank c b (ruleSrtpTx d s) := by
  have hl : ∀ x, ctxLens (s.setBank c b) x = ctxLens s x := fun _ => rfl
  simp only [ruleSrtpTx, ctxError_setBank_ne b _ h, bank_setBank_ne _ _ (Ne.symm h), setBank_op, setBank_pb,
    srtpTxDone_setBank b _ _ h, hl]
  cases ctxError s d (some false) with
  | some e => rfl
  | none =>
    cases parseRtpHeader s.pb s.op.srcAddr.toNat s.op.srcLen.toNat <;>
      simp only [withBank_ite, withBank_error, withBank_ok] <;> rfl

theorem ruleSrtpRxCheck_setBank {s : State} {c d : BitVec 4} (b : Ctx) (h : d ≠ c) :
    ruleSrtpRxCheck d (s.setBank c b) = withBank c b (ruleSrtpRxCheck d s) := by
  have hl : ∀ x, ctxLens (s.setBank c b) x = ctxLens s x := fun _ => rfl
  simp only [ruleSrtpRxCheck, ctxError_setBank_ne b _ h, bank_setBank_ne _ _ (Ne.symm h), setBank_op, setBank_pb,
    srtpRxCheckDone_setBank b _ _ _ h, hl]
  cases ctxError s d (some true) with
  | some e => rfl
  | none =>
    cases parseRtpHeader s.pb s.op.srcAddr.toNat
      (s.op.srcLen.toNat - (ctxLens s (s.bank d)).tagLen - mkiLen (s.bank d)) <;>
      simp only [withBank_ite, withBank_error, withBank_ok] <;> rfl

theorem ruleSrtpRxCommit_setBank {s : State} {c d : BitVec 4} (authOk : Bool) (b : Ctx) (h : d ≠ c) :
    ruleSrtpRxCommit d authOk (s.setBank c b) = withBank c b (ruleSrtpRxCommit d authOk s) := by
  simp only [ruleSrtpRxCommit, ctxError_setBank_ne b _ h, bank_setBank_ne _ _ (Ne.symm h), setBank_params,
    setBank_comm _ _ _ (Ne.symm h)]
  cases ctxError s d (some true) with
  | some e => rfl
  | none => simp only [withBank_ite, withBank_error, withBank_ok]; rfl

theorem ruleSrtcpTx_setBank {s : State} {c d : BitVec 4} (b : Ctx) (h : d ≠ c) :
    ruleSrtcpTx d (s.setBank c b) = withBank c b (ruleSrtcpTx d s) := by
  have hl : ∀ x, ctxLens (s.setBank c b) x = ctxLens s x := fun _ => rfl
  have hd : srtcpTxDone d (s.setBank c b) = (srtcpTxDone d s).setBank c b := by
    simp only [srtcpTxDone, bank_setBank_ne _ _ (Ne.symm h), setBank_comm _ _ _ (Ne.symm h)]; rfl
  simp only [ruleSrtcpTx, ctxError_setBank_ne b _ h, bank_setBank_ne _ _ (Ne.symm h), setBank_op, setBank_pb, hl, hd]
  cases ctxError s d (some false) with
  | some e => rfl
  | none => simp only [withBank_ite, withBank_error, withBank_ok]; rfl

theorem ruleSrtcpRxCheck_setBank {s : State} {c d : BitVec 4} (b : Ctx) (h : d ≠ c) :
    ruleSrtcpRxCheck d (s.setBank c b) = withBank c b (ruleSrtcpRxCheck d s) := by
  have hl : ∀ x, ctxLens (s.setBank c b) x = ctxLens s x := fun _ => rfl
  have hd : ∀ len w, srtcpRxCheckDone d (s.setBank c b) len w = (srtcpRxCheckDone d s len w).setBank c b := by
    intro len w
    simp only [srtcpRxCheckDone, bank_setBank_ne _ _ (Ne.symm h), setBank_comm _ _ _ (Ne.symm h)]; rfl
  simp only [ruleSrtcpRxCheck, ctxError_setBank_ne b _ h, bank_setBank_ne _ _ (Ne.symm h), setBank_op, setBank_pb, hl,
    hd]
  cases ctxError s d (some true) with
  | some e => rfl
  | none => simp only [withBank_ite, withBank_error, withBank_ok]; rfl

theorem ruleSrtcpRxCommit_setBank {s : State} {c d : BitVec 4} (authOk : Bool) (b : Ctx) (h : d ≠ c) :
    ruleSrtcpRxCommit d authOk (s.setBank c b) = withBank c b (ruleSrtcpRxCommit d authOk s) := by
  simp only [ruleSrtcpRxCommit, ctxError_setBank_ne b _ h, bank_setBank_ne _ _ (Ne.symm h), setBank_params,
    setBank_comm _ _ _ (Ne.symm h)]
  cases ctxError s d (some true) with
  | some e => rfl
  | none => simp only [withBank_ite, withBank_error, withBank_ok]; rfl

theorem ruleCtxInit_setBank {s : State} {c d : BitVec 4} (b : Ctx) (h : d ≠ c) :
    ruleCtxInit d (s.setBank c b) = withBank c b (ruleCtxInit d s) := by
  simp only [ruleCtxInit, bank_setBank_ne _ _ (Ne.symm h), setBank_params, setBank_comm _ _ _ (Ne.symm h),
    withBank_ite, withBank_error, withBank_ok]

theorem ruleCtxTeardown_setBank {s : State} {c d : BitVec 4} (b : Ctx) (h : d ≠ c) :
    ruleCtxTeardown d (s.setBank c b) = withBank c b (ruleCtxTeardown d s) := by
  simp only [ruleCtxTeardown, bank_setBank_ne _ _ (Ne.symm h), setBank_params, setBank_comm _ _ _ (Ne.symm h),
    withBank_ite, withBank_error, withBank_ok]
  rfl

/-- The rule of a command that is about another context. -/
theorem ruleOf_setBank_some {i : Instr} {s : State} {c d : BitVec 4} (b : Ctx) (hi : contextOf i = some d)
    (h : d ≠ c) : ruleOf i (s.setBank c b) = withBank c b (ruleOf i s) := by
  cases i <;> simp only [contextOf, Option.some.injEq, reduceCtorEq] at hi <;> subst hi <;> simp only [ruleOf]
  case ctxInit => exact ruleCtxInit_setBank b h
  case ctxTeardown => exact ruleCtxTeardown_setBank b h
  case ctxUpdateKey | kdf =>
    simp only [ruleCtxUpdateKey, ruleKdf, ctxError_setBank_ne b _ h, bank_setBank_ne _ _ (Ne.symm h), setBank_params,
      setBank_comm _ _ _ (Ne.symm h)]
    split <;> rfl
  case srtpTx => exact ruleSrtpTx_setBank b h
  case srtpRxCheck => exact ruleSrtpRxCheck_setBank b h
  case srtpRxCommit => exact ruleSrtpRxCommit_setBank _ b h
  case srtcpTx => exact ruleSrtcpTx_setBank b h
  case srtcpRxCheck => exact ruleSrtcpRxCheck_setBank b h
  case srtcpRxCommit => exact ruleSrtcpRxCommit_setBank _ b h

end Sys2Proof.Machine
end

