-- ==== Sys2Proof/Laws/Memory.lean ====
section
/-! SUPPORT. The packet buffer: a read after a write, the canonical form every memory operation keeps, and byte strings
as numbers. -/

namespace Sys2Proof.Machine

open Sys2Proof

/-- A lookup after a write of one byte. -/
theorem memLookup_writeByte (m : Memory) (a : Nat) (v : Byte) (b : Nat) :
    memLookup (memWriteByte m a v) b = if b = a then some v else memLookup m b := by
  induction m with
  | nil => simp only [memWriteByte, memLookup]; grind
  | cons x t ih =>
    obtain ⟨k, w⟩ := x
    simp only [memWriteByte]
    split
    · simp only [memLookup]; grind
    · split
      · simp only [memLookup]; grind
      · simp only [memLookup, ih]; grind

/-- A read after a write of one byte. -/
theorem memByte_writeByte (m : Memory) (a : Nat) (v : Byte) (b : Nat) :
    memByte (memWriteByte m a v) b = if b = a then v else memByte m b := by
  simp only [memByte, memLookup_writeByte]
  split <;> simp

/-- A read after a write of a byte string: the string's byte inside it, the old byte outside. -/
theorem memByte_writeBytes (m : Memory) (a : Nat) (bs : List Byte) (b : Nat) :
    memByte (memWriteBytes m a bs) b =
      if a ≤ b ∧ b < a + bs.length then bs.getD (b - a) 0 else memByte m b := by
  induction bs generalizing m a with
  | nil => simp only [memWriteBytes, List.length_nil]; grind
  | cons v t ih =>
    simp only [memWriteBytes, ih, memByte_writeByte, List.length_cons]
    by_cases h : b = a
    · subst h; simp
    · by_cases h2 : a + 1 ≤ b ∧ b < a + 1 + t.length
      · have : b - a = b - (a + 1) + 1 := by omega
        rw [if_pos h2, if_pos (by omega), this, List.getD_cons_succ]
      · rw [if_neg h2, if_neg h, if_neg (by omega)]

/-- Inside a written string. -/
theorem memByte_writeBytes_in (m : Memory) (a : Nat) (bs : List Byte) (k : Nat) (h : k < bs.length) :
    memByte (memWriteBytes m a bs) (a + k) = bs.getD k 0 := by
  rw [memByte_writeBytes, if_pos (by omega), Nat.add_sub_cancel_left]

/-- Outside a written string. -/
theorem memByte_writeBytes_out (m : Memory) (a : Nat) (bs : List Byte) (b : Nat) (h : b < a ∨ a + bs.length ≤ b) :
    memByte (memWriteBytes m a bs) b = memByte m b := by
  rw [memByte_writeBytes, if_neg (by omega)]

/-- Writing one byte keeps the addresses inside a bound. -/
theorem memWriteByte_bound (m : Memory) (a : Nat) (v : Byte) (n : Nat) (hm : ∀ x ∈ m, x.1 < n) (ha : a < n) :
    ∀ x ∈ memWriteByte m a v, x.1 < n := by
  induction m with
  | nil => simp [memWriteByte, ha]
  | cons y t ih =>
    obtain ⟨k, w⟩ := y
    have ht : ∀ x ∈ t, x.1 < n := fun x hx => hm x (List.mem_cons_of_mem _ hx)
    have hk : k < n := hm (k, w) List.mem_cons_self
    intro x
    simp only [memWriteByte]
    split
    · simp only [List.mem_cons]; rintro (rfl | rfl | h)
      exacts [ha, hk, ht x h]
    · split
      · simp only [List.mem_cons]; rintro (rfl | h)
        exacts [ha, ht x h]
      · simp only [List.mem_cons]; rintro (rfl | h)
        exacts [hk, ih ht x h]

/-- The addresses after a write of one byte. -/
theorem mem_writeByte_addr (m : Memory) (a : Nat) (v : Byte) (x : Host.Cell) (h : x ∈ memWriteByte m a v) :
    x.1 = a ∨ x ∈ m := by
  induction m with
  | nil => simp_all [memWriteByte]
  | cons y t ih =>
    obtain ⟨k, w⟩ := y
    simp only [memWriteByte] at h
    split at h
    · simp only [List.mem_cons] at h ⊢; grind
    · split at h
      · simp only [List.mem_cons] at h ⊢; grind
      · simp only [List.mem_cons] at h ⊢; grind

/-- Writing one byte keeps the canonical form. -/
theorem memWriteByte_wf (m : Memory) (a : Nat) (v : Byte) (hm : m.wf) : Memory.wf (memWriteByte m a v) := by
  induction m with
  | nil => simp [memWriteByte, Memory.wf]
  | cons y t ih =>
    obtain ⟨k, w⟩ := y
    obtain ⟨hk, ht⟩ := List.pairwise_cons.mp hm
    simp only [memWriteByte]
    split
    · refine List.pairwise_cons.mpr ⟨fun x hx => ?_, hm⟩
      rcases List.mem_cons.mp hx with rfl | hx
      · assumption
      · have := hk x hx; simp only at this ⊢; omega
    · split
      · refine List.pairwise_cons.mpr ⟨fun x hx => ?_, ht⟩
        have := hk x hx; simp only at this ⊢; omega
      · refine List.pairwise_cons.mpr ⟨fun x hx => ?_, ih ht⟩
        rcases mem_writeByte_addr t a v x hx with h | h
        · simp only at h ⊢; omega
        · exact hk x h

/-- Writing a byte string keeps the canonical form. -/
theorem memWriteBytes_wf (m : Memory) (a : Nat) (bs : List Byte) (hm : m.wf) : Memory.wf (memWriteBytes m a bs) := by
  induction bs generalizing m a with
  | nil => exact hm
  | cons v t ih => exact ih _ _ (memWriteByte_wf m a v hm)

/-- Writing a byte string inside a bound keeps the addresses inside it. -/
theorem memWriteBytes_bound (m : Memory) (a : Nat) (bs : List Byte) (n : Nat) (hm : ∀ x ∈ m, x.1 < n)
    (ha : a + bs.length ≤ n) : ∀ x ∈ memWriteBytes m a bs, x.1 < n := by
  induction bs generalizing m a with
  | nil => exact hm
  | cons v t ih =>
    simp only [List.length_cons] at ha
    exact ih _ _ (memWriteByte_bound m a v n hm (by omega)) (by omega)

@[simp] theorem memBytes_length (m : Memory) (a n : Nat) : (memBytes m a n).length = n := by
  induction n generalizing a with
  | zero => rfl
  | succ n ih => simp [memBytes, ih]

/-- A byte of a string read from the buffer. -/
theorem memBytes_getD (m : Memory) (a n k : Nat) (h : k < n) : (memBytes m a n).getD k 0 = memByte m (a + k) := by
  induction n generalizing a k with
  | zero => omega
  | succ n ih =>
    cases k with
    | zero => simp [memBytes]
    | succ k =>
      simp only [memBytes, List.getD_cons_succ]
      rw [ih _ _ (by omega)]; congr 1; omega

/-- Two buffers with the same bytes in a range read the same string there. -/
theorem memBytes_congr (m m' : Memory) (a n : Nat) (h : ∀ k, k < n → memByte m' (a + k) = memByte m (a + k)) :
    memBytes m' a n = memBytes m a n := by
  induction n generalizing a with
  | zero => rfl
  | succ n ih =>
    simp only [memBytes]
    have h0 := h 0 (by omega)
    simp only [Nat.add_zero] at h0
    rw [h0, ih (a + 1) (fun k hk => by
      have := h (k + 1) (by omega)
      rwa [show a + (k + 1) = a + 1 + k by omega] at this)]

/-- Two buffers with the same bytes in a range read the same number there. -/
theorem memRead_congr (m m' : Memory) (a n : Nat) (h : ∀ k, k < n → memByte m' (a + k) = memByte m (a + k)) :
    memRead m' a n = memRead m a n := by
  rw [memRead, memRead, memBytes_congr m m' a n h]

/-- Two buffers with the same four bytes read the same word there. -/
theorem memWord_congr (m m' : Memory) (a : Nat) (h : ∀ k, k < 4 → memByte m' (a + k) = memByte m (a + k)) :
    memWord m' a = memWord m a := by
  rw [memWord, memWord, memRead_congr m m' a 4 h]

@[simp] theorem beBytes_length (n v : Nat) : (beBytes n v).length = n := by
  induction n with
  | zero => rfl
  | succ n ih => simp [beBytes, ih]

@[simp] theorem wordBytes_length (w : Word) : (wordBytes w).length = 4 := beBytes_length 4 _

/-- A string read back where it was written. -/
theorem memBytes_writeBytes (m : Memory) (a : Nat) (bs : List Byte) :
    memBytes (memWriteBytes m a bs) a bs.length = bs := by
  apply List.ext_getElem (by simp)
  intro k h1 h2
  have h := memBytes_getD (memWriteBytes m a bs) a bs.length k h2
  rw [memByte_writeBytes_in m a bs k h2] at h
  simpa [List.getD_eq_getElem?_getD, h1, h2] using h

/-- The accumulator of a big-endian fold. -/
theorem bytesToNat_foldl (bs : List Byte) (acc : Nat) :
    bs.foldl (fun acc b => acc * 256 + b.toNat) acc = acc * 256 ^ bs.length + bytesToNat bs := by
  unfold bytesToNat
  induction bs generalizing acc with
  | nil => simp
  | cons b t ih =>
    simp only [List.foldl_cons, List.length_cons]
    rw [ih, ih (0 * 256 + b.toNat), Nat.pow_succ]; ring

theorem bytesToNat_cons (b : Byte) (bs : List Byte) :
    bytesToNat (b :: bs) = b.toNat * 256 ^ bs.length + bytesToNat bs := by
  rw [bytesToNat, List.foldl_cons, bytesToNat_foldl]; simp

/-- A number's big-endian bytes read back as the number, modulo their width. -/
theorem bytesToNat_beBytes (n v : Nat) : bytesToNat (beBytes n v) = v % 256 ^ n := by
  induction n with
  | zero => simp [beBytes, bytesToNat, Nat.mod_one]
  | succ n ih =>
    have h : v % 256 ^ (n + 1) = v % 256 ^ n + 256 ^ n * (v / 256 ^ n % 256) := by rw [Nat.pow_succ, Nat.mod_mul]
    rw [beBytes, bytesToNat_cons, ih, beBytes_length, BitVec.toNat_ofNat, h, Nat.mul_comm, Nat.add_comm]

@[simp] theorem bytesToNat_wordBytes (w : Word) : bytesToNat (wordBytes w) = w.toNat := by
  rw [wordBytes, bytesToNat_beBytes]; exact Nat.mod_eq_of_lt w.isLt

/-- The bytes of a big-endian string after the first. -/
theorem bytesToNat_append (xs ys : List Byte) :
    bytesToNat (xs ++ ys) = bytesToNat xs * 256 ^ ys.length + bytesToNat ys := by
  rw [bytesToNat, List.foldl_append, bytesToNat_foldl]; rfl

end Sys2Proof.Machine
end

