-- ==== Sys2Proof/Laws/Wire.lean ====
section
/-! SUPPORT. One lemma for each operation of the wire formats: what a parse answers, how long a built string is, and
what a string written to the buffer reads back as, part by part. -/

namespace Sys2Proof.Machine

open Sys2Proof

/-- A part of a written string read back. -/
theorem memBytes_writeBytes_mid (m : Memory) (a : Nat) (xs ys zs : List Byte) :
    memBytes (memWriteBytes m a (xs ++ (ys ++ zs))) (a + xs.length) ys.length = ys := by
  apply List.ext_getElem (by simp)
  intro k h1 h2
  have h := memBytes_getD (memWriteBytes m a (xs ++ (ys ++ zs))) (a + xs.length) ys.length k h2
  rw [Nat.add_assoc, memByte_writeBytes_in m a _ _ (by simp; omega)] at h
  simp only [List.getD_eq_getElem?_getD, List.getElem?_eq_getElem h1, Option.getD_some] at h
  rw [h, List.getElem?_append_right (by omega), Nat.add_sub_cancel_left, List.getElem?_append_left h2]
  simp [h2]

/-- A number written big-endian inside a string reads back. -/
theorem memRead_writeBytes_mid (m : Memory) (a n v : Nat) (xs zs : List Byte) :
    memRead (memWriteBytes m a (xs ++ (beBytes n v ++ zs))) (a + xs.length) n = v % 256 ^ n := by
  have h := memBytes_writeBytes_mid m a xs (beBytes n v) zs
  rw [beBytes_length] at h
  rw [memRead, h, bytesToNat_beBytes]

/-- A word written inside a string reads back. -/
theorem memWord_writeBytes_mid (m : Memory) (a : Nat) (w : Word) (xs zs : List Byte) :
    memWord (memWriteBytes m a (xs ++ (wordBytes w ++ zs))) (a + xs.length) = w := by
  rw [memWord, wordBytes, memRead_writeBytes_mid, Nat.mod_eq_of_lt (by exact w.isLt)]
  simp

/-- Bytes outside a written string. -/
theorem memBytes_writeBytes_out (m : Memory) (a n b : Nat) (bs : List Byte) (h : b + n ≤ a ∨ a + bs.length ≤ b) :
    memBytes (memWriteBytes m a bs) b n = memBytes m b n :=
  memBytes_congr _ _ _ _ fun k _ => memByte_writeBytes_out _ _ _ _ (by omega)

/-- Length of a list of words on the wire. -/
theorem flatMap_wordBytes_length (ws : List Word) : (ws.flatMap wordBytes).length = 4 * ws.length := by
  induction ws with
  | nil => rfl
  | cons w t ih => simp [List.flatMap_cons, ih]; omega

/-- Length of a header extension whose raw bytes fit its words (R112, R151). -/
theorem extensionBytes_length (prof : BitVec 16) (words : Nat) (raw : List Byte) (h : raw.length ≤ 4 * words) :
    (extensionBytes prof words raw).length = 4 + 4 * words := by simp [extensionBytes]; omega

/-- Length of an RTP header (R113). -/
theorem rtpHeaderBytes_length (p x m : Bool) (pt : BitVec 7) (seq : BitVec 16) (ts ssrc : Word) (csrc : List Word)
    (prof : BitVec 16) (words : Nat) (raw : List Byte) (h : raw.length ≤ 4 * words) :
    (rtpHeaderBytes p x m pt seq ts ssrc csrc prof words raw).length = hdrLenOf x csrc.length words := by
  unfold rtpHeaderBytes hdrLenOf
  cases x <;> simp [extensionBytes_length, h] <;> omega

/-- The raw extension bytes fit the extension's words (R152). -/
theorem encodeRaw_fits (s : State) : (encodeRaw s).length ≤ 4 * encodeWords s := by
  unfold encodeRaw encodeWords
  split
  · simp; omega
  · simp

/-- The CSRCs RTP_ENCODE writes are CC many (R111). -/
theorem encodeCsrc_length (s : State) : (s.hdr.csrc.toList.take (b01Cc s.hdr.b01)).length = b01Cc s.hdr.b01 := by
  have h : b01Cc s.hdr.b01 < 16 := (s.hdr.b01.extractLsb' 8 4).isLt
  simp; omega

/-- The header RTP_ENCODE builds is as long as R113 says. -/
theorem encodeHdrLen_eq (s : State) :
    encodeHdrLen s = hdrLenOf (b01X s.hdr.b01) (b01Cc s.hdr.b01) (encodeWords s) := rfl

theorem encodePacket_length (s : State) : (encodePacket s).length = encodeHdrLen s + s.op.srcLen.toNat := by
  rw [encodePacket, List.length_append, memBytes_length,
    rtpHeaderBytes_length _ _ _ _ _ _ _ _ _ _ _ (encodeRaw_fits s), encodeCsrc_length, encodeHdrLen_eq]

theorem createdPacket_length (s : State) (m : Bool) : (createdPacket s m).length = 12 + s.op.srcLen.toNat := by
  rw [createdPacket, List.length_append, memBytes_length, rtpHeaderBytes_length _ _ _ _ _ _ _ _ _ _ _ (by simp)]
  rfl

@[simp] theorem commonHeaderBytes_length (count pt lenWords : Nat) :
    (commonHeaderBytes count pt lenWords).length = 4 := by simp [commonHeaderBytes]

@[simp] theorem reportBlockBytes_length (s : State) : (reportBlockBytes s).length = 24 := by simp [reportBlockBytes]

theorem reportBlocks_length (s : State) : (reportBlocks s).length = 24 * s.rx.state.rxValid.toNat := by
  unfold reportBlocks; cases s.rx.state.rxValid <;> simp

theorem srBytes_length (s : State) : (srBytes s).length = srLen s := by
  simp [srBytes, srLen, reportBlocks_length]; omega

theorem rrBytes_length (s : State) : (rrBytes s).length = rrLen s := by
  simp [rrBytes, rrLen, reportBlocks_length]; omega

@[simp] theorem byeBytes_length (s : State) : (byeBytes s).length = 8 := by simp [byeBytes]

/-- Building a packet at DST_ADDR: its three outcomes (R195 to R197). -/
theorem buildAt_eq (s : State) (len : Nat) (bytes : List Byte) (rx : RxRegs) :
    buildAt s len bytes rx =
      if ¬ InRange s s.op.dstAddr s.op.dstCap then .error .invalidParam
      else if s.op.dstCap.toNat < len then .error .bufferTooSmall
      else .ok { s with
        pb := memWriteBytes s.pb s.op.dstAddr.toNat bytes, op := { s.op with resLen := u32 len }, rx := rx } := rfl

/-- The header of a packet that fits, in the words of the wire format (R110 to R113). -/
def rtpHeaderOf (m : Memory) (base : Nat) : RtpHeader :=
  rtpHeaderAt m base (rtpCc m base) (rtpX m base)
    (if rtpX m base then BitVec.ofNat 16 (memRead m (rtpExtAddr m base) 2) else 0)
    (BitVec.ofNat 16 (rtpWords m base)) (if rtpX m base then rtpExtAddr m base + 4 else 0) (rtpHdrLen m base)

theorem cc_eq (b : Byte) : (b.extractLsb' 0 4).toNat = b.toNat % 16 := by
  simp [BitVec.extractLsb'_toNat]

theorem version_ne (b : Byte) : (b.extractLsb' 6 2 ≠ 2) ↔ b.toNat / 64 ≠ 2 := by
  have h := b.isLt
  rw [← BitVec.toNat_inj.ne]
  simp [BitVec.extractLsb'_toNat, Nat.shiftRight_eq_div_pow]
  omega

theorem xbit_eq (b : Byte) : b.getLsbD 4 = (b.toNat / 16 % 2 == 1) := by
  rw [BitVec.getLsbD, Nat.testBit, Nat.shiftRight_eq_div_pow]
  simp [Nat.and_comm 1, Nat.and_one_is_mod]

/-- ParseRtpHeader answers the packet's header when its checks pass, and InvalidPacket when one fails (R150). -/
theorem parseRtpHeader_eq (m : Memory) (base len : Nat) :
    parseRtpHeader m base len = if RtpFits m base len then .ok (rtpHeaderOf m base) else .error .invalidPacket := by
  have hx : (memByte m base).getLsbD 4 = rtpX m base := xbit_eq _
  have hcc : ((memByte m base).extractLsb' 0 4).toNat = rtpCc m base := cc_eq _
  unfold parseRtpHeader
  simp only [hx, hcc]
  by_cases h1 : len < 12
  · rw [if_pos h1, if_neg (by intro h; omega)]
  rw [if_neg h1]
  by_cases h2 : (memByte m base).toNat / 64 = 2
  case neg => rw [if_pos ((version_ne _).mpr h2), if_neg (by intro h; exact h2 h.2.1)]
  rw [if_neg (by rw [version_ne]; simpa using h2)]
  by_cases h3 : len < 12 + 4 * rtpCc m base
  · rw [if_pos h3, if_neg (by intro h; omega)]
  rw [if_neg h3]
  unfold RtpFits rtpHeaderOf rtpHdrLen rtpWords rtpExtAddr hdrLenOf
  cases rtpX m base with
  | false => simp; omega
  | true =>
    simp only [if_true, forall_const, Nat.add_assoc]
    by_cases h4 : len < 12 + (4 * rtpCc m base + 4)
    · rw [if_pos h4, if_neg (by omega)]
    · rw [if_neg h4]
      split
      · rw [if_neg (by omega)]
      · rw [if_pos (by omega)]

/-- What ParseCommonHeader returns for a packet that fits (R200). -/
def rtcpCommonOf (m : Memory) (base : Nat) : RtcpCommon :=
  { h := memWord m base, count := rtcpCount m base, pt := rtcpPt m base, plen := rtcpPlen m base }

theorem memRead_lt (m : Memory) (a n : Nat) : memRead m a n < 256 ^ n := by
  unfold memRead
  induction n generalizing a with
  | zero => simp [memBytes, bytesToNat]
  | succ n ih =>
    rw [memBytes, bytesToNat_cons, memBytes_length, Nat.pow_succ]
    have := (memByte m a).isLt
    have := ih (a + 1)
    nlinarith

theorem memWord_toNat (m : Memory) (a : Nat) : (memWord m a).toNat = memRead m a 4 := by
  rw [memWord, BitVec.toNat_ofNat]; exact Nat.mod_eq_of_lt (memRead_lt m a 4)

/-- ParseCommonHeader answers the packet's header when its checks pass, and InvalidPacket when one fails (R200). -/
theorem parseCommonHeader_eq (m : Memory) (base len : Nat) :
    parseCommonHeader m base len =
      if RtcpFits m base len then .ok (rtcpCommonOf m base) else .error .invalidPacket := by
  have hl := memRead_lt m base 4
  have hp : ((memWord m base).extractLsb' 0 16).toNat = memRead m base 4 % 2 ^ 16 := by
    simp [BitVec.extractLsb'_toNat, memWord_toNat]
  have hv : ((memWord m base).extractLsb' 30 2 ≠ 2) ↔ rtcpVersion m base ≠ 2 := by
    rw [← BitVec.toNat_inj.ne]
    simp [BitVec.extractLsb'_toNat, memWord_toNat, Nat.shiftRight_eq_div_pow, rtcpVersion]
    omega
  have hc : ((memWord m base).extractLsb' 24 5).toNat = rtcpCount m base := by
    simp [BitVec.extractLsb'_toNat, memWord_toNat, Nat.shiftRight_eq_div_pow, rtcpCount]
  have ht : ((memWord m base).extractLsb' 16 8).toNat = rtcpPt m base := by
    simp [BitVec.extractLsb'_toNat, memWord_toNat, Nat.shiftRight_eq_div_pow, rtcpPt]
  unfold parseCommonHeader
  simp only [hp, hc, ht]
  by_cases h1 : len < 4
  · rw [if_pos h1, if_neg (by intro h; omega)]
  rw [if_neg h1]
  by_cases h2 : rtcpVersion m base = 2
  case neg => rw [if_pos (hv.mpr h2), if_neg (by intro h; exact h2 h.2.1)]
  rw [if_neg (by rw [hv]; simpa using h2)]
  by_cases h3 : rtcpPlen m base ≤ len
  · rw [if_neg (by unfold rtcpPlen at h3; omega), if_pos ⟨by omega, h2, h3⟩]; rfl
  · rw [if_pos (by unfold rtcpPlen at h3; omega), if_neg (by intro h; exact h3 h.2.2)]

/-- A part of a written string reads back, with the address and the split given. -/
theorem memBytes_part (m : Memory) (a b n : Nat) (bs xs ys zs : List Byte) (h : bs = xs ++ (ys ++ zs))
    (hb : b = a + xs.length) (hn : n = ys.length) : memBytes (memWriteBytes m a bs) b n = ys := by
  subst h hb hn; exact memBytes_writeBytes_mid _ _ _ _ _

/-- A word of a written string reads back, with the address and the split given. -/
theorem memWord_part (m : Memory) (a b : Nat) (w : Word) (bs xs zs : List Byte)
    (h : bs = xs ++ (wordBytes w ++ zs)) (hb : b = a + xs.length) : memWord (memWriteBytes m a bs) b = w := by
  subst h hb; exact memWord_writeBytes_mid _ _ _ _ _

/-- A number of a written string reads back, with the address and the split given. -/
theorem memRead_part (m : Memory) (a b n v : Nat) (bs xs zs : List Byte) (h : bs = xs ++ (beBytes n v ++ zs))
    (hb : b = a + xs.length) (hv : v < 256 ^ n) : memRead (memWriteBytes m a bs) b n = v := by
  subst h hb; rw [memRead_writeBytes_mid, Nat.mod_eq_of_lt hv]

/-- A byte of a written string reads back. -/
theorem memByte_part (m : Memory) (a k : Nat) (bs : List Byte) (b : Byte) (h : bs[k]? = some b) :
    memByte (memWriteBytes m a bs) (a + k) = b := by
  have hk : k < bs.length := by by_contra hc; rw [List.getElem?_eq_none (by omega)] at h; cases h
  rw [memByte_writeBytes_in _ _ _ _ hk, List.getD_eq_getElem?_getD, h]; rfl

/-- NTP short format, in the terms claims use (R122). -/
theorem ntpShort_eq (msw lsw : Word) : ntpShort msw lsw = midNtp msw lsw := by
  apply BitVec.eq_of_getLsbD_eq
  intro i hi
  simp only [ntpShort, midNtp, BitVec.getLsbD_append, BitVec.getLsbD_or, BitVec.getLsbD_shiftLeft,
    BitVec.getLsbD_ushiftRight, BitVec.getLsbD_extractLsb']
  by_cases h : i < 16
  · simp [h]
  · have h2 : 32 ≤ 16 + i := by omega
    simp [h, hi, BitVec.getLsbD_of_ge _ _ h2]; omega

theorem nowShort_eq (s : State) : nowShort s = sessionNow s := ntpShort_eq _ _

/-- The extended highest sequence number, in the terms claims use (R191). -/
theorem extMax_eq (rx : RxRegs) : extMax rx = extHighest rx := by
  apply BitVec.eq_of_getLsbD_eq
  intro i hi
  simp only [extMax, extHighest, BitVec.getLsbD_append, BitVec.getLsbD_or, BitVec.getLsbD_shiftLeft,
    BitVec.getLsbD_setWidth]
  by_cases h : i < 16
  · simp [h, hi]
  · have h2 : i - 16 < 32 := by omega
    simp [h, hi, h2, BitVec.getLsbD_of_ge rx.maxSeq i (by omega)]

theorem expectedCount_eq (rx : RxRegs) : expectedCount rx = packetsExpected rx := by
  unfold expectedCount packetsExpected; rw [extMax_eq]

theorem rxAfterReport_eq (rx : RxRegs) : rxAfterReport rx = intervalStarted rx := by
  unfold rxAfterReport intervalStarted startInterval; rw [expectedCount_eq]

/-- Clamp24 as a bound on both sides (R192). -/
theorem clamp24_eq (n : Int) : clamp24 n = max (-2 ^ 23) (min (2 ^ 23 - 1) n) := by
  unfold clamp24; split_ifs <;> omega

/-- Fraction as a number (R193). -/
theorem lossFraction_eq (e l : Int) :
    (lossFraction e l : Int) = if 0 < e ∧ 0 < l then min 255 (l * 256 / e) else 0 := by
  unfold lossFraction
  split
  · rw [if_neg (by omega)]; rfl
  · rw [if_pos (by omega)]
    have h : 0 ≤ l * 256 / e := Int.ediv_nonneg (by omega) (by omega)
    omega

/-- A report block written inside a string tells the statistics (R191 to R194). -/
theorem showsBlock_part (s : State) (m : Memory) (a b : Nat) (bs xs zs : List Byte)
    (h : bs = xs ++ (reportBlockBytes s ++ zs)) (hb : b = a + xs.length) : ShowsBlock (memWriteBytes m a bs) b s := by
  subst hb
  have hf : blockFraction s.rx < 256 := by unfold blockFraction lossFraction; dsimp only; split <;> omega
  have hl := (BitVec.ofInt 24 (lostCount s.rx)).isLt
  have hj : s.rx.jitter16.toNat / 16 = (s.rx.jitter16 >>> 4).toNat := by simp [Nat.shiftRight_eq_div_pow]
  have hd : dlsr s = if s.rx.state.lsrValid then sessionNow s - s.rx.lsrArrival else 0 := by
    unfold dlsr; rw [nowShort_eq]
  simp only [reportBlockBytes, List.append_assoc, hj] at h
  constructor
  · exact memWord_part _ _ _ _ _ xs _ h rfl
  · intro e l he hlo
    have hr := memRead_part m a (a + xs.length + 4) 1 (blockFraction s.rx) bs (xs ++ wordBytes s.rx.ssrc) _
      (by rw [h]; simp only [List.append_assoc]; rfl) (by simp; omega) (by simpa using hf)
    rw [memRead, memBytes, memBytes, bytesToNat_cons] at hr
    simp [bytesToNat] at hr
    rw [hr, ← lossFraction_eq]
    unfold blockFraction; rw [expectedCount_eq]; subst he hlo; rfl
  · rw [memRead_part m a (a + xs.length + 5) 3 _ bs (xs ++ wordBytes s.rx.ssrc ++ beBytes 1 (blockFraction s.rx)) _
      (by rw [h]; simp only [List.append_assoc]; rfl) (by simp; omega) (by simpa using hl), BitVec.ofNat_toNat,
      BitVec.setWidth_eq, lostCount, clamp24_eq, expectedCount_eq]
  · rw [← extMax_eq]
    exact memWord_part _ _ _ _ _ (xs ++ wordBytes s.rx.ssrc ++ beBytes 1 (blockFraction s.rx) ++
      beBytes 3 (BitVec.ofInt 24 (lostCount s.rx)).toNat) _ (by rw [h]; simp only [List.append_assoc]; rfl)
      (by simp; omega)
  · exact memWord_part _ _ _ _ _ (xs ++ wordBytes s.rx.ssrc ++ beBytes 1 (blockFraction s.rx) ++
      beBytes 3 (BitVec.ofInt 24 (lostCount s.rx)).toNat ++ wordBytes (extMax s.rx)) _
      (by rw [h]; simp only [List.append_assoc]; rfl) (by simp; omega)
  · exact memWord_part _ _ _ _ _ (xs ++ wordBytes s.rx.ssrc ++ beBytes 1 (blockFraction s.rx) ++
      beBytes 3 (BitVec.ofInt 24 (lostCount s.rx)).toNat ++ wordBytes (extMax s.rx) ++
      beBytes 4 (s.rx.jitter16 >>> 4).toNat) _ (by rw [h]; simp only [List.append_assoc]; rfl) (by simp; omega)
  · rw [← hd]
    exact memWord_part _ _ _ _ _ (xs ++ wordBytes s.rx.ssrc ++ beBytes 1 (blockFraction s.rx) ++
      beBytes 3 (BitVec.ofInt 24 (lostCount s.rx)).toNat ++ wordBytes (extMax s.rx) ++
      beBytes 4 (s.rx.jitter16 >>> 4).toNat ++ wordBytes (if s.rx.state.lsrValid then s.rx.lsr else 0)) _
      (by rw [h]; simp only [List.append_assoc]; rfl) (by simp; omega)

/-- A common header written at the start of a string reads back (R190, R115). -/
theorem showsCommon_part (m : Memory) (a : Nat) (bs zs : List Byte) (count pt n : Nat)
    (h : bs = commonHeaderBytes count pt n ++ zs) (hc : count < 32) (hp : pt < 256) (hn : n < 65536) :
    ShowsCommon (memWriteBytes m a bs) a count pt n := by
  constructor
  · have h0 := memByte_part m a 0 bs (BitVec.ofNat 8 (2 * 64 + count)) (by rw [h]; rfl)
    rw [Nat.add_zero] at h0
    rw [h0]; simp; omega
  · rw [memByte_part m a 1 bs (BitVec.ofNat 8 pt) (by rw [h]; rfl)]; simp; omega
  · exact memRead_part _ _ _ _ _ _ [BitVec.ofNat 8 (2 * 64 + count), BitVec.ofNat 8 pt] zs
      (by rw [h, commonHeaderBytes]; simp only [List.append_assoc]) rfl (by simpa using hn)

/-- The first block about a source is found, or there is none (R202). -/
theorem findBlock_cases (m : Memory) (ssrc : Word) (n p : Nat) :
    (∃ i, i < n ∧ FirstBlock m ssrc p i ∧ findBlock m ssrc n p = some (p + 24 * i)) ∨
    ((∀ i, i < n → memWord m (p + 24 * i) ≠ ssrc) ∧ findBlock m ssrc n p = none) := by
  induction n generalizing p with
  | zero => right; exact ⟨fun i h => by omega, rfl⟩
  | succ n ih =>
    by_cases h : memWord m p = ssrc
    · left; exact ⟨0, by omega, ⟨by simpa using h, fun j hj => by omega⟩, by simp [findBlock, h]⟩
    · obtain ⟨i, hi, hf, he⟩ | ⟨ha, he⟩ := ih (p + 24)
      · left
        refine ⟨i + 1, by omega, ⟨?_, ?_⟩, ?_⟩
        · rw [← hf.1]; congr 1; omega
        · intro j hj
          cases j with
          | zero => simpa using h
          | succ j =>
            have hb := hf.2 j (by omega)
            rwa [show p + 24 * (j + 1) = p + 24 + 24 * j by omega]
        · rw [findBlock, if_neg h, he]; congr 1; omega
      · right
        refine ⟨?_, by rw [findBlock, if_neg h, he]⟩
        intro i hi
        cases i with
        | zero => simpa using h
        | succ i =>
          have hb := ha i (by omega)
          rwa [show p + 24 * (i + 1) = p + 24 + 24 * i by omega]

/-- What a block about this session writes (R202). -/
theorem applyBlock_taken (m : Memory) (now : Word) (rx : RxRegs) (b : Nat) :
    BlockTaken m now b rx (applyBlock m now rx b) := by
  constructor
  · exact ⟨rfl, rfl, rfl, rfl⟩
  · intro h; have h0 : ¬ memWord m (b + 16) = 0#32 := h; simp [applyBlock, h0]
  · intro h; have h0 : memWord m (b + 16) = 0#32 := h; simp [applyBlock, h0]
  · rfl

end Sys2Proof.Machine
end

