-- ==== Sys2Proof/Laws/Buffer.lean ====
section
/-! SUPPORT. What a command writes to the packet buffer: byte strings that lie inside it (20_memory.md R86). -/

namespace Sys2Proof.Machine

open Sys2Proof

/-- Byte strings written one after another. -/
def writeAll (m : Memory) (ws : List (Nat × List Byte)) : Memory :=
  ws.foldl (fun m w => memWriteBytes m w.1 w.2) m

/-- Writing strings keeps the canonical form. -/
theorem writeAll_wf (m : Memory) (ws : List (Nat × List Byte)) (hm : m.wf) : Memory.wf (writeAll m ws) := by
  induction ws generalizing m with
  | nil => exact hm
  | cons w t ih => exact ih _ (memWriteBytes_wf m w.1 w.2 hm)

/-- Writing strings that lie below n keeps every address below n. -/
theorem writeAll_bound (m : Memory) (ws : List (Nat × List Byte)) (n : Nat) (hm : ∀ x ∈ m, x.1 < n)
    (hw : ∀ w ∈ ws, w.1 + w.2.length ≤ n) : ∀ x ∈ writeAll m ws, x.1 < n := by
  induction ws generalizing m with
  | nil => exact hm
  | cons w t ih =>
    exact ih _ (memWriteBytes_bound m w.1 w.2 n hm (hw w (by simp))) (fun x hx => hw x (by simp [hx]))

/-- The MKI is one string, or none. -/
theorem placeMki_eq (m : Memory) (b : Ctx) (a : Nat) :
    placeMki m b a = writeAll m (if b.cfg.mkiEn then [(a, wordBytes b.mki)] else []) := by
  unfold placeMki; split <;> rfl

/-- SRTCP_TX writes the index word, and the MKI when there is one (R265). -/
theorem srtcpTxBuffer_eq (s : State) (b : Ctx) (base len : Nat) (idx : BitVec 31) :
    srtcpTxBuffer s b base len idx = writeAll s.pb ((base + len, wordBytes (srtcpIndexWord b.cfg.rtcpEnc idx)) ::
      if b.cfg.mkiEn then
        [(base + (trailer s.params (len + 4) (ctxLens s b).tagLenRtcp (mkiLen b)).mkiOff, wordBytes b.mki)]
      else []) := by
  rw [srtcpTxBuffer, placeMki_eq]; rfl

/-- A packet built at DST_ADDR lies inside the buffer. -/
theorem buildAt_pb {s u : State} {len : Nat} {bytes : List Byte} {rx : RxRegs} (h : buildAt s len bytes rx = .ok u)
    (hl : bytes.length = len) :
    ∃ ws, u.pb = writeAll s.pb ws ∧ ∀ w ∈ ws, w.1 + w.2.length ≤ s.params.pbufSize := by
  rw [buildAt_eq] at h
  split at h; · cases h
  next h1 =>
  split at h; · cases h
  next h2 =>
  cases h
  refine ⟨[(s.op.dstAddr.toNat, bytes)], rfl, ?_⟩
  simp only [InRange] at h1
  simp; omega

theorem ruleRtpEncode_pb {s u : State} (h : ruleRtpEncode s = .ok u) :
    ∃ ws, u.pb = writeAll s.pb ws ∧ ∀ w ∈ ws, w.1 + w.2.length ≤ s.params.pbufSize := by
  simp only [ruleRtpEncode] at h
  split at h; · cases h
  split at h; · cases h
  split at h; · cases h
  split at h; · cases h
  next h1 h2 h3 h4 =>
  cases h
  refine ⟨[(s.op.dstAddr.toNat, encodePacket s)], rfl, ?_⟩
  simp only [InRange] at h3
  simp [encodePacket_length]; omega

theorem ruleSessCreatePacket_pb {m : Bool} {s u : State} (h : ruleSessCreatePacket m s = .ok u) :
    ∃ ws, u.pb = writeAll s.pb ws ∧ ∀ w ∈ ws, w.1 + w.2.length ≤ s.params.pbufSize := by
  simp only [ruleSessCreatePacket] at h
  split at h; · cases h
  split at h; · cases h
  split at h; · cases h
  next h1 h2 h3 =>
  cases h
  refine ⟨[(s.op.dstAddr.toNat, createdPacket s m)], rfl, ?_⟩
  simp only [InRange] at h2
  simp [createdPacket_length]; omega

theorem ruleSrtpTx_pb {c : BitVec 4} {s u : State} (h : ruleSrtpTx c s = .ok u) :
    ∃ ws, u.pb = writeAll s.pb ws ∧ ∀ w ∈ ws, w.1 + w.2.length ≤ s.params.pbufSize := by
  simp only [ruleSrtpTx] at h
  split at h; · cases h
  split at h; · cases h
  next h1 =>
  split at h; · cases h
  split at h; · cases h
  split at h; · cases h
  next h3 =>
  split at h; · cases h
  split at h; · cases h
  cases h
  refine ⟨_, placeMki_eq _ _ _, ?_⟩
  simp only [InRange] at h1
  simp only [trailer, mkiLen] at h3 ⊢
  split
  · next hm => simp only [hm, if_true] at h3; simp; split <;> simp <;> omega
  · simp

theorem ruleSrtcpTx_pb {c : BitVec 4} {s u : State} (h : ruleSrtcpTx c s = .ok u) :
    ∃ ws, u.pb = writeAll s.pb ws ∧ ∀ w ∈ ws, w.1 + w.2.length ≤ s.params.pbufSize := by
  simp only [ruleSrtcpTx] at h
  split at h; · cases h
  split at h; · cases h
  next h1 =>
  split at h; · cases h
  split at h; · cases h
  split at h; · cases h
  split at h; · cases h
  next h5 =>
  split at h; · cases h
  cases h
  refine ⟨_, srtcpTxBuffer_eq _ _ _ _ _, ?_⟩
  simp only [InRange] at h1
  intro w hw
  rcases List.mem_cons.mp hw with rfl | hw
  · simp only [wordBytes_length]; omega
  · unfold mkiLen at h5
    split at hw
    · next hm =>
      rw [if_pos hm] at h5
      rw [List.mem_singleton.mp hw, wordBytes_length]
      unfold trailer mkiLen
      split <;> simp only <;> omega
    · cases hw

/-- A command writes only strings that lie inside the buffer. -/
theorem ruleOf_pb {i : Instr} {s u : State} (h : ruleOf i s = .ok u) :
    ∃ ws, u.pb = writeAll s.pb ws ∧ ∀ w ∈ ws, w.1 + w.2.length ≤ s.params.pbufSize := by
  have same : u.pb = s.pb → ∃ ws, u.pb = writeAll s.pb ws ∧ ∀ w ∈ ws, w.1 + w.2.length ≤ s.params.pbufSize :=
    fun h => ⟨[], h, by simp⟩
  cases i <;> simp only [ruleOf] at h
  case nop | sessInit | seqDiff => cases h; exact same rfl
  case ctxInit | ctxTeardown =>
    simp only [ruleCtxInit, ruleCtxTeardown] at h
    repeat' split at h
    all_goals first | (cases h; done) | (cases h; exact same rfl)
  case rtpDecode | sessProcessReceived | rtcpParse | ctxUpdateKey | kdf =>
    simp only [ruleRtpDecode, ruleSessProcessReceived, ruleRtcpParse, ruleCtxUpdateKey, ruleKdf] at h
    repeat' split at h
    all_goals first | (cases h; done) | (cases h; exact same rfl)
  case srtpRxCheck | srtpRxCommit | srtcpRxCheck | srtcpRxCommit =>
    simp only [ruleSrtpRxCheck, ruleSrtpRxCommit, ruleSrtcpRxCheck, ruleSrtcpRxCommit] at h
    repeat' split at h
    all_goals first | (cases h; done) | (cases h; exact same rfl)
  case rtpEncode => exact ruleRtpEncode_pb h
  case sessCreatePacket => exact ruleSessCreatePacket_pb h
  case rtcpCreateSr => exact buildAt_pb h (by rw [srBytes_length])
  case rtcpCreateRr => exact buildAt_pb h (by rw [rrBytes_length])
  case rtcpCreateBye => exact buildAt_pb h (by rw [byeBytes_length])
  case srtpTx => exact ruleSrtpTx_pb h
  case srtcpTx => exact ruleSrtcpTx_pb h

end Sys2Proof.Machine
end

