-- ==== Sys2Proof/Laws/Host.lean ====
section
/-! SUPPORT. What a host access can do, and what a step can do: one inversion lemma for each, which later proofs cite
instead of unfolding the register map. -/

namespace Sys2Proof.Machine

open Sys2Proof

/-- A write to CTRL with SOFT_RESET = 1 (R331). -/
theorem writeReg_ctrl_set {s : State} {v : Word} (h : v.getLsbD 0 = true) : writeReg s .ctrl v = softReset s := if_pos h

/-- A write to CTRL with SOFT_RESET = 0 does nothing (R331). -/
theorem writeReg_ctrl_clear {s : State} {v : Word} (h : ¬ v.getLsbD 0 = true) : writeReg s .ctrl v = s := if_neg h

/-- What an accepted register write leaves of the fields no register write changes. -/
theorem writeReg_frame (s : State) (r : Reg) (v : Word) :
    (writeReg s r v).params = s.params ∧ (writeReg s r v).pb = s.pb ∧ (writeReg s r v).host = s.host ∧
      (writeReg s r v).readData = s.readData ∧ (writeReg s r v).draws = s.draws := by
  cases r
  case ctrl =>
    by_cases h : v.getLsbD 0 = true
    · rw [writeReg_ctrl_set h]; exact ⟨rfl, rfl, rfl, rfl, rfl⟩
    · rw [writeReg_ctrl_clear h]; exact ⟨rfl, rfl, rfl, rfl, rfl⟩
  case cmd => by_cases h : s.glob.status.busy = true <;> simp [writeReg, writeCmd, h]
  case bank c q => by_cases h : (isLocked q && (s.bank c).status.valid) = true <;> simp [writeReg, writeBank, h]
  all_goals exact ⟨rfl, rfl, rfl, rfl, rfl⟩

/-- What a register write does to a bank: a soft reset resets it, a write to one of its registers that is not locked
writes it, and any other write leaves it. -/
theorem writeReg_bank (s : State) (r : Reg) (v : Word) (c : BitVec 4) :
    (writeReg s r v).bank c = s.bank c ∨ (r = .ctrl ∧ v.getLsbD 0 = true ∧ (writeReg s r v).bank c = Ctx.reset) ∨
      ∃ q, r = .bank c q ∧ (isLocked q && (s.bank c).status.valid) = false ∧
        (writeReg s r v).bank c = writeBankReg (s.bank c) q v := by
  cases r
  case ctrl =>
    by_cases h : v.getLsbD 0 = true
    · right; left; rw [writeReg_ctrl_set h]; exact ⟨rfl, h, bank_softReset s c⟩
    · left; rw [writeReg_ctrl_clear h]
  case bank d q =>
    simp only [writeReg, writeBank]
    split
    · left; rfl
    · next h =>
      by_cases hdc : d = c
      · subst hdc; right; right; exact ⟨q, rfl, by simpa using h, bank_setBank_self _ _ _⟩
      · left; exact bank_setBank_ne _ _ hdc
  case cmd => left; simp only [writeReg, writeCmd]; split <;> rfl
  all_goals left; rfl

/-- What a register write leaves of ERR and ERRCODE, which only a completion and reset change (R302). -/
theorem writeReg_status (s : State) (r : Reg) (v : Word) :
    ((writeReg s r v).glob.status.err = s.glob.status.err ∧
      (writeReg s r v).glob.status.errcode = s.glob.status.errcode) ∨ (writeReg s r v).glob = GlobalRegs.reset := by
  cases r
  case ctrl =>
    by_cases h : v.getLsbD 0 = true
    · rw [writeReg_ctrl_set h]; exact .inr rfl
    · rw [writeReg_ctrl_clear h]; exact .inl ⟨rfl, rfl⟩
  case bank c q => by_cases h : (isLocked q && (s.bank c).status.valid) = true <;> simp [writeReg, writeBank, h]
  case cmd => by_cases h : s.glob.status.busy = true <;> simp [writeReg, writeCmd, h]
  all_goals exact .inl ⟨rfl, rfl⟩

/-- What a row lookup finds is a row. -/
theorem rowAt_mem {α : Type} {rows : List (Nat × α)} {off : Nat} {r : α} (h : rowAt rows off = some r) :
    (off, r) ∈ rows := by
  unfold rowAt at h
  cases hf : rows.find? (fun r => r.1 == off) with
  | none => simp [hf] at h
  | some x =>
    have hx : x.1 = off := by simpa using List.find?_some hf
    simp only [hf, Option.map_some, Option.some.injEq] at h
    subst hx; subst h
    exact List.mem_of_find?_eq_some hf

/-- CTRL is at offset 4 only (R22, R84). -/
theorem regAt_ctrl {p : Params} {off : Nat} (h : regAt p off = some .ctrl) : off = 4 := by
  have key : ∀ x ∈ regRows, x.2 = .ctrl → x.1 = 4 := by decide +kernel
  unfold regAt at h
  split at h
  · exact key _ (rowAt_mem h) rfl
  · dsimp only at h
    split at h
    · simp at h
    · cases h

/-- What a host access can do: return data, be rejected, write a register, or write buffer bytes; the interrupt line is
computed again after it. -/
theorem hostAccess_cases (s : State) (op : HostOp) :
    ∃ t, hostAccess s op = { t with glob := refreshIrq t.glob } ∧
      ((∃ v, t = { s with readData := v }) ∨ t = accessError s ∨ (∃ v, t = { accessError s with readData := v }) ∨
      (∃ off r v, op = .write off .word v ∧ regAt s.params off = some r ∧ t = writeReg s r v) ∨
      (∃ a w v, a + widthBytes w ≤ s.params.pbufSize ∧
        t = { s with pb := memWriteBytes s.pb a (leBytes (widthBytes w) v) })) := by
  cases op with
  | read off w =>
    refine ⟨hostRead s off w, rfl, ?_⟩
    unfold hostRead
    split
    · exact .inr (.inr (.inl ⟨_, rfl⟩))
    · exact .inl ⟨_, rfl⟩
    · exact .inl ⟨_, rfl⟩
  | write off w v =>
    refine ⟨hostWrite s off w v, rfl, ?_⟩
    unfold hostWrite
    split
    · exact .inr (.inl rfl)
    · next r h =>
      refine .inr (.inr (.inr (.inl ⟨off, r, v, ?_⟩)))
      simp only [acceptedTarget, targetOf] at h
      split at h
      · cases h
      · next t ht =>
        split at h
        · cases h
        · cases h
          split at ht
          · split at ht <;> simp at ht
          · split at ht
            · next hw => obtain ⟨rfl, -⟩ := hw; simpa using ht
            · simp at ht
    · next a h =>
      refine .inr (.inr (.inr (.inr ⟨a, w, v, ?_, rfl⟩)))
      simp only [acceptedTarget, targetOf] at h
      split at h
      · cases h
      · next t ht =>
        split at h
        · cases h
        · cases h
          split at ht
          · split at ht
            · next hw => simp only [Option.some.injEq, Target.buf.injEq] at ht; omega
            · simp at ht
          · split at ht
            · simp at ht
            · simp at ht

/-- What a step can do. -/
theorem step_cases {s t : State} (h : step s = .next t) :
    (turn s = .idle ∧ t = s) ∨
    (∃ op rest, turn s = .host op rest ∧ t = hostAccess { s with host := rest } op) ∨
    (turn s = .engine ∧ ∃ i, decode s.glob.pending = .ok i ∧ exec i s = .next t) ∨
    (turn s = .engine ∧ t = raised s .illegalCommand) := by
  unfold step at h
  split at h
  · next ht =>
    unfold engineStep at h
    split at h
    · next i hi => exact .inr (.inr (.inl ⟨ht, i, hi, h⟩))
    · cases h; exact .inr (.inr (.inr ⟨ht, rfl⟩))
  · next op rest ht => cases h; exact .inr (.inl ⟨op, rest, ht, rfl⟩)
  · next ht => cases h; exact .inl ⟨ht, rfl⟩

/-- No step stops the machine. -/
theorem step_next (s : State) : ∃ t, step s = .next t := by
  unfold step engineStep
  split
  · split
    · rw [exec_eq]; exact ⟨_, rfl⟩
    · exact ⟨_, rfl⟩
  · exact ⟨_, rfl⟩
  · exact ⟨_, rfl⟩

/-- The target of a register access below the banks (20_memory.md R83, R84). -/
theorem targetOf_low {p : Params} {off : Nat} {r : Reg} (h : off < 0x400) (hm : off % 4 = 0)
    (hr : rowAt regRows off = some r) : targetOf p off .word = some (.reg r) := by
  unfold targetOf regAt
  rw [if_neg (by omega), if_pos ⟨rfl, hm⟩, if_pos h, hr]; rfl

/-- The target of a register access in a bank that exists (10_state.md R35). -/
theorem targetOf_bank {p : Params} {c : BitVec 4} {off : Nat} {r : BankReg} (hc : c.toNat < p.nCtx) (ho : off < 0x100)
    (hm : off % 4 = 0) (hr : rowAt bankRows off = some r) :
    targetOf p (bankOffset c off) .word = some (.reg (.bank c r)) := by
  have hcl := c.isLt
  unfold targetOf regAt bankOffset
  rw [if_neg (by omega), if_pos ⟨rfl, by omega⟩, if_neg (by omega)]
  dsimp only
  rw [show (0x400 + 0x100 * c.toNat + off - 0x400) / 0x100 = c.toNat by omega,
    show (0x400 + 0x100 * c.toNat + off - 0x400) % 0x100 = off by omega, if_pos ⟨hc, hcl⟩, hr]
  simp

/-- The target of a buffer access (20_memory.md R81, R83). -/
theorem targetOf_buffer {p : Params} {a : Nat} {w : Width} (hw : w ≠ .other) (hm : a % widthBytes w = 0)
    (hl : a + widthBytes w ≤ p.pbufSize) : targetOf p (0x10000 + a) w = some (.buf a) := by
  have h0 : (0x10000 + a) % widthBytes w = 0 := by
    cases w
    case other => exact absurd rfl hw
    all_goals simp only [widthBytes] at *; omega
  unfold targetOf
  rw [if_pos (by omega), if_pos ⟨hw, h0, by omega⟩]; simp

/-- An access of a width R83 does not admit has no target (20_memory.md R83). -/
theorem targetOf_other (p : Params) (off : Nat) : targetOf p off .other = none := by
  unfold targetOf
  split <;> simp

/-- An accepted register write. -/
theorem hostAccess_write {s : State} {off : Nat} {r : Reg} (v : Word) (ht : targetOf s.params off .word = some (.reg r))
    (hb : s.glob.status.busy = false ∨ openWhileBusy true (.reg r) = true) :
    hostAccess s (.write off .word v) = withIrq (writeReg s r v) := by
  have ha : acceptedTarget s off .word true = some (.reg r) := by
    simp only [acceptedTarget, ht]; rcases hb with h | h <;> simp [h]
  simp [hostAccess, hostWrite, ha, withIrq, refreshIrq]

/-- An accepted register read. -/
theorem hostAccess_read {s : State} {off : Nat} {r : Reg} (ht : targetOf s.params off .word = some (.reg r))
    (hb : s.glob.status.busy = false ∨ openWhileBusy false (.reg r) = true) :
    hostAccess s (.read off .word) = withIrq { s with readData := readReg s r } := by
  have ha : acceptedTarget s off .word false = some (.reg r) := by
    simp only [acceptedTarget, ht]; rcases hb with h | h <;> simp [h]
  simp [hostAccess, hostRead, ha, withIrq, refreshIrq]

/-- No register's value depends on the interrupt line. -/
theorem readReg_withIrq (s : State) (r : Reg) : readReg (withIrq s) r = readReg s r := by cases r <;> rfl

/-- A word read below the banks at an offset no register is at: rejected, so it returns 0 (20_memory.md R84, R85). -/
theorem hostAccess_read_unmapped {s : State} {off : Nat} (h : off < 0x400) (hn : off % 4 = 0 → rowAt regRows off = none) :
    (hostAccess s (.read off .word)).readData = 0 := by
  have ht : targetOf s.params off .word = none := by
    unfold targetOf regAt
    rw [if_neg (by omega)]
    split
    · next hm => rw [hn hm.2]; rfl
    · rfl
  simp [hostAccess, hostRead, acceptedTarget, ht]

/-- The RW registers below the banks (10_state.md R21). -/
def isRw : Reg → Bool
  | .intEn | .srcAddr | .srcLen | .dstAddr | .dstCap | .auxAddr | .auxLen | .arg0 | .arg1 | .hdrB01 | .hdrSeq | .hdrTs
  | .hdrSsrc | .csrc _ | .extProfile | .sessSsrc | .sessSeq | .sessPt | .sessTs | .nowNtpMsw | .nowNtpLsw | .nowRtpTs
  | .rxArrival | .kdfIdxLo | .kdfIdxHi => true
  | _ => false

/-- An RW register stands at one offset only (10_state.md R22 to R34). -/
theorem regRows_rw : ∀ x ∈ regRows, isRw x.2 = true → ∀ y ∈ regRows, y.2 = x.2 → y.1 = x.1 := by decide +kernel

/-- A write of one half of KDF_IDX leaves the other (10_state.md R34). -/
theorem setLo48_hi (x : BitVec 48) (v : Word) : (setLo48 x v).extractLsb' 32 16 = x.extractLsb' 32 16 := by
  refine BitVec.eq_of_getLsbD_eq fun i hi => ?_
  simp only [setLo48, BitVec.getLsbD_extractLsb', BitVec.getLsbD_append]
  simp [hi]

/-- The same for the other half (10_state.md R34). -/
theorem setHi48_lo (x : BitVec 48) (v : Word) : (setHi48 x v).extractLsb' 0 32 = x.extractLsb' 0 32 := by
  refine BitVec.eq_of_getLsbD_eq fun i hi => ?_
  simp only [setHi48, BitVec.getLsbD_extractLsb', BitVec.getLsbD_append]
  simp [hi]

/-- A write to an RW register below the banks leaves what every other register reads as (10_state.md R21). -/
theorem readReg_writeReg_ne {s : State} {r q : Reg} (v : Word) (hr : isRw r = true) (h : q ≠ r) :
    readReg (writeReg s r v) q = readReg s q := by
  cases r
  case csrc i =>
    cases q
    case csrc j =>
      have : i.val ≠ j.val := fun e => h (by rw [Fin.ext e])
      simp [readReg, writeReg, this]
    all_goals rfl
  case kdfIdxLo =>
    cases q
    case kdfIdxHi => exact congrArg (BitVec.setWidth 32) (setLo48_hi _ _)
    case kdfIdxLo => exact absurd rfl h
    all_goals rfl
  case kdfIdxHi =>
    cases q
    case kdfIdxLo => exact setHi48_lo _ _
    case kdfIdxHi => exact absurd rfl h
    all_goals rfl
  all_goals first | (simp [isRw] at hr; done) | (cases q <;> first | rfl | exact absurd rfl h)

/-- The fields of the state a write to an RW register below the banks can change (10_state.md R21). -/
theorem writeReg_rw {s u : State} {r : Reg} {v : Word} (hr : isRw r = true) (h : writeReg s r v = u) :
    u = { s with
      glob := { s.glob with intEn := u.glob.intEn }, op := u.op, hdr := u.hdr, sess := u.sess, kdfIdx := u.kdfIdx } := by
  subst h
  cases r <;> first | rfl | simp [isRw] at hr

/-- A byte of a buffer write (20_memory.md R81). -/
theorem leBytes_getD (n : Nat) (v : Word) (k : Nat) (h : k < n) : (leBytes n v).getD k 0 = v.extractLsb' (8 * k) 8 := by
  simp [leBytes, h]

end Sys2Proof.Machine
end

