-- ==== Sys2Proof/Laws/Keys.lean ====
section
/-! SUPPORT. Key material as bytes: what packing, loading, staging and the key-derivation function do to each byte. -/

namespace Sys2Proof.Machine

open Sys2Proof

/-- Byte k of a number's big-endian bytes. -/
theorem beBytes_getD (n v k : Nat) (h : k < n) :
    (beBytes n v).getD k 0 = BitVec.ofNat 8 (v / 256 ^ (n - 1 - k)) := by
  induction n generalizing k with
  | zero => omega
  | succ n ih =>
    cases k with
    | zero => simp [beBytes]
    | succ k => rw [beBytes, List.getD_cons_succ, ih k (by omega)]; congr 3; omega

/-- A byte string's number fits its width. -/
theorem bytesToNat_lt (bs : List Byte) : bytesToNat bs < 256 ^ bs.length := by
  induction bs with
  | nil => simp [bytesToNat]
  | cons c u ih2 =>
    rw [bytesToNat_cons, List.length_cons, Nat.pow_succ]
    have := c.isLt
    nlinarith

/-- Byte k of a string, out of its number. -/
theorem bytesToNat_getD (bs : List Byte) (k : Nat) (h : k < bs.length) :
    BitVec.ofNat 8 (bytesToNat bs / 256 ^ (bs.length - 1 - k)) = bs.getD k 0 := by
  induction bs generalizing k with
  | nil => simp at h
  | cons b t ih =>
    have hlt := bytesToNat_lt t
    rw [bytesToNat_cons]
    cases k with
    | zero =>
      simp only [List.length_cons, Nat.add_sub_cancel, Nat.sub_zero, List.getD_cons_zero]
      rw [Nat.mul_comm, Nat.mul_add_div (by positivity), Nat.div_eq_of_lt hlt]
      simp
    | succ k =>
      simp only [List.length_cons] at h
      rw [List.getD_cons_succ, ← ih k (by omega)]
      apply BitVec.eq_of_toNat_eq
      simp only [BitVec.toNat_ofNat, List.length_cons]
      have : t.length + 1 - 1 - (k+1) = t.length - 1 - k := by omega
      rw [this]
      obtain ⟨j, hj⟩ : ∃ j, t.length = (t.length - 1 - k) + (j + 1) := ⟨k, by omega⟩
      generalize t.length - 1 - k = q at *
      rw [hj, Nat.pow_add, Nat.pow_succ]
      rw [show b.toNat * (256 ^ q * (256 ^ j * 256)) = 256 ^ q * (256 * (b.toNat * 256 ^ j)) by ring]
      rw [Nat.mul_add_div (by positivity), Nat.mul_add_mod]

/-- Byte k of packed key material, out of its number. -/
theorem keyByte_eq {w : Nat} (v : BitVec w) (k : Nat) :
    keyByte v k = BitVec.ofNat 8 (v.toNat / 2 ^ (w - 8 * (k+1))) := by
  apply BitVec.eq_of_toNat_eq
  simp [keyByte, BitVec.extractLsb'_toNat, Nat.shiftRight_eq_div_pow]

/-- Packing keeps the bytes in order and fills the end with zero bytes (10_state.md R34). -/
theorem keyByte_packBytes (n : Nat) (bs : List Byte) (k : Nat) (hl : bs.length ≤ n) (h : k < n) :
    keyByte (packBytes n bs) k = bs.getD k 0 := by
  have hlen : (bs ++ List.replicate (n - bs.length) 0).length = n := by simp; omega
  have hlt := bytesToNat_lt (bs ++ List.replicate (n - bs.length) 0)
  rw [hlen] at hlt
  have h8 : (256:Nat) ^ n = 2 ^ (8 * n) := by rw [Nat.pow_mul]
  rw [keyByte_eq, packBytes, BitVec.toNat_ofNat, Nat.mod_eq_of_lt (by omega)]
  have := bytesToNat_getD (bs ++ List.replicate (n - bs.length) 0) k (by omega)
  rw [hlen] at this
  rw [show 8 * n - 8 * (k + 1) = 8 * (n - 1 - k) by omega, Nat.pow_mul]
  rw [this]
  by_cases hk : k < bs.length
  · simp [List.getD_eq_getElem?_getD, List.getElem?_append_left hk]
  · simp only [List.getD_eq_getElem?_getD]
    rw [List.getElem?_append_right (by omega), List.getElem?_eq_none (l := bs) (by omega)]
    simp

/-- The first n bytes are kept, the others are 0 (44_srtp_context_kdf.md R223, R225). -/
theorem keyByte_firstBytes {w : Nat} (n : Nat) (v : BitVec w) (k : Nat) (hw : 8 ∣ w) (h : 8 * k < w) :
    keyByte (firstBytes v n) k = if k < n then keyByte v k else 0 := by
  apply BitVec.eq_of_getLsbD_eq
  intro i hi
  obtain ⟨q, rfl⟩ := hw
  simp only [keyByte, firstBytes, BitVec.getLsbD_extractLsb', BitVec.getLsbD_shiftLeft, BitVec.getLsbD_ushiftRight]
  by_cases hk : k < n
  · rw [if_pos hk, BitVec.getLsbD_extractLsb']
    have : ¬ (8 * q - 8 * (k + 1) + i < 8 * q - 8 * n) := by omega
    simp only [this, decide_false, Bool.not_false, Bool.and_true]
    rw [show 8 * q - 8 * n + (8 * q - 8 * (k + 1) + i - (8 * q - 8 * n)) = 8 * q - 8 * (k+1) + i by omega]
    have h1 : 8 * q - 8 * (k + 1) + i < 8 * q := by omega
    simp [h1]
  · rw [if_neg hk]
    have : 8 * q - 8 * (k + 1) + i < 8 * q - 8 * n := by omega
    simp [this]

/-- Replacing word i replaces bytes 4i to 4i + 3, most significant first (10_state.md R34). -/
theorem keyByte_setKeyWord {w : Nat} (v : BitVec w) (i : Nat) (x : Word) (k : Nat) (hw : 32 ∣ w)
    (hi : 32 * i < w) (h : 8 * k < w) :
    keyByte (setKeyWord v i x) k = if k / 4 = i then keyByte x (k % 4) else keyByte v k := by
  obtain ⟨q, rfl⟩ := hw
  apply BitVec.eq_of_getLsbD_eq
  intro j hj
  simp only [keyByte, setKeyWord, BitVec.getLsbD_extractLsb', BitVec.getLsbD_or, BitVec.getLsbD_and,
    BitVec.getLsbD_not, BitVec.getLsbD_shiftLeft, BitVec.getLsbD_setWidth, BitVec.getLsbD_allOnes]
  have h1 : 32 * q - 8 * (k+1) + j < 32 * q := by omega
  by_cases hk : k / 4 = i
  · subst hk
    rw [if_pos rfl]
    simp only [BitVec.getLsbD_extractLsb']
    have h2 : ¬ (32 * q - 8 * (k + 1) + j < 32 * q - 32 * (k / 4 + 1)) := by omega
    have h3 : 32 * q - 8 * (k + 1) + j - (32 * q - 32 * (k / 4 + 1)) = 32 - 8 * (k % 4 + 1) + j := by omega
    have h4 : 32 - 8 * (k % 4 + 1) + j < 32 := by omega
    have h5 : 32 - 8 * (k % 4 + 1) + j < 32 * q := by omega
    simp [h1, h2, h3, h4, h5]
  · rw [if_neg hk]
    simp only [BitVec.getLsbD_extractLsb', h1, decide_true, Bool.true_and, hj]
    by_cases h2 : 32 * q - 8 * (k + 1) + j < 32 * q - 32 * (i + 1)
    · simp [h2]
    · have h3 : 32 ≤ 32 * q - 8 * (k + 1) + j - (32 * q - 32 * (i + 1)) := by omega
      simp [h3, Nat.not_lt.mpr h3]

/-- Byte k of the master key as CTX_INIT and CTX_UPDATE_KEY load it (44_srtp_context_kdf.md R223, R225). -/
theorem keyByte_loadedKey (p : Params) (b : Ctx) (k : Nat) (h : k < 32) :
    keyByte (loadedKey p b) k = if k < (profileLens p b.cfg.profile).klen then keyByte b.mkeyStg k else 0 := by
  rw [loadedKey, keyByte_firstBytes _ _ _ (by decide) (by omega)]

/-- Byte k of the master salt as they load it. -/
theorem keyByte_loadedSalt (p : Params) (b : Ctx) (k : Nat) (h : k < 14) :
    keyByte (loadedSalt p b) k = if k < (profileLens p b.cfg.profile).slen then keyByte b.msaltStg k else 0 := by
  have hk : keyByte (b.msaltStg.extractLsb' 16 112) k = keyByte b.msaltStg k := by
    apply BitVec.eq_of_getLsbD_eq
    intro i hi
    simp only [keyByte, BitVec.getLsbD_extractLsb']
    have h3 : 112 - 8 * (k + 1) + i < 112 := by omega
    rw [show 16 + (112 - 8 * (k + 1) + i) = 128 - 8 * (k + 1) + i by omega]
    simp [h3]
  rw [loadedSalt, keyByte_firstBytes _ _ _ (by decide) (by omega), hk]

/-- The key the KDF uses is the first klen bytes of the master key (44_srtp_context_kdf.md R230). -/
theorem kdfKey_eq (b : Ctx) (klen : Nat) (h : klen ≤ 32) :
    kdfKey b klen = (List.range klen).map (keyByte b.mkeyAct) := by
  unfold kdfKey
  apply List.ext_getElem
  · simp [h]
  · intro k h1 h2
    have hk : k < 32 := by simp at h1; omega
    have hb := beBytes_getD 32 b.mkeyAct.toNat k hk
    rw [List.getD_eq_getElem?_getD, List.getElem?_eq_getElem (by simpa using hk), Option.getD_some] at hb
    simp only [List.getElem_take, List.getElem_map, List.getElem_range]
    rw [hb, keyByte_eq, show 256 - 8 * (k + 1) = 8 * (32 - 1 - k) by omega, Nat.pow_mul]

theorem aesCols_length (n : Nat) (l : List Byte) (h : l.length = 4 * n) : (aesCols l).length = n := by
  induction n generalizing l with
  | zero => simp at h; subst h; rfl
  | succ n ih =>
    match l, h with
    | a :: b :: c :: d :: t, h => simp only [aesCols, List.length_cons] at h ⊢; rw [ih t (by omega)]

theorem aesExpand_length (nk f i : Nat) (w : List AesCol) : (aesExpand nk f i w).length = f + w.length := by
  induction f generalizing i w with
  | zero => simp [aesExpand]
  | succ f ih => simp only [aesExpand, ih, List.length_cons]; omega

/-- A block of AES is 16 bytes. -/
theorem aesEnc_length (key : List Byte) (blk : BitVec 128) (h : key.length = 16 ∨ key.length = 32) :
    (aesEnc key blk).length = 16 := by
  have hb : ∃ c0 c1 c2 c3, aesCols (beBytes 16 blk.toNat) = [c0, c1, c2, c3] := by
    simp only [beBytes, aesCols]; exact ⟨_, _, _, _, rfl⟩
  have hc : (aesCols key).length = key.length / 4 := aesCols_length _ _ (by omega)
  have hk : ∃ k ks, aesRoundKeys ((aesExpand (key.length / 4) (4 * (key.length / 4 + 7) - key.length / 4)
      (key.length / 4) (aesCols key).reverse).reverse) = k :: ks := by
    generalize hw : (aesExpand (key.length / 4) (4 * (key.length / 4 + 7) - key.length / 4) (key.length / 4)
      (aesCols key).reverse).reverse = w
    have hl : 4 ≤ w.length := by rw [← hw]; simp [aesExpand_length, hc]; omega
    match w, hl with
    | a :: b :: c :: d :: t, _ => exact ⟨_, _, rfl⟩
  obtain ⟨c0, c1, c2, c3, hb⟩ := hb
  obtain ⟨k, ks, hk⟩ := hk
  unfold aesEnc
  dsimp only
  rw [hb, hk]
  rfl

theorem flatMap16_length (f : Nat → List Byte) (hf : ∀ j, (f j).length = 16) (n : Nat) :
    ((List.range n).flatMap f).length = 16 * n := by
  induction n with
  | zero => rfl
  | succ n ih => rw [List.range_succ, List.flatMap_append, List.length_append, ih]; simp [hf]; omega

/-- Byte k of 16-byte blocks set end to end. -/
theorem flatMap16_getD (f : Nat → List Byte) (hf : ∀ j, (f j).length = 16) (n k : Nat) (h : k < 16 * n) :
    ((List.range n).flatMap f).getD k 0 = (f (k / 16)).getD (k % 16) 0 := by
  induction n with
  | zero => omega
  | succ n ih =>
    have hl := flatMap16_length f hf n
    rw [List.range_succ, List.flatMap_append]
    simp only [List.getD_eq_getElem?_getD] at *
    by_cases hk : k < 16 * n
    · rw [List.getElem?_append_left (by omega), ih hk]
    · rw [List.getElem?_append_right (by omega), hl]
      simp only [List.flatMap_cons, List.flatMap_nil, List.append_nil]
      rw [show k / 16 = n by omega, show k - 16 * n = k % 16 by omega]

/-- The PRF's output is as long as asked for (44_srtp_context_kdf.md R230). -/
theorem prf_length (b : Ctx) (klen label : Nat) (r : BitVec 48) (n : Nat) (h : klen = 16 ∨ klen = 32) :
    (prf b klen label r n).length = n := by
  have hk : ∀ x, (aesEnc (kdfKey b klen) x).length = 16 := fun x =>
    aesEnc_length _ _ (by rw [kdfKey_eq b klen (by omega)]; simpa using h)
  unfold prf
  dsimp only
  rw [List.length_take, flatMap16_length _ (fun _ => hk _)]
  omega

/-- Byte k of the PRF's output (44_srtp_context_kdf.md R230). -/
theorem prf_getD (b : Ctx) (klen label : Nat) (r : BitVec 48) (n k : Nat) (hk : k < n) (h : klen = 16 ∨ klen = 32) :
    (prf b klen label r n).getD k 0 = prfByte b klen label r k := by
  have hkey := kdfKey_eq b klen (by omega)
  unfold prf prfByte
  dsimp only
  rw [hkey, List.getD_eq_getElem?_getD, List.getElem?_take_of_lt hk, ← List.getD_eq_getElem?_getD, flatMap16_getD]
  · rfl
  · intro j; apply aesEnc_length; simpa using h
  · omega

/-- The legal key-derivation rates (44_srtp_context_kdf.md R221). -/
theorem kdrLegal_iff (k : Word) : kdrLegal k = true ↔ k = 0 ∨ ∃ t : Fin 25, k.toNat = 2 ^ t.val := by
  simp only [kdrLegal, Bool.or_eq_true, beq_iff_eq, List.any_eq_true, List.mem_range]
  constructor
  · rintro (h | ⟨t, ht, h⟩)
    · exact .inl h
    · exact .inr ⟨⟨t, ht⟩, h⟩
  · rintro (h | ⟨t, h⟩)
    · exact .inl h
    · exact .inr ⟨t.val, t.isLt, h⟩

end Sys2Proof.Machine
end

