-- ==== Sys2Proof/Laws/PerInstr.lean ====
section
/-! SUPPORT. Statements about every command as syntax, one lemma per constructor. -/

namespace Sys2Proof.Laws.EncodeLegal

open Sys2Proof

/-- The word of a command is legal: its opcode is in the map, its reserved bits and the fields it leaves unused are 0
(30_encoding.md R104). -/
def Statement (i : Instr) : Prop := (CmdFields.ofWord (encode i)).wellFormed = true

theorem nop : Statement .nop := by unfold Statement; decide

theorem rtpEncode : Statement .rtpEncode := by unfold Statement; decide

theorem rtpDecode : Statement .rtpDecode := by unfold Statement; decide

theorem sessInit (a b : Bool) : Statement (.sessInit a b) := by unfold Statement; revert a b; decide

theorem sessCreatePacket (m : Bool) : Statement (.sessCreatePacket m) := by unfold Statement; revert m; decide

theorem sessProcessReceived : Statement .sessProcessReceived := by unfold Statement; decide

theorem seqDiff : Statement .seqDiff := by unfold Statement; decide

theorem rtcpCreateSr : Statement .rtcpCreateSr := by unfold Statement; decide

theorem rtcpCreateRr : Statement .rtcpCreateRr := by unfold Statement; decide

theorem rtcpCreateBye : Statement .rtcpCreateBye := by unfold Statement; decide

theorem rtcpParse : Statement .rtcpParse := by unfold Statement; decide

theorem ctxInit (c : BitVec 4) : Statement (.ctxInit c) := by unfold Statement; revert c; decide

theorem ctxUpdateKey (c : BitVec 4) : Statement (.ctxUpdateKey c) := by unfold Statement; revert c; decide

theorem ctxTeardown (c : BitVec 4) : Statement (.ctxTeardown c) := by unfold Statement; revert c; decide

theorem kdf (c : BitVec 4) (r : Bool) : Statement (.kdf c r) := by unfold Statement; revert c r; decide

theorem srtpTx (c : BitVec 4) : Statement (.srtpTx c) := by unfold Statement; revert c; decide

theorem srtpRxCheck (c : BitVec 4) : Statement (.srtpRxCheck c) := by unfold Statement; revert c; decide

theorem srtpRxCommit (c : BitVec 4) (a : Bool) : Statement (.srtpRxCommit c a) := by unfold Statement; revert c a; decide

theorem srtcpTx (c : BitVec 4) : Statement (.srtcpTx c) := by unfold Statement; revert c; decide

theorem srtcpRxCheck (c : BitVec 4) : Statement (.srtcpRxCheck c) := by unfold Statement; revert c; decide

theorem srtcpRxCommit (c : BitVec 4) (a : Bool) : Statement (.srtcpRxCommit c a) := by unfold Statement; revert c a; decide

end Sys2Proof.Laws.EncodeLegal
end

