-- ==== Sys2Proof/Laws/Registers.lean ====
section
/-! SUPPORT. The register words as the tables of 10_state.md give them: a word built from its fields, and the word each
register reads as. -/

namespace Sys2Proof.Machine

open Sys2Proof

/-- A field put above the bits of a word adds to it. -/
theorem toNat_or_shift {a b : Word} {lo : Nat} (ha : a.toNat < 2 ^ lo) (hb : b.toNat * 2 ^ lo < 2 ^ 32) :
    (a ||| b <<< lo).toNat = a.toNat + b.toNat * 2 ^ lo := by
  rw [BitVec.toNat_or, BitVec.toNat_shiftLeft, Nat.shiftLeft_eq, Nat.mod_eq_of_lt hb, Nat.or_comm, Nat.mul_comm,
    ← Nat.two_pow_add_eq_or_of_lt ha]
  omega

/-- One more field above the others: the word with it, and how many bits are in use (10_state.md R21). -/
theorem packed_snoc {fs : List (Nat × Nat × Nat)} {m : Nat} (h : (packed fs).toNat < 2 ^ m) (lo w n : Nat) (hm : m ≤ lo)
    (hw : lo + w ≤ 32) : packed (fs ++ [(lo, w, n)]) = packed fs ||| BitVec.ofNat 32 (n % 2 ^ w) <<< lo ∧
      (packed (fs ++ [(lo, w, n)])).toNat < 2 ^ (lo + w) := by
  have hn : n % 2 ^ w < 2 ^ w := Nat.mod_lt _ (Nat.two_pow_pos w)
  have ha : (packed fs).toNat < 2 ^ lo := Nat.lt_of_lt_of_le h (Nat.pow_le_pow_right (by decide) hm)
  have hle : 2 ^ (lo + w) ≤ 2 ^ 32 := Nat.pow_le_pow_right (by decide) hw
  have hmul : (n % 2 ^ w + 1) * 2 ^ lo ≤ 2 ^ (lo + w) := by
    rw [Nat.pow_add, Nat.mul_comm (2 ^ lo)]; exact Nat.mul_le_mul_right _ hn
  rw [Nat.add_mul, Nat.one_mul] at hmul
  have h32 : n % 2 ^ w < 2 ^ 32 := Nat.lt_of_lt_of_le hn (Nat.pow_le_pow_right (by decide) (by omega))
  have hx : (BitVec.ofNat 32 (n % 2 ^ w)).toNat = n % 2 ^ w := Nat.mod_eq_of_lt h32
  have hor := toNat_or_shift (b := BitVec.ofNat 32 (n % 2 ^ w)) ha (by rw [hx]; omega)
  have hsum : packed (fs ++ [(lo, w, n)]) = packed fs + BitVec.ofNat 32 (n % 2 ^ w * 2 ^ lo) := by
    simp only [packed, List.map_append, List.sum_append, List.map_cons, List.map_nil, List.sum_cons, List.sum_nil,
      Nat.add_zero, BitVec.ofNat_add]
  have hs : (packed (fs ++ [(lo, w, n)])).toNat = (packed fs).toNat + n % 2 ^ w * 2 ^ lo := by
    rw [hsum, BitVec.toNat_add, BitVec.toNat_ofNat, Nat.mod_eq_of_lt (a := n % 2 ^ w * 2 ^ lo) (by omega)]
    exact Nat.mod_eq_of_lt (by omega)
  refine ⟨BitVec.eq_of_toNat_eq ?_, by omega⟩
  rw [hs, hor, hx]

/-- A register with one field, from bit 0 on (10_state.md R21). -/
theorem packed_one (w n : Nat) : packed [(0, w, n)] = BitVec.ofNat 32 (n % 2 ^ w) := by simp [packed]

/-- A field narrower than its register reads as its value. -/
theorem packed_field {w : Nat} (x : BitVec w) : packed [(0, w, x.toNat)] = x.setWidth 32 := by
  apply BitVec.eq_of_toNat_eq
  have := Nat.mod_eq_of_lt x.isLt
  rw [packed_one, this]; simp

/-- The low word of a 48-bit quantity (10_state.md R33 to R35). -/
theorem packed_lo48 (x : BitVec 48) : packed [(0, 32, x.toNat)] = x.extractLsb' 0 32 := by
  apply BitVec.eq_of_toNat_eq
  rw [packed_one]; simp [BitVec.extractLsb'_toNat]

/-- The high half-word of a 48-bit quantity (10_state.md R33 to R35). -/
theorem packed_hi48 (x : BitVec 48) : packed [(0, 16, x.toNat / 2 ^ 32)] = (x.extractLsb' 32 16).setWidth 32 := by
  apply BitVec.eq_of_toNat_eq
  rw [packed_one]; simp [BitVec.extractLsb'_toNat, Nat.shiftRight_eq_div_pow]

/-- A bit vector as a word is the word of its value. -/
theorem setWidth_word {w : Nat} (x : BitVec w) : x.setWidth 32 = BitVec.ofNat 32 (x.toNat % 2 ^ w) := by
  apply BitVec.eq_of_toNat_eq; simp [Nat.mod_eq_of_lt x.isLt]

/-- STATUS (10_state.md R25). -/
theorem packed_status (st : Status) : statusWord st = packed [(0, 1, st.busy.toNat), (1, 1, st.done.toNat),
    (2, 1, st.err.toNat), (3, 1, st.cmdOverrun.toNat), (4, 1, st.accErr.toNat), (8, 8, st.errcode.toNat)] := by
  obtain ⟨b, d, e, o, a, code⟩ := st
  have h : ∀ b d e o a : Bool, bitAt b 0 ||| bitAt d 1 ||| bitAt e 2 ||| bitAt o 3 ||| bitAt a 4 =
      packed [(0, 1, b.toNat), (1, 1, d.toNat), (2, 1, e.toNat), (3, 1, o.toNat), (4, 1, a.toNat)] ∧
      (packed [(0, 1, b.toNat), (1, 1, d.toNat), (2, 1, e.toNat), (3, 1, o.toNat), (4, 1, a.toNat)]).toNat < 2 ^ 5 := by
    decide +kernel
  obtain ⟨h1, h2⟩ := h b d e o a
  simp only [statusWord]
  rw [h1, setWidth_word]
  exact (packed_snoc h2 8 8 code.toNat (by decide) (by decide)).1.symm

/-- INT_EN and INT_STATUS (10_state.md R22). -/
theorem packed_int (i : IntBits) :
    intWord i = packed [(0, 1, i.done.toNat), (1, 1, i.err.toNat), (2, 1, i.sec.toNat)] := by
  obtain ⟨a, b, c⟩ := i
  cases a <;> cases b <;> cases c <;> decide

/-- PARAMS (10_state.md R22). -/
theorem packed_params (p : Params) : paramsWord p = packed [(0, 8, p.nCtx), (8, 13, p.wMax),
    (21, 1, p.mkiBeforeTag.toNat), (24, 8, p.srtcpTag32Len)] := by
  obtain ⟨e1, b1⟩ := packed_snoc (fs := []) (m := 0) (by decide) 0 8 p.nCtx (by decide) (by decide)
  obtain ⟨e2, b2⟩ := packed_snoc b1 8 13 p.wMax (by decide) (by decide)
  obtain ⟨e3, b3⟩ := packed_snoc b2 21 1 p.mkiBeforeTag.toNat (by decide) (by decide)
  obtain ⟨e4, -⟩ := packed_snoc b3 24 8 p.srtcpTag32Len (by decide) (by decide)
  have hb : bitAt p.mkiBeforeTag 21 = BitVec.ofNat 32 (p.mkiBeforeTag.toNat % 2 ^ 1) <<< 21 := by
    cases p.mkiBeforeTag <;> decide
  have hn : ∀ w n, (BitVec.ofNat w n).setWidth 32 = BitVec.ofNat 32 (n % 2 ^ w) := fun w n => by
    rw [setWidth_word]; simp
  have h0 : packed ([] ++ [(0, 8, p.nCtx)]) = BitVec.ofNat 32 (p.nCtx % 2 ^ 8) := packed_one 8 p.nCtx
  rw [h0] at e2
  rw [paramsWord, hb, hn, hn, hn, ← e2, ← e3, ← e4]; rfl

/-- HDR_FLAGS (10_state.md R29). -/
theorem packed_hdrFlags (f : HdrFlags) : hdrFlagsWord f = packed [(0, 1, f.extOneByte.toNat),
    (1, 1, f.foreignSsrc.toNat), (2, 1, f.duplicate.toNat), (3, 1, f.reordered.toNat), (4, 1, f.first.toNat)] := by
  obtain ⟨a, b, c, d, e⟩ := f
  cases a <;> cases b <;> cases c <;> cases d <;> cases e <;> decide

/-- RX_STATE (10_state.md R31). -/
theorem packed_rxState (r : RxState) : rxStateWord r = packed [(0, 1, r.rxValid.toNat), (1, 1, r.lsrValid.toNat),
    (2, 1, r.rttValid.toNat), (3, 1, r.remoteValid.toNat)] := by
  obtain ⟨a, b, c, d⟩ := r
  cases a <;> cases b <;> cases c <;> cases d <;> decide

/-- RTCP_INFO (10_state.md R32). -/
theorem packed_rtcpInfo (i : RtcpInfo) : rtcpInfoWord i =
    packed [(0, 5, i.blocks.toNat), (8, 1, i.blockForUs.toNat), (9, 1, i.unknownPt.toNat)] := by
  obtain ⟨n, a, b⟩ := i
  have h : ∀ m : Fin 32, ∀ a b : Bool, rtcpInfoWord ⟨BitVec.ofFin m, a, b⟩ =
    packed [(0, 5, m.val), (8, 1, a.toNat), (9, 1, b.toNat)] := by decide +kernel
  exact h n.toFin a b

/-- SK_INFO (10_state.md R34). -/
theorem packed_skInfo (i : SkInfo) : skInfoWord i = packed [(0, 1, i.valid.toNat), (1, 1, i.rtcp.toNat),
    (4, 4, i.ctx.toNat), (8, 8, i.encLen.toNat), (16, 8, i.saltLen.toNat), (24, 8, i.authLen.toNat)] := by
  obtain ⟨v, r, c, e, s, a⟩ := i
  have h : ∀ v r : Bool, bitAt v 0 ||| bitAt r 1 = packed [(0, 1, v.toNat), (1, 1, r.toNat)] ∧
      (packed [(0, 1, v.toNat), (1, 1, r.toNat)]).toNat < 2 ^ 2 := by decide
  obtain ⟨e0, b0⟩ := h v r
  obtain ⟨e1, b1⟩ := packed_snoc b0 4 4 c.toNat (by decide) (by decide)
  obtain ⟨e2, b2⟩ := packed_snoc b1 8 8 e.toNat (by decide) (by decide)
  obtain ⟨e3, b3⟩ := packed_snoc b2 16 8 s.toNat (by decide) (by decide)
  obtain ⟨e4, -⟩ := packed_snoc b3 24 8 a.toNat (by decide) (by decide)
  simp only [skInfoWord]
  rw [e0, setWidth_word c, setWidth_word e, setWidth_word s, setWidth_word a, ← e1, ← e2, ← e3, ← e4]; rfl

/-- CTX_CFG as read (10_state.md R35, R36). -/
theorem packed_ctxCfg (c : CtxCfg) : ctxCfgWord c = packed [(0, 2, profileNumber c.profile), (2, 1, c.dir.toNat),
    (3, 1, c.mkiEn.toNat), (4, 1, c.rtcpEnc.toNat)] := by
  obtain ⟨p, a, b, d⟩ := c
  cases p <;> cases a <;> cases b <;> cases d <;> decide

/-- CTX_CFG as written (10_state.md R35, R36). -/
theorem ctxCfgOf_fields (v : Word) :
    ctxCfgOf v = ⟨profileNumbered (v.toNat % 4), v.getLsbD 2, v.getLsbD 3, v.getLsbD 4⟩ := by
  have h : ∀ n : Fin 4, profileOf (BitVec.ofNat 2 n.val) = profileNumbered n.val := by decide
  have hx : v.extractLsb' 0 2 = BitVec.ofNat 2 (v.toNat % 4) := by
    apply BitVec.eq_of_toNat_eq; simp [BitVec.extractLsb'_toNat]
  rw [ctxCfgOf, hx]
  exact congrArg (CtxCfg.mk · _ _ _) (h ⟨v.toNat % 4, Nat.mod_lt _ (by decide)⟩)

/-- CTX_STATUS (10_state.md R37). -/
theorem packed_ctxStatus (s : CtxStatus) : ctxStatusWord s = packed [(0, 1, s.valid.toNat), (1, 1, s.slValid.toNat),
    (2, 1, s.winValid.toNat), (3, 1, s.candValid.toNat), (4, 1, s.rtcpWinValid.toNat),
    (5, 1, s.rtcpCandValid.toNat)] := by
  obtain ⟨a, b, c, d, e, f⟩ := s
  cases a <;> cases b <;> cases c <;> cases d <;> cases e <;> cases f <;> decide

/-- A word of packed key material (10_state.md R34). -/
theorem packed_keyWord {w : Nat} (v : BitVec w) (i : Nat) (h : 32 * (i + 1) ≤ w) : keyWord v i = packedKeyWord v i := by
  have hb : ∀ k, k < 4 → keyByte v (4 * i + k) = (keyWord v i).extractLsb' (24 - 8 * k) 8 := by
    intro k hk
    refine BitVec.eq_of_getLsbD_eq fun j hj => ?_
    simp only [keyByte, keyWord, BitVec.getLsbD_extractLsb', hj, decide_true, Bool.true_and]
    rw [show 24 - 8 * k + j < 32 by omega |> decide_eq_true]
    simp only [Bool.true_and]
    congr 1; omega
  have h0 := hb 0 (by decide); have h1 := hb 1 (by decide); have h2 := hb 2 (by decide); have h3 := hb 3 (by decide)
  rw [packedKeyWord, h3, h2, h1, show 4 * i = 4 * i + 0 from rfl, h0]
  generalize keyWord v i = x
  obtain ⟨-, b1⟩ := packed_snoc (fs := []) (m := 0) (by decide) 0 8 (x.extractLsb' 0 8).toNat (by decide) (by decide)
  obtain ⟨e2, b2⟩ := packed_snoc b1 8 8 (x.extractLsb' 8 8).toNat (by decide) (by decide)
  obtain ⟨e3, b3⟩ := packed_snoc b2 16 8 (x.extractLsb' 16 8).toNat (by decide) (by decide)
  obtain ⟨e4, -⟩ := packed_snoc b3 24 8 (x.extractLsb' 24 8).toNat (by decide) (by decide)
  have e1 : packed ([] ++ [(0, 8, (x.extractLsb' 0 8).toNat)]) = (x.extractLsb' 0 8).setWidth 32 := packed_field _
  rw [e1] at e2
  refine Eq.trans ?_ (e4.trans (by rw [e3, e2])).symm
  simp only [← setWidth_word]
  refine BitVec.eq_of_getLsbD_eq fun j hj => ?_
  simp only [BitVec.getLsbD_or, BitVec.getLsbD_shiftLeft, BitVec.getLsbD_setWidth, BitVec.getLsbD_extractLsb', hj,
    decide_true, Bool.true_and]
  by_cases h8 : j < 8
  · simp [h8, show j < 16 by omega, show j < 24 by omega]
  · by_cases h16 : j < 16
    · simp [h8, h16, show j < 24 by omega, show j - 8 < 8 by omega, show j - 8 < 32 by omega, show 8 + (j - 8) = j by omega]
    · by_cases h24 : j < 24
      · simp [h8, h16, h24, show ¬ j - 8 < 8 by omega, show j - 16 < 8 by omega, show j - 16 < 32 by omega, show 16 + (j - 16) = j by omega]
      · simp [h8, h16, h24, show ¬ j - 8 < 8 by omega, show ¬ j - 16 < 8 by omega, show j - 24 < 8 by omega, show j - 24 < 32 by omega,
          show 24 + (j - 24) = j by omega]

/-- A row of the register map below the banks, with the word the register reads as. -/
abbrev ShowsRow (s : State) (x : Nat × Word) : Prop :=
  x.1 < 0x400 ∧ x.1 % 4 = 0 ∧ ∃ r, rowAt regRows x.1 = some r ∧ inStatusGroup r = statusGroupOffset x.1 ∧ readReg s r = x.2

/-- A register at a fixed offset shows its word. -/
theorem showsRow {s : State} {off : Nat} {w : Word} (r : Reg)
    (h : off < 0x400 ∧ off % 4 = 0 ∧ rowAt regRows off = some r ∧ inStatusGroup r = statusGroupOffset off)
    (hr : readReg s r = w) : ShowsRow s (off, w) := ⟨h.1, h.2.1, r, h.2.2.1, h.2.2.2, hr⟩

/-- Every word of the global control registers is the one its register reads as (10_state.md R22, R25). -/
theorem globalWords_rows (s : State) : ∀ x ∈ globalWords s, ShowsRow s x := by
  simp only [globalWords, List.forall_mem_cons, List.not_mem_nil, false_implies, implies_true, and_true]
  refine ⟨showsRow .id (by decide) rfl, showsRow .ctrl (by decide) rfl, showsRow .cmd (by decide) rfl,
    showsRow .status (by decide) (packed_status _), showsRow .intEn (by decide) (packed_int _),
    showsRow .intStatus (by decide) (packed_int _), showsRow .cmdCount (by decide) rfl,
    showsRow .params (by decide) (packed_params _), showsRow .pbufSize (by decide) ?_⟩
  rw [packed_one]
  apply BitVec.eq_of_toNat_eq; simp [readReg, u32]

/-- The same for the operand registers (10_state.md R27). -/
theorem operandWords_rows (s : State) : ∀ x ∈ operandWords s.op, ShowsRow s x := by
  simp only [operandWords, List.forall_mem_cons, List.not_mem_nil, false_implies, implies_true, and_true]
  exact ⟨showsRow .srcAddr (by decide) rfl, showsRow .srcLen (by decide) rfl, showsRow .dstAddr (by decide) rfl,
    showsRow .dstCap (by decide) rfl, showsRow .auxAddr (by decide) rfl, showsRow .auxLen (by decide) rfl,
    showsRow .resLen (by decide) rfl, showsRow .reserved (by decide) rfl, showsRow .arg0 (by decide) rfl,
    showsRow .arg1 (by decide) rfl, showsRow .res0 (by decide) rfl⟩

/-- The offsets of the CSRC list (10_state.md R28). -/
theorem rowAt_csrc : ∀ i : Fin 15, 0x090 + 4 * i.val < 0x400 ∧ (0x090 + 4 * i.val) % 4 = 0 ∧
    rowAt regRows (0x090 + 4 * i.val) = some (.csrc i) ∧ inStatusGroup (.csrc i) = statusGroupOffset (0x090 + 4 * i.val) := by
  decide

/-- The same for the header-codec registers (10_state.md R28, R29). -/
theorem headerWords_rows (s : State) : ∀ x ∈ headerWords s.hdr, ShowsRow s x := by
  simp only [headerWords, List.forall_mem_append, List.forall_mem_cons, List.not_mem_nil, false_implies, implies_true,
    and_true, List.forall_mem_map]
  refine ⟨⟨⟨?_, ?_, ?_, ?_⟩, fun i _ => showsRow (.csrc i) (rowAt_csrc i) rfl⟩, ?_, ?_, ?_, ?_, ?_, ?_, ?_⟩
  · exact showsRow .hdrB01 (by decide) (packed_field _).symm
  · exact showsRow .hdrSeq (by decide) (packed_field _).symm
  · exact showsRow .hdrTs (by decide) rfl
  · exact showsRow .hdrSsrc (by decide) rfl
  · exact showsRow .extProfile (by decide) (packed_field _).symm
  · exact showsRow .extLenWords (by decide) (packed_field _).symm
  · exact showsRow .extOff (by decide) rfl
  · exact showsRow .payloadOff (by decide) rfl
  · exact showsRow .payloadLen (by decide) rfl
  · exact showsRow .hdrLen (by decide) rfl
  · exact showsRow .hdrFlags (by decide) (packed_hdrFlags _)

/-- The same for the session registers (10_state.md R30). -/
theorem sessionWords_rows (s : State) : ∀ x ∈ sessionWords s.sess, ShowsRow s x := by
  simp only [sessionWords, List.forall_mem_cons, List.not_mem_nil, false_implies, implies_true, and_true]
  exact ⟨showsRow .sessSsrc (by decide) rfl, showsRow .sessSeq (by decide) (packed_field _).symm,
    showsRow .sessPt (by decide) (packed_field _).symm, showsRow .sessTs (by decide) rfl,
    showsRow .sessTxPkts (by decide) rfl, showsRow .sessTxOctets (by decide) rfl, showsRow .nowNtpMsw (by decide) rfl,
    showsRow .nowNtpLsw (by decide) rfl, showsRow .nowRtpTs (by decide) rfl, showsRow .rxArrival (by decide) rfl⟩

/-- The same for the receive statistics (10_state.md R31). -/
theorem rxWords_rows (s : State) : ∀ x ∈ rxWords s.rx, ShowsRow s x := by
  simp only [rxWords, List.forall_mem_cons, List.not_mem_nil, false_implies, implies_true, and_true]
  exact ⟨showsRow .rxState (by decide) (packed_rxState _), showsRow .rxSsrc (by decide) rfl,
    showsRow .rxBaseSeq (by decide) (packed_field _).symm, showsRow .rxMaxSeq (by decide) (packed_field _).symm,
    showsRow .rxCycles (by decide) (packed_field _).symm, showsRow .rxReceived (by decide) rfl,
    showsRow .rxDuplicates (by decide) rfl, showsRow .rxReordered (by decide) rfl, showsRow .rxJitter16 (by decide) rfl,
    showsRow .rxLastTransit (by decide) rfl, showsRow .rxExpectedPrior (by decide) rfl,
    showsRow .rxReceivedPrior (by decide) rfl, showsRow .rxLsr (by decide) rfl, showsRow .rxLsrArrival (by decide) rfl,
    showsRow .rtt (by decide) rfl, showsRow .remoteLoss (by decide) rfl, showsRow .remoteExtMax (by decide) rfl,
    showsRow .remoteJitter (by decide) rfl⟩

/-- The same for the RTCP parse registers (10_state.md R32). -/
theorem rtcpWords_rows (s : State) : ∀ x ∈ rtcpWords s.rtcp, ShowsRow s x := by
  simp only [rtcpWords, List.forall_mem_cons, List.not_mem_nil, false_implies, implies_true, and_true]
  exact ⟨showsRow .rtcpHdr (by decide) rfl, showsRow .rtcpSsrc (by decide) rfl, showsRow .rtcpNtpMsw (by decide) rfl,
    showsRow .rtcpNtpLsw (by decide) rfl, showsRow .rtcpRtpTs (by decide) rfl, showsRow .rtcpPktCount (by decide) rfl,
    showsRow .rtcpOctetCount (by decide) rfl, showsRow .rtcpInfo (by decide) (packed_rtcpInfo _)⟩

/-- The same for the SRTP result registers (10_state.md R33). -/
theorem srWords_rows (s : State) : ∀ x ∈ srWords s.sr, ShowsRow s x := by
  simp only [srWords, List.forall_mem_cons, List.not_mem_nil, false_implies, implies_true, and_true]
  refine ⟨showsRow .srIndexLo (by decide) (packed_lo48 _).symm, showsRow .srIndexHi (by decide) (packed_hi48 _).symm,
    showsRow .srRoc (by decide) rfl, showsRow .srEncOff (by decide) rfl, showsRow .srEncLen (by decide) rfl,
    showsRow .srTagOff (by decide) rfl, showsRow .srTagLen (by decide) rfl, showsRow .srMkiOff (by decide) rfl,
    showsRow .srMkiLen (by decide) rfl, showsRow .srIdxOff (by decide) rfl, showsRow .srE (by decide) ?_⟩
  simp only [readReg]; cases s.sr.e <;> decide

/-- The offsets of the session-key words (10_state.md R34). -/
theorem rowAt_sk : (∀ i : Fin 8, 0x240 + 4 * i.val < 0x400 ∧ (0x240 + 4 * i.val) % 4 = 0 ∧
      rowAt regRows (0x240 + 4 * i.val) = some (.skEnc i) ∧ inStatusGroup (.skEnc i) = statusGroupOffset (0x240 + 4 * i.val)) ∧
    (∀ i : Fin 4, 0x260 + 4 * i.val < 0x400 ∧ (0x260 + 4 * i.val) % 4 = 0 ∧
      rowAt regRows (0x260 + 4 * i.val) = some (.skSalt i) ∧ inStatusGroup (.skSalt i) = statusGroupOffset (0x260 + 4 * i.val)) ∧
    (∀ i : Fin 5, 0x270 + 4 * i.val < 0x400 ∧ (0x270 + 4 * i.val) % 4 = 0 ∧
      rowAt regRows (0x270 + 4 * i.val) = some (.skAuth i) ∧ inStatusGroup (.skAuth i) = statusGroupOffset (0x270 + 4 * i.val)) := by
  decide

/-- The same for the KDF argument and the session keys (10_state.md R34). -/
theorem skWords_rows (s : State) : ∀ x ∈ skWords s.kdfIdx s.sk, ShowsRow s x := by
  simp only [skWords, List.forall_mem_append, List.forall_mem_cons, List.not_mem_nil, false_implies, implies_true,
    and_true, List.forall_mem_map, List.mem_range]
  refine ⟨⟨⟨⟨⟨?_, ?_⟩, fun i hi => ?_⟩, fun i hi => ?_⟩, fun i hi => ?_⟩, ?_, ?_, ?_⟩
  · exact showsRow .kdfIdxLo (by decide) (packed_lo48 _).symm
  · exact showsRow .kdfIdxHi (by decide) (packed_hi48 _).symm
  · exact showsRow (.skEnc ⟨i, hi⟩) (rowAt_sk.1 ⟨i, hi⟩) (packed_keyWord _ _ (by omega))
  · exact showsRow (.skSalt ⟨i, hi⟩) (rowAt_sk.2.1 ⟨i, hi⟩) (packed_keyWord _ _ (by omega))
  · exact showsRow (.skAuth ⟨i, hi⟩) (rowAt_sk.2.2 ⟨i, hi⟩) (packed_keyWord _ _ (by omega))
  · exact showsRow .skInfo (by decide) (packed_skInfo _)
  · exact showsRow .skRLo (by decide) (packed_lo48 _).symm
  · exact showsRow .skRHi (by decide) (packed_hi48 _).symm

/-- Every register word below the banks is the one its register reads as. -/
theorem registerWords_rows (s : State) : ∀ x ∈ registerWords s, ShowsRow s x := by
  simp only [registerWords, List.forall_mem_append]
  exact ⟨⟨⟨⟨⟨⟨⟨globalWords_rows s, operandWords_rows s⟩, headerWords_rows s⟩, sessionWords_rows s⟩, rxWords_rows s⟩,
    rtcpWords_rows s⟩, srWords_rows s⟩, skWords_rows s⟩

/-- An RW register below the banks, with the field a write to it changes. -/
abbrev WritesRow (off : Nat) : Prop :=
  off < 0x400 ∧ off % 4 = 0 ∧ ∃ r, rowAt regRows off = some r ∧ inStatusGroup r = statusGroupOffset off ∧ isRw r = true ∧
    ∀ (s : State) (v : Word), writeReg s r v = withRegister off v s

/-- An RW register at a fixed offset. -/
theorem writesRow {off : Nat} (r : Reg) (h : off < 0x400 ∧ off % 4 = 0 ∧ rowAt regRows off = some r ∧
    inStatusGroup r = statusGroupOffset off ∧ isRw r = true)
    (hw : ∀ (s : State) (v : Word), writeReg s r v = withRegister off v s) : WritesRow off :=
  ⟨h.1, h.2.1, r, h.2.2.1, h.2.2.2.1, h.2.2.2.2, hw⟩

/-- A write to KDF_IDX_LO (10_state.md R34). -/
theorem setLo48_value (x : BitVec 48) (v : Word) :
    setLo48 x v = BitVec.ofNat 48 (x.toNat / 2 ^ 32 * 2 ^ 32 + v.toNat) := by
  apply BitVec.eq_of_toNat_eq
  have hx := x.isLt; have hv := v.isLt
  have h := Nat.two_pow_add_eq_or_of_lt (i := 32) hv (x.toNat / 2 ^ 32)
  rw [setLo48, BitVec.toNat_append, BitVec.extractLsb'_toNat, BitVec.toNat_ofNat, Nat.shiftRight_eq_div_pow,
    Nat.mod_eq_of_lt (a := x.toNat / 2 ^ 32) (by omega), Nat.shiftLeft_eq, Nat.mul_comm, ← h]
  omega

/-- A write to KDF_IDX_HI (10_state.md R34). -/
theorem setHi48_value (x : BitVec 48) (v : Word) :
    setHi48 x v = BitVec.ofNat 48 (v.toNat % 2 ^ 16 * 2 ^ 32 + x.toNat % 2 ^ 32) := by
  apply BitVec.eq_of_toNat_eq
  have hx : x.toNat % 2 ^ 32 < 2 ^ 32 := Nat.mod_lt _ (by decide)
  have h := Nat.two_pow_add_eq_or_of_lt (i := 32) hx (v.toNat % 2 ^ 16)
  rw [setHi48, BitVec.toNat_append, BitVec.extractLsb'_toNat, BitVec.extractLsb'_toNat, BitVec.toNat_ofNat,
    Nat.shiftRight_zero, Nat.shiftRight_zero, Nat.shiftLeft_eq, Nat.mul_comm, ← h]
  omega

/-- A write to CSRC number i (10_state.md R28). -/
theorem writeReg_csrc (s : State) (i : Fin 15) (v : Word) :
    writeReg s (.csrc i) v = withRegister (0x090 + 4 * i.val) v s := by
  have h : writeReg s (.csrc i) v = { s with hdr := { s.hdr with
      csrc := Vector.ofFn (fun j : Fin 15 => if 0x090 + 4 * i.val = 0x090 + 4 * j.val then v else s.hdr.csrc[j]) } } := by
    have e : s.hdr.csrc.set i.val v i.isLt =
        Vector.ofFn (fun j : Fin 15 => if 0x090 + 4 * i.val = 0x090 + 4 * j.val then v else s.hdr.csrc[j]) := by
      ext k hk
      simp [Vector.getElem_set]
    rw [writeReg, e]
  rw [h]
  obtain ⟨n, hn⟩ := i
  iterate 15 (rcases n with _ | n; · rfl)
  omega

/-- A write to an RW register below the banks changes the field of its row and nothing else (10_state.md R22, R27, R28,
R30, R34). -/
theorem rwRegisters_rows : ∀ x ∈ rwRegisters, WritesRow x.1 := by
  simp only [rwRegisters, List.forall_mem_append, List.forall_mem_cons, List.not_mem_nil, false_implies, implies_true,
    and_true, List.forall_mem_map, List.mem_range]
  have lo : WritesRow 0x230 := writesRow .kdfIdxLo (by decide) fun s v => by rw [writeReg, setLo48_value]; rfl
  have hi : WritesRow 0x234 := writesRow .kdfIdxHi (by decide) fun s v => by rw [writeReg, setHi48_value]; rfl
  have csrc : ∀ i, i < 15 → WritesRow (0x090 + 4 * i) := fun i hi =>
    have h := rowAt_csrc ⟨i, hi⟩
    writesRow (.csrc ⟨i, hi⟩) ⟨h.1, h.2.1, h.2.2.1, h.2.2.2, rfl⟩ fun s v => writeReg_csrc s ⟨i, hi⟩ v
  exact ⟨⟨⟨writesRow .intEn (by decide) (fun _ _ => rfl), writesRow .srcAddr (by decide) (fun _ _ => rfl),
    writesRow .srcLen (by decide) (fun _ _ => rfl), writesRow .dstAddr (by decide) (fun _ _ => rfl),
    writesRow .dstCap (by decide) (fun _ _ => rfl), writesRow .auxAddr (by decide) (fun _ _ => rfl),
    writesRow .auxLen (by decide) (fun _ _ => rfl), writesRow .arg0 (by decide) (fun _ _ => rfl),
    writesRow .arg1 (by decide) (fun _ _ => rfl), writesRow .hdrB01 (by decide) (fun _ _ => rfl),
    writesRow .hdrSeq (by decide) (fun _ _ => rfl), writesRow .hdrTs (by decide) (fun _ _ => rfl),
    writesRow .hdrSsrc (by decide) (fun _ _ => rfl)⟩, csrc⟩,
    writesRow .extProfile (by decide) (fun _ _ => rfl), writesRow .sessSsrc (by decide) (fun _ _ => rfl),
    writesRow .sessSeq (by decide) (fun _ _ => rfl), writesRow .sessPt (by decide) (fun _ _ => rfl),
    writesRow .sessTs (by decide) (fun _ _ => rfl), writesRow .nowNtpMsw (by decide) (fun _ _ => rfl),
    writesRow .nowNtpLsw (by decide) (fun _ _ => rfl), writesRow .nowRtpTs (by decide) (fun _ _ => rfl),
    writesRow .rxArrival (by decide) (fun _ _ => rfl),
    lo, hi⟩

/-- A row of a bank's register map, with the word the register reads as. -/
abbrev ShowsBankRow (p : Params) (b : Ctx) (x : Nat × Word) : Prop :=
  x.1 < 0x100 ∧ x.1 % 4 = 0 ∧ ∃ r, rowAt bankRows x.1 = some r ∧ readBankReg p b r = x.2

/-- A bank register at a fixed offset shows its word. -/
theorem showsBankRow {p : Params} {b : Ctx} {off : Nat} {w : Word} (r : BankReg)
    (h : off < 0x100 ∧ off % 4 = 0 ∧ rowAt bankRows off = some r) (hr : readBankReg p b r = w) :
    ShowsBankRow p b (off, w) := ⟨h.1, h.2.1, r, h.2.2, hr⟩

/-- The staging and reserved registers of a bank read 0 (10_state.md R35, R39). -/
theorem bankRows_zero (p : Params) (b : Ctx) : ∀ off ∈ offsetsFrom 0x54 15 ++ offsetsFrom 0x90 28,
    ShowsBankRow p b (off, 0) := by
  have h : ∀ off ∈ offsetsFrom 0x54 15 ++ offsetsFrom 0x90 28, off < 0x100 ∧ off % 4 = 0 ∧
      (rowAt bankRows off = some .reserved ∨ (∃ i, rowAt bankRows off = some (.mkeyStage i)) ∨
        ∃ i, rowAt bankRows off = some (.msaltStage i)) := by decide
  intro off ho
  obtain ⟨h1, h2, h3⟩ := h off ho
  rcases h3 with h3 | ⟨i, h3⟩ | ⟨i, h3⟩ <;> exact ⟨h1, h2, _, h3, rfl⟩

/-- Every word of a bank but the bitmap words is the one its register reads as (10_state.md R35). -/
theorem bankWords_rows (p : Params) (b : Ctx) : ∀ x ∈ bankWords b, ShowsBankRow p b x := by
  simp only [bankWords, List.forall_mem_append, List.forall_mem_cons, List.not_mem_nil, false_implies, implies_true,
    and_true, List.forall_mem_map]
  exact ⟨⟨showsBankRow .ctxCfg (by decide) (packed_ctxCfg _),
    showsBankRow .ctxStatus (by decide) (packed_ctxStatus _),
    showsBankRow .winSize (by decide) (packed_field _).symm, showsBankRow .kdr (by decide) rfl,
    showsBankRow .ctxSsrc (by decide) rfl, showsBankRow .mki (by decide) rfl, showsBankRow .rocInit (by decide) rfl,
    showsBankRow .roc (by decide) rfl, showsBankRow .sL (by decide) (packed_field _).symm,
    showsBankRow .winTopLo (by decide) (packed_lo48 _).symm, showsBankRow .winTopHi (by decide) (packed_hi48 _).symm,
    showsBankRow .winBmpIdx (by decide) (packed_field _).symm,
    showsBankRow .candIndexLo (by decide) (packed_lo48 _).symm,
    showsBankRow .candIndexHi (by decide) (packed_hi48 _).symm, showsBankRow .candRoc (by decide) rfl,
    showsBankRow .candSeq (by decide) (packed_field _).symm, showsBankRow .rtcpTxIndex (by decide) rfl,
    showsBankRow .rtcpTop (by decide) (packed_field _).symm, showsBankRow .rtcpCand (by decide) rfl⟩,
    List.forall_mem_append.mp (bankRows_zero p b)⟩

/-- A write to a locked register of a bank changes the field of its row and nothing else (10_state.md R35, R36). -/
theorem lockedRegisters_rows : ∀ x ∈ lockedRegisters, x.1 < 0x100 ∧ x.1 % 4 = 0 ∧ ∃ q, rowAt bankRows x.1 = some q ∧
    isLocked q = true ∧ ∀ (b : Ctx) (v : Word), writeBankReg b q v = withLockedField x.1 v b := by
  simp only [lockedRegisters, List.forall_mem_cons, List.not_mem_nil, false_implies, implies_true, and_true]
  refine ⟨⟨by decide, by decide, .ctxCfg, by decide, rfl, fun b v => ?_⟩,
    ⟨by decide, by decide, .winSize, by decide, rfl, fun _ _ => rfl⟩,
    ⟨by decide, by decide, .kdr, by decide, rfl, fun _ _ => rfl⟩,
    ⟨by decide, by decide, .ctxSsrc, by decide, rfl, fun _ _ => rfl⟩,
    ⟨by decide, by decide, .mki, by decide, rfl, fun _ _ => rfl⟩,
    ⟨by decide, by decide, .rocInit, by decide, rfl, fun _ _ => rfl⟩⟩
  rw [writeBankReg, ctxCfgOf_fields]; rfl

end Sys2Proof.Machine
end

