-- ==== Sys2Proof/Laws/Window.lean ====
section
/-! SUPPORT. The bits of a replay bitmap after it slides or takes a mark, and what index estimation can answer
(45_srtp_index_replay.md R250 to R254). -/

namespace Sys2Proof.Machine

open Sys2Proof

/-- A mask of the low n bits. -/
theorem getLsbD_lowMask {w : Nat} (n k : Nat) (hn : n ≤ w) :
    (BitVec.ofNat w (2 ^ n - 1)).getLsbD k = decide (k < n) := by
  rw [BitVec.getLsbD_ofNat, Nat.testBit_two_pow_sub_one]
  by_cases h : k < n
  · simp [h, Nat.lt_of_lt_of_le h hn]
  · simp [h]

/-- A position of the bitmap after it slides by `s` (R253). -/
theorem slideBitmap_getLsbD (wMax size s k : Nat) (bmp : BitVec 4096) :
    (slideBitmap wMax size bmp s).getLsbD k =
      (decide (k = 0) || (decide (k < 4096) && decide (k < size) && decide (k < wMax) && decide (s ≤ k) &&
        bmp.getLsbD (k - s))) := by
  unfold slideBitmap
  split
  · rw [BitVec.getLsbD_or, BitVec.getLsbD_and, getLsbD_lowMask _ _ (by omega), BitVec.getLsbD_shiftLeft]
    by_cases h0 : k = 0
    · subst h0; simp
    · have h1 : (1#4096).getLsbD k = false := by simp [BitVec.getLsbD_one, h0]
      by_cases hs : s ≤ k
      · have : decide (k < s) = false := by simp; omega
        simp only [this, hs]
        by_cases hk : k < 4096 <;> by_cases hz : k < size <;> by_cases hw : k < wMax <;> simp [h0, hk, hz, hw]
      · have : decide (k < s) = true := by simp; omega
        simp [h1, h0, this, hs]
  · next hs =>
    by_cases h0 : k = 0
    · subst h0; simp
    · have h1 : (1#4096).getLsbD k = false := by simp [BitVec.getLsbD_one, h0]
      have h2 : (decide (k < size) && decide (k < wMax) && decide (s ≤ k)) = false := by simp; omega
      by_cases hz : k < size <;> by_cases hw : k < wMax <;> by_cases hk : s ≤ k <;> simp_all

/-- A position of the bitmap after bit `j` is set. -/
theorem setBit_getLsbD (bmp : BitVec 4096) (j k : Nat) :
    (setBit bmp j).getLsbD k = ((decide (k = j) && decide (k < 4096)) || bmp.getLsbD k) := by
  unfold setBit
  split
  · next h =>
    rw [BitVec.getLsbD_or, BitVec.getLsbD_shiftLeft]
    by_cases hk : k < 4096
    · by_cases hj : k = j
      · subst hj; simp [h]
      · by_cases hlt : k < j
        · simp [hk, hj, hlt]
        · have : (1#4096).getLsbD (k - j) = false := by simp [BitVec.getLsbD_one]; omega
          simp [hk, hj, hlt, this]
    · simp [hk, BitVec.getLsbD_of_ge, Nat.not_lt.mp hk]
  · next h =>
    by_cases hj : k = j
    · subst hj; simp [h]
    · simp [hj]

/-- The first bit of a fresh window. -/
theorem one_getLsbD (k : Nat) : (1#4096).getLsbD k = decide (k = 0) := by simp [BitVec.getLsbD_one]

/-- What the check answers, in words of the window (R252). -/
theorem replayed_eq_false {w : Window} {i : Nat} : replayed w i = false ↔
    (w.valid = true → i ≤ w.top → w.top - i < w.size ∧ w.bmp.getLsbD (w.top - i) = false) := by
  unfold replayed
  cases w.valid <;> by_cases h : i ≤ w.top <;> simp [h]

/-- Index estimation answers ROC − 1, ROC or ROC + 1 (R250). -/
theorem estimateV_range (b : Ctx) (seq : BitVec 16) :
    (b.roc.toNat : Int) - 1 ≤ estimateV b seq ∧ estimateV b seq ≤ (b.roc.toNat : Int) + 1 := by
  unfold estimateV
  dsimp only
  repeat' split
  all_goals omega

/-- Before any sequence number is seen, the estimate is ROC (R250). -/
theorem estimateV_fresh {b : Ctx} (seq : BitVec 16) (h : b.status.slValid = false) :
    estimateV b seq = b.roc.toNat := by simp [estimateV, h]

/-- A ROC value that fits 32 bits keeps its value in a register. -/
theorem u32_toNat_of_lt {v : Nat} (h : v < 2 ^ 32) : (u32 v).toNat = v := by
  rw [u32, BitVec.toNat_ofNat, Nat.mod_eq_of_lt h]

/-- What R254's update leaves, with the three cases told by conditions. -/
theorem updateRocSl_eq (b : Ctx) (v : Nat) (seq : BitVec 16) :
    updateRocSl b v seq = { b with
      roc := if b.status.slValid = false ∨ v > b.roc.toNat then u32 v else b.roc
      sL := if b.status.slValid = false ∨ v > b.roc.toNat ∨ (v = b.roc.toNat ∧ seq.toNat > b.sL.toNat) then seq
        else b.sL
      status := { b.status with slValid := true } } := by
  unfold updateRocSl
  cases hs : b.status.slValid with
  | false => simp
  | true =>
    have hst : b.status = { b.status with slValid := true } := by rw [← hs]
    by_cases h1 : v > b.roc.toNat
    · simp [h1, ← hst]
    · by_cases h2 : v = b.roc.toNat ∧ seq.toNat > b.sL.toNat
      · simp [h2, ← hst]
      · simp [h1, h2, ← hst]

end Sys2Proof.Machine
end

