-- ==== Sys2Proof/Laws/Srtp.lean ====
section
/-! SUPPORT. The SRTP and SRTCP operations: where the trailer lies, what the SR registers report, the RTCP header
check, and the keys shown after a check and its commit. -/

namespace Sys2Proof.Machine

open Sys2Proof

/-- Where the MKI lies (45_srtp_index_replay.md R255). -/
theorem trailer_mkiOff (p : Params) (off tlen m : Nat) :
    (trailer p off tlen m).mkiOff = off + if p.mkiBeforeTag then 0 else tlen := by unfold trailer; split <;> rfl

/-- Where the tag lies (45_srtp_index_replay.md R255). -/
theorem trailer_tagOff (p : Params) (off tlen m : Nat) :
    (trailer p off tlen m).tagOff = off + if p.mkiBeforeTag then m else 0 := by unfold trailer; split <;> rfl

/-- What an SRTP command reports (45_srtp_index_replay.md R259, R261). -/
theorem srtpReport_eq (s : State) (b : Ctx) (base len h v i : Nat) :
    srtpReport s b base len h v i =
      ⟨BitVec.ofNat 48 i, u32 v, u32 (base + h), u32 (len - h),
        u32 (base + len + if s.params.mkiBeforeTag then mkiLen b else 0), u32 (ctxLens s b).tagLen,
        if b.cfg.mkiEn then u32 (base + len + if s.params.mkiBeforeTag then 0 else (ctxLens s b).tagLen) else 0,
        u32 (mkiLen b), 0, false⟩ := by
  unfold srtpReport; dsimp only; rw [trailer_mkiOff, trailer_tagOff, ← Nat.add_assoc, ← Nat.add_assoc]

/-- What an SRTCP command reports (45_srtp_index_replay.md R265, R266). -/
theorem srtcpReport_eq (s : State) (b : Ctx) (base len : Nat) (idx : BitVec 31) (e : Bool) :
    srtcpReport s b base len idx e =
      ⟨BitVec.ofNat 48 idx.toNat, 0, u32 (base + 8), if e then u32 (len - 8) else 0,
        u32 (base + len + 4 + if s.params.mkiBeforeTag then mkiLen b else 0), u32 (ctxLens s b).tagLenRtcp,
        if b.cfg.mkiEn then u32 (base + len + 4 + if s.params.mkiBeforeTag then 0 else (ctxLens s b).tagLenRtcp)
        else 0, u32 (mkiLen b), u32 (base + len), e⟩ := by
  have h : idx.setWidth 48 = BitVec.ofNat 48 idx.toNat := by apply BitVec.eq_of_toNat_eq; simp
  unfold srtcpReport; dsimp only; rw [trailer_mkiOff, trailer_tagOff, h]; simp only [← Nat.add_assoc]

/-- The header check of an RTCP packet (45_srtp_index_replay.md R265, R266). -/
theorem rtcpHeaderFits_iff (m : Memory) (base len : Nat) :
    rtcpHeaderFits m base len = true ↔ rtcpVersion m base = 2 ∧ rtcpPlen m base ≤ len := by
  have hp : ((memWord m base).extractLsb' 0 16).toNat = memRead m base 4 % 2 ^ 16 := by
    simp [BitVec.extractLsb'_toNat, memWord_toNat]
  have hl := memRead_lt m base 4
  have hv : ((memWord m base).extractLsb' 30 2 = 2) ↔ rtcpVersion m base = 2 := by
    rw [← BitVec.toNat_inj]
    simp [BitVec.extractLsb'_toNat, memWord_toNat, Nat.shiftRight_eq_div_pow, rtcpVersion]
    omega
  unfold rtcpHeaderFits
  rw [Bool.and_eq_true, beq_iff_eq, hv, decide_eq_true_iff, hp]
  rfl

/-- The SRTCP index word as a number (45_srtp_index_replay.md R264). -/
theorem srtcpIndexWord_toNat (e : Bool) (idx : BitVec 31) :
    (srtcpIndexWord e idx).toNat = (if e then 2 ^ 31 else 0) + idx.toNat := by
  have h := idx.isLt
  unfold srtcpIndexWord
  rw [BitVec.toNat_append, ← Nat.shiftLeft_add_eq_or_of_lt h]
  cases e <;> simp

/-- Marking an index makes the window valid (45_srtp_index_replay.md R253). -/
theorem replayMark_valid (wMax : Nat) (w : Window) (i : Nat) : (replayMark wMax w i).valid = true := by
  unfold replayMark
  split
  · rfl
  · next h => split <;> simpa using h

/-- The replay check rejects an accepted index (45_srtp_index_replay.md R252). -/
theorem replayed_of_accepted (w : Window) (i : Nat) (h : Accepted w i) : replayed w i = true := by
  obtain ⟨hv, ht, -, hb⟩ := h
  simp [replayed, hv, ht, hb]

/-- DeriveSet depends on the profile, the rate and the active keys of the bank only (44_srtp_context_kdf.md R231). -/
theorem deriveSet_congr {p : Params} {b b' : Ctx} {c : BitVec 4} {rtcp : Bool} {index : Nat} (h1 : b'.cfg = b.cfg)
    (h2 : b'.kdr = b.kdr) (h3 : b'.mkeyAct = b.mkeyAct) (h4 : b'.msaltAct = b.msaltAct) :
    deriveSet p b' c rtcp index = deriveSet p b c rtcp index := by
  have hp : ∀ n l r m, prf b' n l r m = prf b n l r m := fun n l r m => by simp only [prf, kdfKey, h3, h4]
  simp only [deriveSet, hp, h1, h2]

/-- A commit leaves what DeriveSet depends on, so its keys stay the same (45_srtp_index_replay.md R254, R262). -/
theorem deriveSet_srtpCommitBank (p : Params) (b : Ctx) (c : BitVec 4) (rtcp : Bool) (index : Nat) :
    deriveSet p (srtpCommitBank p b) c rtcp index = deriveSet p b c rtcp index := by
  have h : ∀ v seq, (updateRocSl b v seq).cfg = b.cfg ∧ (updateRocSl b v seq).kdr = b.kdr ∧
      (updateRocSl b v seq).mkeyAct = b.mkeyAct ∧ (updateRocSl b v seq).msaltAct = b.msaltAct := by
    intro v seq
    unfold updateRocSl
    repeat' split
    all_goals exact ⟨rfl, rfl, rfl, rfl⟩
  obtain ⟨h1, h2, h3, h4⟩ := h b.candRoc.toNat b.candSeq
  exact deriveSet_congr h1 h2 h3 h4

/-- After a check and its commit the SK registers show the keys DeriveSet gives for the packet's index, which the commit
reports (44_srtp_context_kdf.md R227, 70_reset_and_hazards.md R341). -/
theorem srtpRxCommit_keys {c : BitVec 4} {s u t : State} (hu : ruleSrtpRxCheck c s = .ok u)
    (ht : ruleSrtpRxCommit c true u = .ok t) :
    t.sk = deriveSet t.params (t.bank c) c false t.sr.index.toNat := by
  have key : ∃ len ph v, v < 2 ^ 32 ∧ u = srtpRxCheckDone c s len ph v := by
    unfold ruleSrtpRxCheck at hu
    dsimp only at hu
    repeat' split at hu
    all_goals first | cases hu; done | skip
    next ph _ _ _ hn hp _ => exact ⟨_, ph, (estimateV (s.bank c) ph.seq).toNat, by omega, (Except.ok.inj hu).symm⟩
  obtain ⟨len, ph, v, hv, rfl⟩ := key
  have hb : (srtpRxCheckDone c s len ph v).bank c = srtpCandidate (s.bank c) v ph.seq := bank_setBank_self _ _ _
  have hi : (BitVec.ofNat 48 (packetIndex v ph.seq)).toNat = packetIndex v ph.seq := by
    have := ph.seq.isLt
    rw [BitVec.toNat_ofNat]; unfold packetIndex; omega
  unfold ruleSrtpRxCommit at ht
  dsimp only at ht
  repeat' split at ht
  all_goals first | cases ht; done | skip
  injection ht with ht
  subst ht
  show deriveSet s.params (s.bank c) c false (packetIndex v ph.seq) =
    deriveSet s.params (State.bank (State.setBank _ c _) c) c false (((srtpRxCheckDone c s len ph v).bank c).candIndex).toNat
  rw [bank_setBank_self, hb]
  show _ = deriveSet s.params (srtpCommitBank s.params _) c false _
  rw [deriveSet_srtpCommitBank]
  show _ = deriveSet s.params _ c false (BitVec.ofNat 48 (packetIndex v ph.seq)).toNat
  rw [hi]
  exact (deriveSet_congr rfl rfl rfl rfl).symm

/-- The same for SRTCP (44_srtp_context_kdf.md R227, 70_reset_and_hazards.md R341). -/
theorem srtcpRxCommit_keys {c : BitVec 4} {s u t : State} (hu : ruleSrtcpRxCheck c s = .ok u)
    (ht : ruleSrtcpRxCommit c true u = .ok t) :
    t.sk = deriveSet t.params (t.bank c) c true t.sr.index.toNat := by
  have key : ∃ len w, u = srtcpRxCheckDone c s len w := by
    unfold ruleSrtcpRxCheck at hu
    dsimp only at hu
    repeat' split at hu
    all_goals first | cases hu; done | skip
    injection hu with hu
    exact ⟨_, _, hu.symm⟩
  obtain ⟨len, w, rfl⟩ := key
  have hB : (srtcpRxCheckDone c s len w).bank c =
      { s.bank c with rtcpCand := w, status := { (s.bank c).status with rtcpCandValid := true } } := bank_setBank_self _ _ _
  have hb : ((srtcpRxCheckDone c s len w).bank c).rtcpCand = w := congrArg Ctx.rtcpCand hB
  have hi : ((w.setWidth 31 : BitVec 31).setWidth 48).toNat = (w.setWidth 31 : BitVec 31).toNat := by simp; omega
  unfold ruleSrtcpRxCommit at ht
  dsimp only at ht
  repeat' split at ht
  all_goals first | cases ht; done | skip
  injection ht with ht
  subst ht
  show deriveSet s.params (s.bank c) c true (w.setWidth 31 : BitVec 31).toNat = deriveSet s.params
    (State.bank (State.setBank _ c _) c) c true
      ((((srtcpRxCheckDone c s len w).bank c).rtcpCand.setWidth 31 : BitVec 31).setWidth 48).toNat
  rw [bank_setBank_self, hb, hi]
  exact (deriveSet_congr (congrArg Ctx.cfg hB) (congrArg Ctx.kdr hB) (congrArg Ctx.mkeyAct hB)
    (congrArg Ctx.msaltAct hB)).symm

end Sys2Proof.Machine
end

