-- ==== Sys2Proof/Tests/Slice0.lean ====
section
/-! SUPPORT. Tests: decoding by words written out from the encoding (30_encoding.md R100, R103), ill-formed terms that
the checks refuse, single steps against the vectors of 95_test_vectors.md, and for every statement with hypotheses a
state and operands that meet them. -/

namespace Sys2Proof.Tests

set_option Elab.async false

open Sys2Proof Sys2Proof.Machine

-- Decoding: bits 31..18 reserved, 17 F1, 16 F0, 15..12 reserved, 11..8 CTX, 7..0 OPC.

theorem test_decode_nop : decode 0b0000000000000000_0000_0000_00000000#32 = .ok .nop := by decide
theorem test_decode_rtpEncode : decode 0b0000000000000000_0000_0000_00000001#32 = .ok .rtpEncode := by decide
theorem test_decode_rtpDecode : decode 0b0000000000000000_0000_0000_00000010#32 = .ok .rtpDecode := by decide
theorem test_decode_sessInit : decode 0b0000000000000001_0000_0000_00001000#32 = .ok (.sessInit true false) := by decide
theorem test_decode_sessInit_f1 : decode 0b0000000000000010_0000_0000_00001000#32 = .ok (.sessInit false true) := by
  decide
theorem test_decode_sessCreatePacket :
    decode 0b0000000000000001_0000_0000_00001001#32 = .ok (.sessCreatePacket true) := by decide
theorem test_decode_sessProcessReceived :
    decode 0b0000000000000000_0000_0000_00001010#32 = .ok .sessProcessReceived := by decide
theorem test_decode_seqDiff : decode 0b0000000000000000_0000_0000_00001011#32 = .ok .seqDiff := by decide
theorem test_decode_rtcpCreateSr : decode 0b0000000000000000_0000_0000_00010000#32 = .ok .rtcpCreateSr := by decide
theorem test_decode_rtcpCreateRr : decode 0b0000000000000000_0000_0000_00010001#32 = .ok .rtcpCreateRr := by decide
theorem test_decode_rtcpCreateBye : decode 0b0000000000000000_0000_0000_00010010#32 = .ok .rtcpCreateBye := by decide
theorem test_decode_rtcpParse : decode 0b0000000000000000_0000_0000_00010011#32 = .ok .rtcpParse := by decide
theorem test_decode_ctxInit : decode 0b0000000000000000_0000_1000_00100000#32 = .ok (.ctxInit 8) := by decide
theorem test_decode_ctxUpdateKey : decode 0b0000000000000000_0000_0001_00100001#32 = .ok (.ctxUpdateKey 1) := by decide
theorem test_decode_ctxTeardown : decode 0b0000000000000000_0000_0010_00100010#32 = .ok (.ctxTeardown 2) := by decide
theorem test_decode_kdf : decode 0b0000000000000001_0000_0100_00100011#32 = .ok (.kdf 4 true) := by decide
theorem test_decode_srtpTx : decode 0b0000000000000000_0000_1111_00101000#32 = .ok (.srtpTx 15) := by decide
theorem test_decode_srtpRxCheck : decode 0b0000000000000000_0000_0001_00101001#32 = .ok (.srtpRxCheck 1) := by decide
theorem test_decode_srtpRxCommit :
    decode 0b0000000000000001_0000_0001_00101010#32 = .ok (.srtpRxCommit 1 true) := by decide
theorem test_decode_srtcpTx : decode 0b0000000000000000_0000_0001_00101100#32 = .ok (.srtcpTx 1) := by decide
theorem test_decode_srtcpRxCheck : decode 0b0000000000000000_0000_0001_00101101#32 = .ok (.srtcpRxCheck 1) := by decide
theorem test_decode_srtcpRxCommit :
    decode 0b0000000000000000_0000_1010_00101110#32 = .ok (.srtcpRxCommit 10 false) := by decide
theorem test_decode_gap : decode 0b0000000000000000_0000_0000_00101011#32 = .error .reservedOpcode := by decide
theorem test_decodeTableWord : decodeTableWord 32 0x1012A = some (.srtpRxCommit 1 true) ∧
    decodeTableWord 16 0x12D = some (.srtcpRxCheck 1) ∧ decodeTableWord 8 0x13 = some .rtcpParse := by decide

-- WellFormed: an ill-formed term for each check, and a well-formed one.

theorem test_wellFormed_opcode : (CmdFields.mk 0x2B 0 0 false false 0).wellFormed = false := by decide
theorem test_wellFormed_reservedLo : (CmdFields.mk 0x20 0 1 false false 0).wellFormed = false := by decide
theorem test_wellFormed_reservedHi : (CmdFields.mk 0x28 0 0 false false 1).wellFormed = false := by decide
theorem test_wellFormed_ctx : (CmdFields.mk 0x13 1 0 false false 0).wellFormed = false := by decide
theorem test_wellFormed_f0 : (CmdFields.mk 0x28 0 0 true false 0).wellFormed = false := by decide
theorem test_wellFormed_f1 : (CmdFields.mk 0x09 0 0 true true 0).wellFormed = false := by decide
theorem test_wellFormed_ok : (CmdFields.mk 0x08 0 0 true true 0).wellFormed = true ∧
    (CmdFields.mk 0x2E 15 0 true false 0).wellFormed = true := by decide
theorem test_params_nCtx : ¬ ({ Params.reference with nCtx := 0 }).Legal ∧
    ¬ ({ Params.reference with nCtx := 17 }).Legal := by decide
theorem test_params_wMax : ¬ ({ Params.reference with wMax := 63 }).Legal ∧
    ¬ ({ Params.reference with wMax := 4128 }).Legal ∧ ¬ ({ Params.reference with wMax := 65 }).Legal := by decide
theorem test_params_pbufSize : ¬ ({ Params.reference with pbufSize := 252 }).Legal ∧
    ¬ ({ Params.reference with pbufSize := 65540 }).Legal ∧
    ¬ ({ Params.reference with pbufSize := 258 }).Legal := by decide
theorem test_params_tag32 : ¬ ({ Params.reference with srtcpTag32Len := 8 }).Legal := by decide

-- Small states and their next ones.

/-- The reset state with these bytes in the buffer from `a` on, and these source and destination ranges. -/
def buf (a : Nat) (bs : List Byte) (src len dst cap : Word) : State :=
  { State.reset with
    pb := memWriteBytes [] a bs
    op := { OperandRegs.reset with srcAddr := src, srcLen := len, dstAddr := dst, dstCap := cap } }

/-- The state the command leaves. -/
def after (i : Instr) (s : State) : State :=
  match exec i s with
  | .next t => t
  | .fault _ | .refused _ => s

/-- The error code the command leaves; 0xFF where it leaves no state. -/
def code (i : Instr) (s : State) : BitVec 8 :=
  match exec i s with
  | .next t => t.glob.status.errcode
  | .fault _ | .refused _ => 0xFF

-- 40_control.md

/-- V1.1. -/
theorem test_nop : code .nop State.reset = 0 ∧ (after .nop State.reset).glob.cmdCount = 1 ∧
    statusWord (after .nop State.reset).glob.status = 2 := by decide

/-- V1.8, V11.1, V11.2: a raise in STATUS, INT_STATUS and the line. -/
theorem test_raise : statusWord (after (.ctxInit 15) State.reset).glob.status = 0x606 ∧
    intWord (after (.ctxInit 15) State.reset).glob.intStatus = 3 ∧
    (after (.ctxInit 15) State.reset).glob.irq = false ∧
    (after (.ctxInit 15) { State.reset with
      glob := { GlobalRegs.reset with intEn := ⟨false, true, false⟩ } }).glob.irq = true := by decide

-- 41_rtp_codec.md

/-- The registers of V2.1. -/
def encodeState (b01 : BitVec 16) (cap : Word) : State :=
  { buf 0 [0xDE, 0xAD, 0xBE, 0xEF] 0 4 0x100 cap with
    hdr := { HeaderRegs.reset with b01, seq := 1000, ts := 48000, ssrc := 0x11223344, extProfile := 0x1000 } }

/-- V2.1; V2.7: the version written to HDR_B01 is ignored. -/
theorem test_rtpEncode : memBytes (after .rtpEncode (encodeState 0xEF 64)).pb 0x100 16 =
      [0x80, 0xEF, 0x03, 0xE8, 0x00, 0x00, 0xBB, 0x80, 0x11, 0x22, 0x33, 0x44, 0xDE, 0xAD, 0xBE, 0xEF] ∧
    (after .rtpEncode (encodeState 0xEF 64)).op.resLen = 16 ∧
    (after .rtpEncode (encodeState 0xEF 64)).hdr.payloadOff = 0x10C ∧
    memByte (after .rtpEncode (encodeState 0xC0EF 64)).pb 0x100 = 0x80 := by decide +kernel

/-- The registers of V2.3: two CSRCs, and an extension of five bytes. -/
def extState (cap : Word) : State :=
  { buf 0x40 [0x10, 0xAA, 0x20, 0xBB, 0xCC, 0, 0, 0, 0, 0, 0, 0, 0, 0, 0, 0, 0x01, 0x02] 0x50 2 0x200 cap with
    op := { OperandRegs.reset with
      srcAddr := 0x50, srcLen := 2, dstAddr := 0x200, dstCap := cap, auxAddr := 0x40, auxLen := 5 }
    hdr := { HeaderRegs.reset with
      b01 := 0x12E0, seq := 0x1234, ts := 0xDEADBEEF, ssrc := 0xCAFEBABE, extProfile := 0xBEDE
      csrc := (HeaderRegs.reset.csrc.set 0 0x01020304).set 1 0x05060708 } }

/-- V2.3. -/
theorem test_rtpEncode_extension : memBytes (after .rtpEncode (extState 64)).pb 0x200 34 =
    [0x92, 0xE0, 0x12, 0x34, 0xDE, 0xAD, 0xBE, 0xEF, 0xCA, 0xFE, 0xBA, 0xBE, 0x01, 0x02, 0x03, 0x04, 0x05, 0x06, 0x07,
     0x08, 0xBE, 0xDE, 0x00, 0x02, 0x10, 0xAA, 0x20, 0xBB, 0xCC, 0x00, 0x00, 0x00, 0x01, 0x02] ∧
    (after .rtpEncode (extState 64)).hdr.extOff = 0x218 ∧ (after .rtpEncode (extState 64)).hdr.hdrLen = 32 := by
  decide +kernel

/-- V2.4: the bytes of V2.3 decoded. -/
theorem test_rtpDecode : ∀ t, t = after .rtpDecode { after .rtpEncode (extState 64) with
      op := { OperandRegs.reset with srcAddr := 0x200, srcLen := 34 } } →
    t.hdr.b01 = 0x92E0 ∧ t.hdr.csrc.toList.take 3 = [0x01020304, 0x05060708, 0] ∧ t.hdr.extOff = 0x218 ∧
    t.hdr.payloadLen = 2 ∧ hdrFlagsWord t.hdr.flags = 1 := by
  intro t h; subst h; decide +kernel

/-- V2.8, V2.9, V2.10, V2.11 and V2.12: the first check that fails; V2.13 and V2.14 finish. -/
theorem test_rtpDecode_checks :
    code .rtpDecode (buf 0 [0x80, 0, 0, 1, 0, 0, 0, 0, 0, 0, 0] 0 11 0 0) = 1 ∧
    code .rtpDecode (buf 0 [0x40, 0, 0, 1, 0, 0, 0, 0, 0, 0, 0, 1] 0 12 0 0) = 1 ∧
    code .rtpDecode (buf 0 ([0x83, 0, 0, 1] ++ List.replicate 16 0) 0 20 0 0) = 1 ∧
    code .rtpDecode (buf 0 ([0x90, 0, 0, 1] ++ List.replicate 10 0) 0 14 0 0) = 1 ∧
    code .rtpDecode (buf 0 [0x90, 0, 0, 1, 0, 0, 0, 0, 0, 0, 0, 1, 0xBE, 0xDE, 0, 2, 0, 0, 0, 0] 0 20 0 0) = 1 ∧
    code .rtpDecode (buf 0 [0x80, 0, 0, 1, 0, 0, 0, 0, 0, 0, 0, 1] 0 12 0 0) = 0 ∧
    (after .rtpDecode (buf 0 [0xA0, 0, 0, 1, 0, 0, 0, 0, 0, 0, 0, 1, 0, 0, 0, 2] 0 16 0 0)).hdr.payloadLen = 4 := by
  decide +kernel

-- 42_rtp_session.md

/-- RES0 after SEQ_DIFF of two values. -/
def diff (a b : Word) : Word :=
  (after .seqDiff { State.reset with op := { OperandRegs.reset with arg0 := a, arg1 := b } }).op.res0

/-- V3.1, V3.2, V3.3, V3.4 and V3.5. -/
theorem test_seqDiff : diff 0 65535 = 1 ∧ diff 65535 0 = 0xFFFFFFFF ∧ diff 32768 0 = 0xFFFF8000 ∧
    diff 32767 0 = 0x7FFF ∧ diff 0x00010005 5 = 0 := by decide +kernel

/-- V3.6. -/
theorem test_sessInit : ∀ t, t = after (.sessInit false false) { State.reset with
      sess := { SessionRegs.reset with ssrc := 0x11223344, seq := 1000, txPkts := 7 } } →
    t.sess.ssrc = 0x11223344 ∧ t.sess.seq = 1000 ∧ t.sess.txPkts = 0 ∧ rxStateWord t.rx.state = 0 := by
  intro t h; subst h; decide +kernel

/-- V3.7: each draw is a value of its own. -/
theorem test_sessInit_draws : (after (.sessInit true true) State.reset).sess.ssrc = Config.draw32 0 ∧
    (after (.sessInit true true) State.reset).sess.seq = Config.draw16 1 ∧
    (after (.sessInit true true) State.reset).draws = 2 := ⟨rfl, rfl, rfl⟩

/-- The state of V3.8. -/
def createState (seq : BitVec 16) (pt : BitVec 7) (cap : Word) : State :=
  { buf 0 [0xDE, 0xAD, 0xBE, 0xEF] 0 4 0x100 cap with
    sess := { SessionRegs.reset with ssrc := 0x11223344, seq, pt, ts := 48000 } }

/-- V3.8. -/
theorem test_sessCreatePacket : ∀ t, t = after (.sessCreatePacket true) (createState 1000 111 64) →
    memBytes t.pb 0x100 16 =
      [0x80, 0xEF, 0x03, 0xE8, 0x00, 0x00, 0xBB, 0x80, 0x11, 0x22, 0x33, 0x44, 0xDE, 0xAD, 0xBE, 0xEF] ∧
    t.sess.seq = 1001 ∧ t.sess.txPkts = 1 ∧ t.sess.txOctets = 4 ∧ t.hdr.b01 = 0x80EF ∧ t.op.resLen = 16 := by
  intro t h; subst h; decide +kernel

/-- V3.9. -/
theorem test_sessCreatePacket_wrap : ∀ t, t = after (.sessCreatePacket false) (createState 65535 0 64) →
    memBytes t.pb 0x101 3 = [0x00, 0xFF, 0xFF] ∧ t.sess.seq = 0 := by
  intro t h; subst h; decide +kernel

/-- A received packet with an empty payload. -/
def received (seq : BitVec 16) (ts ssrc arrival : Word) (rx : RxRegs) : State :=
  { buf 0 ([0x80, 0x00] ++ beBytes 2 seq.toNat ++ wordBytes ts ++ wordBytes ssrc) 0 12 0 0 with
    sess := { SessionRegs.reset with rxArrival := arrival }, rx }

/-- The statistics after V3.15. -/
def rxV315 : RxRegs :=
  { RxRegs.reset with
    state := ⟨true, false, false, false⟩, ssrc := 0xAABBCCDD, baseSeq := 65534, maxSeq := 0, cycles := 1
    received := 3, duplicates := 1, jitter16 := 9, lastTransit := 95 }

/-- V3.14 and V3.15: the wrap counts a cycle, the duplicate changes one counter. -/
theorem test_process_wrap : ∀ t u, t = after .sessProcessReceived (received 0 320 0xAABBCCDD 415
        { rxV315 with maxSeq := 65535, cycles := 0, received := 2, duplicates := 0, jitter16 := 2, lastTransit := 102 }) →
      u = after .sessProcessReceived (received 0 320 0xAABBCCDD 415 { rxV315 with duplicates := 0 }) →
    t.rx = { rxV315 with duplicates := 0 } ∧ hdrFlagsWord t.hdr.flags = 0 ∧ u.rx = rxV315 ∧
      hdrFlagsWord u.hdr.flags = 4 := by
  intro t u ht hu; subst ht hu; decide +kernel

/-- V3.16 and V3.18: a reordered packet, and a foreign source. -/
theorem test_process_reordered : ∀ t u,
      t = after .sessProcessReceived (received 65533 0xFFFFFF60 0xAABBCCDD 300 rxV315) →
      u = after .sessProcessReceived (received 2 640 0x01020304 700 rxV315) →
    t.rx = { rxV315 with received := 4, reordered := 1, jitter16 := 373, lastTransit := 460 } ∧
      hdrFlagsWord t.hdr.flags = 8 ∧ u.rx = rxV315 ∧ hdrFlagsWord u.hdr.flags = 2 := by
  intro t u ht hu; subst ht hu; decide +kernel

-- 43_rtcp.md

/-- V4.1 to V4.8. -/
theorem test_loss_arithmetic : lossFraction 4 1 = 64 ∧ lossFraction 4 4 = 255 ∧ lossFraction 0 0 = 0 ∧
    lossFraction 3 (-1) = 0 ∧ lossFraction 3 2 = 170 ∧ BitVec.ofInt 24 (clamp24 (-1)) = 0xFFFFFF ∧
    BitVec.ofInt 24 (clamp24 (2 ^ 24)) = 0x7FFFFF ∧ BitVec.ofInt 24 (clamp24 (-2 ^ 24)) = 0x800000 := by decide

/-- V4.9 and V4.10. -/
theorem test_ntpShort : ntpShort 0x00001234 0x56780000 = 0x12345678 ∧
    ntpShort 0xE1234567 0x89ABCDEF = 0x456789AB := by decide

/-- The state of V5.1. -/
def reportState (cap : Word) (rx : RxRegs) : State :=
  { buf 0 [] 0 0 0 cap with
    sess := { SessionRegs.reset with
      ssrc := 0x11223344, nowNtpMsw := 0xE1234567, nowNtpLsw := 0x89ABCDEF, nowRtpTs := 48000, txPkts := 5
      txOctets := 100 }
    rx }

/-- The bytes of V5.1. -/
def v51 : List Byte :=
  [0x80, 0xC8, 0x00, 0x06, 0x11, 0x22, 0x33, 0x44, 0xE1, 0x23, 0x45, 0x67, 0x89, 0xAB, 0xCD, 0xEF, 0x00, 0x00, 0xBB,
   0x80, 0x00, 0x00, 0x00, 0x05, 0x00, 0x00, 0x00, 0x64]

/-- V5.1. -/
theorem test_createSr : memBytes (after .rtcpCreateSr (reportState 64 RxRegs.reset)).pb 0 28 = v51 ∧
    (after .rtcpCreateSr (reportState 64 RxRegs.reset)).op.resLen = 28 := by decide +kernel

/-- The statistics of P3 before its first report. -/
def rxP3 : RxRegs :=
  { RxRegs.reset with
    state := ⟨true, false, false, false⟩, ssrc := 0x55667788, baseSeq := 1000, maxSeq := 1003, received := 3
    jitter16 := 19, lastTransit := 1000 }

/-- The first report of P3 (V5.6), and V5.7. -/
theorem test_createRr : ∀ t u, t = after .rtcpCreateRr (reportState 64 rxP3) →
      u = after .rtcpCreateSr (reportState 64 rxP3) →
    memBytes t.pb 0 32 =
      [0x81, 0xC9, 0x00, 0x07, 0x11, 0x22, 0x33, 0x44, 0x55, 0x66, 0x77, 0x88, 0x40, 0x00, 0x00, 0x01, 0x00, 0x00,
       0x03, 0xEB, 0x00, 0x00, 0x00, 0x01, 0x00, 0x00, 0x00, 0x00, 0x00, 0x00, 0x00, 0x00] ∧
    t.rx.expectedPrior = 4 ∧ t.rx.receivedPrior = 3 ∧ memBytes u.pb 0 4 = [0x81, 0xC8, 0x00, 0x0C] ∧
    u.op.resLen = 52 := by
  intro t u ht hu; subst ht hu; decide +kernel

/-- The second report of P3: a DLSR, and nothing expected since the last one. -/
theorem test_createRr_dlsr : memBytes (after .rtcpCreateRr { reportState 64 { rxP3 with
        state := ⟨true, true, true, true⟩, expectedPrior := 4, receivedPrior := 3, lsr := 0x12345678
        lsrArrival := 0x00030000 } with
      sess := { SessionRegs.reset with ssrc := 0x11223344, nowNtpMsw := 3, nowNtpLsw := 0x40000000 } }).pb 12 20 =
    [0x00, 0x00, 0x00, 0x01, 0x00, 0x00, 0x03, 0xEB, 0x00, 0x00, 0x00, 0x01, 0x12, 0x34, 0x56, 0x78, 0x00, 0x00, 0x40,
     0x00] := by decide +kernel

/-- V5.4. -/
theorem test_createBye : memBytes (after .rtcpCreateBye (reportState 8 RxRegs.reset)).pb 0 8 =
    [0x81, 0xCB, 0x00, 0x01, 0x11, 0x22, 0x33, 0x44] := by decide +kernel

/-- V6.1. -/
theorem test_parse_sr : ∀ t, t = after .rtcpParse (buf 0 v51 0 28 0 0) →
    t.rtcp = ⟨0x80C80006, 0x11223344, 0xE1234567, 0x89ABCDEF, 48000, 5, 100, ⟨0, false, false⟩⟩ ∧
    t.rx.lsr = 0x456789AB ∧ t.rx.state.lsrValid = true ∧ t.op.resLen = 28 := by
  intro t h; subst h; decide +kernel

/-- The peer's SR of P3. -/
def p3Sr : List Byte :=
  [0x81, 0xC8, 0x00, 0x0C, 0x55, 0x66, 0x77, 0x88, 0x00, 0x00, 0x12, 0x34, 0x56, 0x78, 0x00, 0x00, 0x00, 0x00, 0x0F,
   0xA0, 0x00, 0x00, 0x00, 0x0A, 0x00, 0x00, 0x06, 0x40, 0x11, 0x22, 0x33, 0x44, 0x20, 0x00, 0x00, 0x02, 0x00, 0x01,
   0x03, 0xE8, 0x00, 0x00, 0x00, 0x05, 0x00, 0x01, 0x00, 0x00, 0x00, 0x00, 0x80, 0x00]

/-- The parse of P3: a block for this session, and a round-trip time. -/
theorem test_parse_block : ∀ t, t = after .rtcpParse { buf 0x300 p3Sr 0x300 52 0 0 with
      sess := { SessionRegs.reset with ssrc := 0x11223344, nowNtpMsw := 3 } } →
    rtcpInfoWord t.rtcp.info = 0x101 ∧ t.rx.lsr = 0x12345678 ∧ t.rx.lsrArrival = 0x00030000 ∧
    t.rx.remoteLoss = 0x20000002 ∧ t.rx.remoteExtMax = 0x000103E8 ∧ t.rx.remoteJitter = 5 ∧ t.rx.rtt = 0x00018000 ∧
    rxStateWord t.rx.state = 0xE := by
  intro t h; subst h; decide +kernel

-- 44_srtp_context_kdf.md

/-- A valid context of profile 0 for SSRC 0x11223344, with no packet seen. -/
def ready (dir : Bool) : Ctx :=
  { Ctx.reset with
    cfg := ⟨.aesCm128Sha80, dir, false, false⟩, status := { CtxStatus.zero with valid := true }, ssrc := 0x11223344 }

/-- A state with these two banks. -/
def banks (s : State) (b0 b1 : Ctx) : State := (s.setBank 0 b0).setBank 1 b1

/-- Bank 0 not valid, with KDR, WIN_SIZE and ROC_INIT as given and KB3 staged, followed by bytes profile 0 does not
use. -/
def staged (kdr : Word) (win : BitVec 16) : State :=
  State.reset.setBank 0 { Ctx.reset with
    kdr, winSize := win, rocInit := 5
    mkeyStg := 0xE1F97A0D3E018BE0D64FA32C06DE4139FFFFFFFFFFFFFFFFFFFFFFFFFFFFFFFF
    msaltStg := 0x0EC675AD498AFEEBB6960B3AABE6FFFF }

/-- V7.1, V7.8: the key and salt bytes the profile uses, ROC from ROC_INIT. -/
theorem test_ctxInit : ∀ b, b = (after (.ctxInit 0) (staged 0 64)).bank 0 →
    b.mkeyAct = 0xE1F97A0D3E018BE0D64FA32C06DE413900000000000000000000000000000000 ∧
    b.msaltAct = 0x0EC675AD498AFEEBB6960B3AABE6 ∧ b.roc = 5 ∧ ctxStatusWord b.status = 1 := by
  intro b h; subst h; decide +kernel

/-- V7.2 to V7.7. -/
theorem test_ctxInit_checks : code (.ctxInit 0) (banks State.reset (ready false) Ctx.reset) = 6 ∧
    code (.ctxInit 0) (staged 3 64) = 6 ∧ code (.ctxInit 0) (staged 0x01000000 64) = 0 ∧
    code (.ctxInit 0) (staged 0x02000000 64) = 6 ∧ code (.ctxInit 0) (staged 0 0) = 6 ∧
    code (.ctxInit 0) (staged 0 1025) = 6 ∧ code (.ctxInit 0) (staged 0 1024) = 0 := by decide +kernel

/-- V7.10 and V7.11. -/
theorem test_ctxUpdateKey : ∀ t, t = after (.ctxUpdateKey 0) { State.reset.setBank 0 { ready false with
        roc := 3, sL := 7, status := ⟨true, true, false, true, false, true⟩ } with sk := { SkRegs.reset with auth := 1 } } →
    (t.bank 0).roc = 3 ∧ (t.bank 0).sL = 7 ∧ ctxStatusWord (t.bank 0).status = 3 ∧ t.sk.auth = 0 ∧
    code (.ctxUpdateKey 1) State.reset = 7 := by
  intro t h; subst h; decide +kernel

/-- V7.12, V7.13 and V7.14. -/
theorem test_ctxTeardown : ∀ b, b = (after (.ctxTeardown 0) (State.reset.setBank 0 { ready false with
        roc := 3, kdr := 0x10000, mkeyStg := 1 })).bank 0 →
    b.roc = 0 ∧ b.kdr = 0x10000 ∧ b.mkeyStg = 0 ∧ ctxStatusWord b.status = 0 ∧ b.ssrc = 0x11223344 ∧
    code (.ctxTeardown 1) State.reset = 0 ∧ code (.ctxTeardown 2) State.reset = 6 := by
  intro b h; subst h; decide +kernel

/-- KB3 in bank 0. -/
def kb3 : Ctx :=
  { ready false with
    mkeyAct := 0xE1F97A0D3E018BE0D64FA32C06DE413900000000000000000000000000000000
    msaltAct := 0x0EC675AD498AFEEBB6960B3AABE6 }

/-- V8.3: KDR 2^16 at index 2^16, so r = 1. -/
theorem test_kdf : ∀ k, k = (after (.kdf 0 false) { State.reset.setBank 0 { kb3 with kdr := 0x10000 } with
        kdfIdx := 0x10000 }).sk →
    k.enc = 0x53870B4B8E2AF0C6F0CC8B1544C3413800000000000000000000000000000000 ∧
    k.auth = 0xC70D7F14E755380E6FF4ED24F4F611AAD19685CE ∧ k.salt = 0xC6DA1BBCDC3F429CD82F2593EB600000 ∧
    skInfoWord k.info = 0x140E1001 ∧ k.r = 1 := by
  intro k h; subst h; decide +kernel

/-- V8.10: AES-256, SRTCP. -/
theorem test_kdf_256 : ∀ k, k = (after (.kdf 0 true) (State.reset.setBank 0 { ready false with
        cfg := ⟨.aeadAes256Gcm, false, false, false⟩
        mkeyAct := 0x000102030405060708090A0B0C0D0E0F101112131415161718191A1B1C1D1E1F
        msaltAct := 0xA0A1A2A3A4A5A6A7A8A9AAAB0000 })).sk →
    k.enc = 0x3C90F52A0A13FF8A853397CADC245B9EAC76B36EDB4A6062BF624AA1174EEBF2 ∧ k.auth = 0 ∧
    k.salt = 0x258C540CF38DDD40848CEAED00000000 ∧ skInfoWord k.info = 0x000C2003 := by
  intro k h; subst h; decide +kernel

-- 45_srtp_index_replay.md

/-- V9.a to V9.j, ROC, S_L, SL_VALID and the sequence number as the row gives them. -/
def estimate (roc : Word) (sL : BitVec 16) (slValid : Bool) (seq : BitVec 16) : Int :=
  estimateV { Ctx.reset with roc, sL, status := { CtxStatus.zero with slValid } } seq

/-- V9.b to V9.j. -/
theorem test_estimate : estimate 5 0 false 40000 = 5 ∧ estimate 0 65535 true 0 = 1 ∧ estimate 1 0 true 65535 = 0 ∧
    estimate 0 10 true 65000 = -1 ∧ estimate 0 100 true 32868 = 0 ∧ estimate 0 100 true 32869 = -1 ∧
    estimate 0 40000 true 7232 = 0 ∧ estimate 0 40000 true 7231 = 1 ∧
    estimate 0xFFFFFFFF 65535 true 0 = 2 ^ 32 := by decide

/-- A 32-byte RTP packet of SSRC 0x11223344 at 0x100, to be sent with DST_CAP `cap`. -/
def rtp (seq : BitVec 16) (len cap : Word) (s : State) : State :=
  { s with
    pb := memWriteBytes [] 0x100 ([0x80, 0x6F] ++ beBytes 2 seq.toNat ++ [0x00, 0x00, 0xBB, 0x80, 0x11, 0x22, 0x33, 0x44] ++
      List.replicate 36 0)
    op := { OperandRegs.reset with srcAddr := 0x100, srcLen := len, dstCap := cap } }

/-- V9.1, V9.7: framing with profile 2, and ROC rolling over at sequence number 0. -/
theorem test_srtpTx : ∀ t u, t = after (.srtpTx 0) (rtp 1000 32 64 (State.reset.setBank 0 { ready false with
        cfg := ⟨.aeadAes128Gcm, false, false, false⟩ })) →
      u = after (.srtpTx 0) (rtp 0 32 64 (State.reset.setBank 0 { ready false with
        sL := 65535, status := ⟨true, true, false, false, false, false⟩ })) →
    t.op.resLen = 48 ∧ t.sr = ⟨1000, 0, 0x10C, 20, 0x120, 16, 0, 0, 0, false⟩ ∧ (t.bank 0).sL = 1000 ∧
    ctxStatusWord (t.bank 0).status = 3 ∧ u.sr.index = 65536 ∧ (u.bank 0).roc = 1 ∧ (u.bank 0).sL = 0 := by
  intro t u ht hu; subst ht hu; decide +kernel

/-- V9.2 and V9.3: the MKI after and before the tag. -/
theorem test_srtpTx_mki : ∀ b t u, b = { ready false with
        cfg := ⟨.aesCm128Sha80, false, true, false⟩, mki := 0xCAFEF00D } →
      t = after (.srtpTx 0) (rtp 1 32 64 (State.reset.setBank 0 b)) →
      u = after (.srtpTx 0) (rtp 1 32 64 { State.reset.setBank 0 b with
        params := { Params.reference with mkiBeforeTag := true } }) →
    t.sr.tagOff = 0x120 ∧ t.sr.mkiOff = 0x12A ∧ memBytes t.pb 0x12A 4 = [0xCA, 0xFE, 0xF0, 0x0D] ∧ u.sr.tagOff = 0x124 ∧
    memBytes u.pb 0x120 4 = [0xCA, 0xFE, 0xF0, 0x0D] ∧ u.op.resLen = 46 := by
  intro b t u hb ht hu; subst hb; subst ht hu; decide +kernel

/-- A receive context after index 163 with bits 0 and 63 set, as after V9.11. -/
def v911 : Ctx :=
  { ready true with
    sL := 163, winTop := 163, bmp := 0x8000000000000001, status := ⟨true, true, true, false, false, false⟩ }

/-- V9.12, V9.13: the floor, and a candidate. The packet is 32 bytes with its 10-byte tag. -/
theorem test_srtpRxCheck : ∀ t, t = after (.srtpRxCheck 1) (rtp 164 42 0 (banks State.reset (ready false) v911)) →
    code (.srtpRxCheck 1) (rtp 99 42 0 (banks State.reset (ready false) v911)) = 3 ∧
    code (.srtpRxCheck 1) (rtp 100 42 0 (banks State.reset (ready false) v911)) = 3 ∧
    (t.bank 1).candIndex = 164 ∧ ctxStatusWord (t.bank 1).status = 0xF ∧ (t.bank 1).winTop = 163 ∧ t.op.resLen = 32 := by
  intro t h; subst h; decide +kernel

/-- Bank 1 a receive context with a candidate: index `cand`, its low 16 bits the sequence number. -/
def candidate (b : Ctx) (cand : BitVec 48) : State :=
  State.reset.setBank 1 { b with
    candIndex := cand, candSeq := cand.setWidth 16, status := { b.status with candValid := true } }

/-- V9.13: index 164 slides index 100 out. -/
theorem test_srtpRxCommit : ∀ b, b = (after (.srtpRxCommit 1 true) (candidate v911 164)).bank 1 →
    b.winTop = 164 ∧ b.bmp = 3 ∧ b.sL = 164 ∧ ctxStatusWord b.status = 7 := by
  intro b h; subst h; decide +kernel

/-- That context after index 164. -/
def v913 : Ctx := { v911 with winTop := 164, bmp := 3, sL := 164 }

/-- V9.15: index 101 is marked below the top. V9.17: AUTH_OK = 0. -/
theorem test_srtpRxCommit_below : ((after (.srtpRxCommit 1 true) (candidate v913 101)).bank 1).winTop = 164 ∧
    ((after (.srtpRxCommit 1 true) (candidate v913 101)).bank 1).bmp.toNat = 0x8000000000000003 ∧
    ((after (.srtpRxCommit 1 true) (candidate v913 101)).bank 1).sL = 164 ∧
    code (.srtpRxCommit 1 false) (candidate v911 164) = 4 := by decide +kernel

/-- The SR of V5.1 at 0, to be sent on bank 0 or received on bank 1. -/
def rtcp (tail : List Byte) (len cap : Word) (s : State) : State :=
  { s with
    pb := memWriteBytes [] 0 (v51 ++ tail)
    op := { OperandRegs.reset with srcLen := len, dstCap := cap } }

/-- V10.1, V10.3. -/
theorem test_srtcpTx : ∀ t u, t = after (.srtcpTx 0) (rtcp [] 28 64 (State.reset.setBank 0 { ready false with
        cfg := ⟨.aesCm128Sha80, false, false, true⟩ })) →
      u = after (.srtcpTx 0) (rtcp [] 28 64 (State.reset.setBank 0 { ready false with rtcpTxIndex := 1 })) →
    t.op.resLen = 42 ∧ memBytes t.pb 0x1C 4 = [0x80, 0x00, 0x00, 0x00] ∧
    t.sr = ⟨0, 0, 8, 20, 0x20, 10, 0, 0, 0x1C, true⟩ ∧ (t.bank 0).rtcpTxIndex = 1 ∧
    memBytes u.pb 0x1C 4 = [0x00, 0x00, 0x00, 0x01] ∧ u.sr.encLen = 0 := by
  intro t u ht hu; subst ht hu; decide +kernel

/-- V10.4 and V10.14. -/
theorem test_srtcpTx_mki : ∀ t, t = after (.srtcpTx 0) (rtcp [] 28 64 (State.reset.setBank 0 { ready false with
        cfg := ⟨.aesCm128Sha80, false, true, true⟩, mki := 0xCAFEF00D })) →
    t.op.resLen = 46 ∧ t.sr.mkiOff = 0x2A ∧ memBytes t.pb 0x2A 4 = [0xCA, 0xFE, 0xF0, 0x0D] ∧
    code (.srtcpTx 0) (rtcp [] 28 64 (State.reset.setBank 0 { ready false with rtcpTxIndex := 0x80000000 })) = 5 := by
  intro t h; subst h; decide +kernel

/-- V10.8, V10.11. -/
theorem test_srtcpRxCheck : ∀ s t, s = rtcp ([0x80, 0, 0, 0] ++ List.replicate 10 0) 42 0
        (State.reset.setBank 1 (ready true)) →
      t = after (.srtcpRxCheck 1) s →
    t.op.resLen = 28 ∧ (t.bank 1).rtcpCand = 0x80000000 ∧ ctxStatusWord (t.bank 1).status = 0x21 ∧ t.sr.encLen = 20 ∧
    code (.srtcpRxCheck 1) { s with op := { s.op with srcLen := 21 } } = 1 := by
  intro s t hs ht; subst hs; subst ht; decide +kernel

/-- V10.9, V10.10. -/
theorem test_srtcpRxCommit : ∀ b, b = (after (.srtcpRxCommit 1 true) (State.reset.setBank 1 { ready true with
        rtcpCand := 0x80000000, status := ⟨true, false, false, false, false, true⟩ })).bank 1 →
    b.rtcpTop = 0 ∧ ctxStatusWord b.status = 0x11 ∧ b.rtcpBmp = 1 ∧
    code (.srtcpRxCheck 1) (rtcp ([0x80, 0, 0, 0] ++ List.replicate 10 0) 42 0 (State.reset.setBank 1 b)) = 3 := by
  intro b h; subst h; decide +kernel

-- 20_memory.md, 60_exceptions.md, 70_reset_and_hazards.md

/-- The state with a command running. -/
def busy (s : State) : State := { s with glob := { s.glob with status := { s.glob.status with busy := true } } }

/-- V11.5 and V11.6. -/
theorem test_busy : ∀ t u, t = hostAccess (busy State.reset) (.write 0x008 .word 5) →
      u = hostAccess (busy State.reset) (.read 0x100 .word) →
    t.glob.status.cmdOverrun = true ∧ t.glob.pending = 0 ∧ u.readData = 0 ∧ u.glob.status.accErr = true := by
  intro t u ht hu; subst ht hu; decide +kernel

/-- V11.7, V11.8 and V11.9. -/
theorem test_host_reads : (hostAccess State.reset (.read 0x600 .word)).glob.status.accErr = true ∧
    (hostAccess State.reset (.read 0x05C .word)).glob.status.accErr = false ∧
    (hostAccess State.reset (.read 0x000 .word)).readData = 0x534B0001 ∧
    (hostAccess State.reset (.read 0x01C .word)).readData = 0x0A040002 ∧
    (hostAccess State.reset (.read 0x508 .word)).readData = 64 := by decide +kernel

/-- R81: byte lanes. -/
theorem test_lanes : ∀ t, t = hostAccess State.reset (.write 0x10FFC .word 0x44332211) →
    memBytes t.pb 0xFFC 4 = [0x11, 0x22, 0x33, 0x44] ∧
    (hostAccess t (.read 0x10FFE .half)).readData = 0x4433 := by
  intro t h; subst h; decide +kernel

/-- Two accesses and the command they start: the program is what the host writes (log entry 5). -/
theorem test_program : ∀ t, Sys2Proof.core.run 3 { State.reset with host :=
        [⟨.write 0x060 .word 7, false⟩, ⟨.write 0x008 .word 0x0000000B, false⟩] } = .next t →
    t.op.res0 = 7 ∧ t.glob.status.busy = false ∧ t.glob.cmdCount = 1 := by
  intro t h
  cases h
  decide +kernel

-- The hypotheses of the statements: for each, states and operands that meet them, at the values where clauses meet.

/-- A state with a command word pending. -/
def pending (w : Nat) (s : State) : State := s.withFetchWord 32 w

/-- A host access still to come. -/
def oneAccess (whileBusy : Bool) : State := { State.reset with host := [⟨.read 0x00C .word, whileBusy⟩] }

theorem witness_DecodeEncodeAgree : decode 0x00030008#32 = .ok (.sessInit true true) := by decide

theorem witness_LegalWords : (CmdFields.ofWord (pending 0x10028 State.reset).glob.pending).wellFormed = false ∧
    (CmdFields.ofWord (pending 0x00003 State.reset).glob.pending).wellFormed = false ∧
    (CmdFields.ofWord (pending 0x01020 State.reset).glob.pending).wellFormed = false := by decide

theorem witness_StepRunsDecodedCommand :
    (∀ s, s = pending 0x0B State.reset →
      s.glob.status.busy = true ∧ s.host = [] ∧ decode s.glob.pending = .ok .seqDiff) ∧
    ∀ s, s = pending 0x0B (oneAccess true) → s.glob.status.busy = true ∧
      s.host = [⟨.read 0x00C .word, false⟩] ∧ decode s.glob.pending = .ok .seqDiff := by
  refine ⟨?_, ?_⟩ <;> (intro s h; subst h; decide)

theorem witness_IdleAndHostSteps : (State.reset.glob.status.busy = false ∧ State.reset.host = []) ∧
    ((oneAccess false).host = [⟨.read 0x00C .word, false⟩] ∧ (oneAccess false).glob.status.busy = false) ∧
    ((busy (oneAccess true)).host = [⟨.read 0x00C .word, true⟩] ∧ (busy (oneAccess true)).glob.status.busy = true) := by
  decide

theorem witness_RaisingChangesNothingElse :
    ∃ t, engineStep (pending 3 State.reset) = .next t ∧ (8 : BitVec 8) = t.glob.status.errcode ∧ (8 : BitVec 8) ≠ 0 :=
  ⟨_, rfl, rfl, by decide⟩

theorem witness_ErrorSources : Raises (.ctxInit 15) State.reset .invalidParam := rfl

theorem witness_ContextCheckOrder :
    (State.reset.params.nCtx ≤ (2 : BitVec 4).toNat ∧ code (.ctxTeardown 2) State.reset = 6) ∧
    ((1 : BitVec 4).toNat < State.reset.params.nCtx ∧ (State.reset.bank 1).status.valid = false ∧
      code (.kdf 1 true) State.reset = 7) ∧
    (((State.reset.setBank 1 (ready true)).bank 1).status.valid = true ∧
      code (.ctxInit 1) (State.reset.setBank 1 (ready true)) = 6) ∧
    (((State.reset.setBank 1 (ready true)).bank 1).cfg.dir ≠ false ∧
      code (.srtcpTx 1) (State.reset.setBank 1 (ready true)) = 6) := by decide +kernel

/-- v911 is a sound context, and it has its own ROC and windows. -/
theorem witness_sound (p : Params) (h : 64 ≤ p.wMax) : CtxOk p v911 := by
  refine ⟨fun hv => absurd hv (by decide), fun _ => ⟨⟨by decide, h⟩, ⟨?_, ?_, ?_⟩, ⟨?_, ?_, ?_⟩, ?_⟩⟩
  · intro k hk
    have h64 : k ≥ 64 := hk
    have hb : (srtpWindow v911).bmp = BitVec.ofNat 4096 0x8000000000000001 := rfl
    rw [hb, BitVec.getLsbD_ofNat, Nat.testBit_lt_two_pow (Nat.lt_of_lt_of_le (by decide : _ < 2 ^ 64)
      (Nat.pow_le_pow_right (by decide) h64)), Bool.and_false]
  · intro hv; exact absurd hv (by decide)
  · intro _; decide +kernel
  · intro k _
    have hb : (srtcpWindow v911).bmp = 0#4096 := rfl
    rw [hb, BitVec.getLsbD_zero]
  · intro _; exact ⟨rfl, rfl⟩
  · intro hv; exact absurd hv (by decide)
  · intro hv; exact absurd hv (by decide)

/-- The steps keep the invariants of a state with a context, a buffer byte and a pending command. -/
def sound : State := pending 0x12A (candidate v911 164)

theorem witness_StepKeepsStatusIrqParams : StatusInv sound ∧ IrqInv sound ∧ ∃ t, step sound = .next t :=
  ⟨by decide, by decide, ⟨_, rfl⟩⟩

theorem witness_StepKeepsBuffer : BufferInv (pending 1 (encodeState 0 64)) ∧
    ∃ t, step (pending 1 (encodeState 0 64)) = .next t :=
  ⟨⟨by decide +kernel, by decide +kernel⟩, ⟨_, rfl⟩⟩

theorem witness_StepKeepsContexts : ContextsInv (pending 0x129 (State.reset.setBank 1 v911)) ∧
    ∃ t, step (pending 0x129 (State.reset.setBank 1 v911)) = .next t := by
  refine ⟨fun c => ?_, ⟨_, rfl⟩⟩
  have hb : (pending 0x129 (State.reset.setBank 1 v911)).bank c = if 1 = c then v911 else Ctx.reset := by
    rw [← bank_reset c]; exact bank_setBank State.reset 1 c v911
  rw [hb]
  split
  · exact witness_sound _ (by decide)
  · exact ⟨fun _ => ⟨rfl, rfl⟩, fun hv => absurd hv (by decide)⟩

theorem witness_HostCmdWrite : State.reset.glob.status.busy = false ∧ (busy State.reset).glob.status.busy = true := by
  decide

/-- The checks of R83, R84 and R85 at their boundaries. -/
theorem witness_HostRejection : State.reset.params.Legal ∧ rejects State.reset 0x050 .byte false = true ∧
    rejects State.reset 0x024 .word false = true ∧ rejects State.reset 0x600 .word true = true ∧
    rejects State.reset 0x5FC .word true = false ∧ rejects State.reset 0x10FFE .word false = true ∧
    rejects State.reset 0x10FFC .word false = false ∧ rejects State.reset 0x10FFF .half true = true ∧
    rejects State.reset 0x10FFF .byte true = false ∧ rejects State.reset 0x010 .other true = true ∧
    rejects State.reset 0x10000 .other true = true ∧ rejects State.reset 0x11000 .byte false = true ∧
    (rejects State.reset 0x10FFE .half false = false ∧ 0x10000 ≤ 0x10FFE ∧ 1 < widthBytes .half) := by decide

theorem witness_HostRejection_busy : rejects (busy State.reset) 0x00C .word false = false ∧
    rejects (busy State.reset) 0x040 .word false = true ∧ rejects (busy State.reset) 0x008 .word false = true ∧
    rejects (busy State.reset) 0x008 .word true = false ∧ rejects (busy State.reset) 0x10000 .byte true = true := by decide

theorem witness_SoftReset : (0x1#32).getLsbD 0 = true ∧ (0xFFFFFFFE#32).getLsbD 0 = false := by decide

theorem witness_LockedRegisters : State.reset.glob.status.busy = false ∧ (1 : BitVec 4).toNat < State.reset.params.nCtx ∧
    (0x00, 5) ∈ lockedRegisters ∧ (0x18, 32) ∈ lockedRegisters ∧ (State.reset.bank 1).status.valid = false ∧
    ((State.reset.setBank 1 (ready true)).bank 1).status.valid = true := by decide +kernel

/-- The read table names every mapped offset below the banks and every offset of a bank but the two bitmap words. -/
theorem test_tables_whole : (List.range 256).all (fun k => mappedRegister (4 * k) ==
      decide (4 * k ∈ (registerWords State.reset).map (·.1))) = true ∧
    (List.range 64).all (fun k => decide (4 * k ∈ (bankWords Ctx.reset).map (·.1)) ==
      (k != 0x30 / 4 && k != 0x4C / 4)) = true := by decide +kernel

/-- STATUS, SR_INDEX_HI, a session-key word and CTX_CFG in their tables (R25, R33, R34, R35). -/
theorem test_table_words : ∀ s, s = { State.reset with
      glob := { State.reset.glob with status := ⟨true, false, true, false, true, 6⟩ }
      sr := { State.reset.sr with index := 0x000200000001 }, sk := { State.reset.sk with enc := 0x0102030405 <<< 216 } } →
    (0x00C, 0x615#32) ∈ registerWords s ∧ (0x204, 2#32) ∈ registerWords s ∧ (0x240, 0x01020304#32) ∈ registerWords s ∧
    (0x00, 0x16#32) ∈ bankWords { Ctx.reset with cfg := ⟨.aeadAes128Gcm, true, false, true⟩ } := by
  intro s h; subst h; decide +kernel

/-- R35, R36: CTX_CFG = 0x0B is AEAD-AES-256-GCM, send, with an MKI. -/
theorem test_ctx_cfg : (hostAccess State.reset (.write (bankOffset 1 0x00) .word 0x0B)).bank 1 =
    { Ctx.reset with cfg := ⟨.aeadAes256Gcm, false, true, false⟩ } := by decide +kernel

theorem witness_RegisterAccessTypes_busy : OpenNow (busy State.reset) 0x00C ∧ OpenNow (busy State.reset) 0x010 ∧
    OpenNow (busy State.reset) 0x018 ∧ ¬ OpenNow (busy State.reset) 0x040 ∧ OpenNow State.reset 0x040 ∧
    (0x010, 3) ∈ rwRegisters ∧ 0x018 ∈ roRegisters ∧ (0x00C, 1#32) ∈ registerWords (busy State.reset) := by decide +kernel

theorem witness_RegisterAccessTypes : State.reset.glob.status.busy = false ∧ (0x010, 3) ∈ rwRegisters ∧
    (0x234, 16) ∈ rwRegisters ∧ (0x230 < 0x400 ∧ 0x230 ≠ 0x234) ∧ (0x3FF < 0x400 ∧ 0x3FF ≠ 0x234) ∧ 0x000 ∈ roRegisters ∧
    0x28C ∈ roRegisters ∧ 0xFC ∈ roBankRegisters ∧ (1 : BitVec 4).toNat < State.reset.params.nCtx := by decide +kernel

/-- A write to the bank's KDR leaves the rest of the bank (R35, R38). -/
theorem test_locked_write_frame : let s := State.reset.setBank 1 { Ctx.reset with roc := 7, mkeyStg := 5 }
    (hostAccess s (.write (bankOffset 1 0x0C) .word 9)).bank 1 = { s.bank 1 with kdr := 9 } := by decide +kernel

theorem witness_KeyStaging : State.reset.glob.status.busy = false ∧ (1 : BitVec 4).toNat < State.reset.params.nCtx ∧
    7 < 8 ∧ 31 / 4 = 7 ∧ 3 < 4 ∧ 15 / 4 = 3 := by decide

/-- R83, R85: an access of any other width is rejected, at a register, in the buffer and at CMD. -/
theorem test_other_width : (∀ off ∈ [0x010, 0x008, 0x10000, 0x0FFFC], ∀ t, t = hostAccess State.reset (.write off .other 7) →
      t.glob.status.accErr = true ∧ t.glob.status.busy = false ∧ t.pb = []) ∧
    (hostAccess State.reset (.read 0x000 .other)).readData = 0 := by
  refine ⟨fun off h t ht => ?_, by decide +kernel⟩
  subst ht; revert off; decide +kernel

theorem witness_BufferLanes : Width.word ≠ .other ∧ Width.half ≠ .other ∧ Width.byte ≠ .other ∧ State.reset.glob.status.busy = false ∧
    (4092 % widthBytes .word = 0 ∧ 4092 + widthBytes .word ≤ State.reset.params.pbufSize) ∧
    (4094 % widthBytes .half = 0 ∧ 4094 + widthBytes .half ≤ State.reset.params.pbufSize) ∧
    4095 % widthBytes .byte = 0 ∧ 4095 + widthBytes .byte ≤ State.reset.params.pbufSize := by decide

theorem witness_BitmapReadback : ∀ b s, b = { v911 with winBmpIdx := 1 } → s = State.reset.setBank 1 b →
    s.glob.status.busy = false ∧ (1 : BitVec 4).toNat < s.params.nCtx ∧ 31 < 32 ∧ 63 = 32 * (s.bank 1).winBmpIdx.toNat + 31 ∧ (readReg s (.bank 1 .winBmpData)).getLsbD 31 = true := by
  intro b s hb hs; subst hs; subst hb; decide +kernel

theorem witness_ContextIndependence : contextOf (.ctxInit 0) ≠ some 1 ∧ contextOf .nop ≠ some 1 ∧
    (∃ t, exec (.ctxInit 0) (staged 0 64) = .next t) ∧ ∃ t, exec .nop State.reset = .next t :=
  ⟨by decide, by decide, ⟨_, rfl⟩, ⟨_, rfl⟩⟩

/-- A buffer with nothing in it: only ranges can be wrong. -/
def ranges (srcAddr srcLen dstAddr dstCap : Word) : State := buf 0 [] srcAddr srcLen dstAddr dstCap

theorem witness_RtpEncode : Params.reference.Legal ∧
    (¬ InRange (ranges 4090 7 0 0) 4090 7 ∧ code .rtpEncode (ranges 4090 7 0 0) = 6) ∧
    (¬ InRange (ranges 0 4 4095 2) 4095 2 ∧ code .rtpEncode (ranges 0 4 4095 2) = 6) ∧
    ((encodeState 0 15).op.dstCap.toNat < hdrLenOf false 0 0 + 4 ∧ code .rtpEncode (encodeState 0 15) = 2) ∧
    (hdrLenOf false 0 0 + 4 = 16 ∧ code .rtpEncode (encodeState 0 16) = 0) ∧
    (hdrLenOf true 2 2 + 2 = 34 ∧ (extState 34).hdr.b01.getLsbD 12 = true ∧ code .rtpEncode (extState 33) = 2 ∧
      code .rtpEncode (extState 34) = 0) := by decide +kernel

theorem witness_RtpEncode_aux : ∀ s, s = { extState 64 with op := { (extState 64).op with auxAddr := 4092 } } →
    InRange s s.op.srcAddr s.op.srcLen ∧ s.hdr.b01.getLsbD 12 = true ∧ ¬ InRange s s.op.auxAddr s.op.auxLen ∧
    code .rtpEncode s = 6 := by
  intro s h; subst h; decide +kernel

/-- Source ranges and packets, for RTP_DECODE and SESS_PROCESS_RECEIVED. -/
theorem witness_RtpDecode : ¬ InRange (ranges 4085 12 0 0) 4085 12 ∧ code .rtpDecode (ranges 4085 12 0 0) = 6 ∧
    ¬ RtpFits (buf 0 [0x40, 0, 0, 1, 0, 0, 0, 0, 0, 0, 0, 1] 0 12 0 0).pb 0 12 ∧
    RtpFits (received 1 0 5 0 RxRegs.reset).pb 0 12 ∧ code .rtpDecode (received 1 0 5 0 RxRegs.reset) = 0 := by
  decide +kernel

theorem witness_RtpDecodeTotalAndLocal : ∀ s, s = received 1 0 5 0 RxRegs.reset →
    memByte (memWriteByte s.pb 12 7) 0 = memByte s.pb 0 ∧ memByte (memWriteByte s.pb 12 7) 11 = memByte s.pb 11 := by
  intro s h; subst h; decide +kernel

theorem witness_SessCreatePacket :
    (¬ InRange (ranges 4090 7 0 0) 4090 7 ∧ code (.sessCreatePacket false) (ranges 4090 7 0 0) = 6) ∧
    (¬ InRange (ranges 0 4 4095 2) 4095 2 ∧ code (.sessCreatePacket false) (ranges 0 4 4095 2) = 6) ∧
    code (.sessCreatePacket true) (createState 1 0 15) = 2 ∧ code (.sessCreatePacket true) (createState 1 0 16) = 0 := by
  decide +kernel

theorem witness_SessProcessReceived :
    (¬ InRange (ranges 4085 12 0 0) 4085 12 ∧ code .sessProcessReceived (ranges 4085 12 0 0) = 6) ∧
    code .sessProcessReceived (buf 0 [0x40, 0, 0, 1, 0, 0, 0, 0, 0, 0, 0, 1] 0 12 0 0) = 1 ∧
    code .sessProcessReceived (received 1 0 5 0 RxRegs.reset) = 0 := by decide +kernel

/-- The flags a packet of sequence number `seq` and this SSRC leaves; the highest one before it was 0. -/
def flagsOf (seq : BitVec 16) (ssrc : Word) (rx : RxRegs) : Word :=
  hdrFlagsWord (after .sessProcessReceived (received seq 0 ssrc 0 rx)).hdr.flags

/-- The five cases: first, foreign, duplicate, 32767 ahead, 32768 ahead. -/
theorem witness_ReceiveStatistics : InRange (received 1 0 5 0 rxV315) 0 12 ∧ RtpFits (received 1 0 5 0 rxV315).pb 0 12 ∧
    flagsOf 1 5 RxRegs.reset = 0x10 ∧ flagsOf 1 5 rxV315 = 2 ∧ flagsOf 0 0xAABBCCDD rxV315 = 4 ∧
    flagsOf 32767 0xAABBCCDD rxV315 = 0 ∧ flagsOf 32768 0xAABBCCDD rxV315 = 8 := by decide +kernel

theorem witness_RtcpCreateSr :
    (¬ InRange (ranges 0 0 4070 27) 4070 27 ∧ code .rtcpCreateSr (ranges 0 0 4070 27) = 6) ∧
    code .rtcpCreateSr (reportState 27 RxRegs.reset) = 2 ∧ code .rtcpCreateSr (reportState 28 RxRegs.reset) = 0 ∧
    code .rtcpCreateSr (reportState 51 rxP3) = 2 ∧ code .rtcpCreateSr (reportState 52 rxP3) = 0 := by decide +kernel

theorem witness_RtcpCreateRr :
    (¬ InRange (ranges 0 0 4090 7) 4090 7 ∧ code .rtcpCreateRr (ranges 0 0 4090 7) = 6) ∧
    code .rtcpCreateRr (reportState 7 RxRegs.reset) = 2 ∧ code .rtcpCreateRr (reportState 8 RxRegs.reset) = 0 ∧
    code .rtcpCreateRr (reportState 31 rxP3) = 2 ∧ code .rtcpCreateRr (reportState 32 rxP3) = 0 := by decide +kernel

theorem witness_RtcpCreateBye :
    (¬ InRange (ranges 0 0 4090 7) 4090 7 ∧ code .rtcpCreateBye (ranges 0 0 4090 7) = 6) ∧
    code .rtcpCreateBye (reportState 7 RxRegs.reset) = 2 ∧ code .rtcpCreateBye (reportState 8 RxRegs.reset) = 0 := by
  decide +kernel

theorem witness_LossArithmetic : clamp24 (-2 ^ 23 - 1) = -2 ^ 23 ∧ clamp24 (2 ^ 23) = 2 ^ 23 - 1 ∧
    clamp24 (-2 ^ 23) = -2 ^ 23 ∧ clamp24 (2 ^ 23 - 1) = 2 ^ 23 - 1 ∧ lossFraction 1 1 = 255 ∧ lossFraction 0 1 = 0 ∧
    lossFraction 1 0 = 0 ∧ lossFraction 256 1 = 1 ∧ lossFraction 257 1 = 0 := by decide

/-- An RTCP packet at 0. -/
def packet (bs : List Byte) : State := buf 0 bs 0 (u32 bs.length) 0 0

theorem witness_RtcpParse : (¬ InRange (ranges 4093 4 0 0) 4093 4 ∧ code .rtcpParse (ranges 4093 4 0 0) = 6) ∧
    (¬ RtcpFits (packet [0x40, 203, 0, 0]).pb 0 4 ∧ code .rtcpParse (packet [0x40, 203, 0, 0]) = 1) ∧
    (¬ RtcpFits (packet [0x80, 203, 0, 1]).pb 0 4 ∧ code .rtcpParse (packet [0x80, 203, 0, 1]) = 1) ∧
    (RtcpFits (packet [0x81, 203, 0, 0]).pb 0 4 ∧ ¬ RtcpBodyFits (packet [0x81, 203, 0, 0]).pb 0 ∧
      code .rtcpParse (packet [0x81, 203, 0, 0]) = 1) ∧
    (RtcpFits (packet [0x80, 203, 0, 0]).pb 0 4 ∧ RtcpBodyFits (packet [0x80, 203, 0, 0]).pb 0 ∧
      code .rtcpParse (packet [0x80, 203, 0, 0]) = 0) := by decide +kernel

/-- An SR with a block about this session, and one with none. -/
theorem witness_RtcpParseSenderReport : InRange (packet p3Sr) 0 52 ∧ RtcpFits (packet p3Sr).pb 0 52 ∧
    RtcpBodyFits (packet p3Sr).pb 0 ∧ rtcpPt (packet p3Sr).pb 0 = 200 ∧ rtcpCount (packet p3Sr).pb 0 = 1 ∧
    FirstBlock (packet p3Sr).pb 0x11223344 28 0 ∧ memWord (packet p3Sr).pb 28 ≠ (packet p3Sr).sess.ssrc ∧
    RtcpBodyFits (packet v51).pb 0 ∧ rtcpCount (packet v51).pb 0 = 0 := by
  refine ⟨?_, ?_, ?_, ?_, ?_, ⟨?_, fun j hj => absurd hj (Nat.not_lt_zero j)⟩, ?_, ?_, ?_⟩ <;> decide +kernel

/-- The RR of P3's first report, its block's LSR 0; its reader is its source. -/
def rrBytes : List Byte :=
  [0x81, 0xC9, 0x00, 0x07, 0x11, 0x22, 0x33, 0x44, 0x55, 0x66, 0x77, 0x88, 0x40, 0x00, 0x00, 0x01, 0x00, 0x00, 0x03,
   0xEB, 0x00, 0x00, 0x00, 0x01, 0x00, 0x00, 0x00, 0x00, 0x00, 0x00, 0x00, 0x00]

theorem witness_RtcpParseReceiverReport : InRange (packet rrBytes) 0 32 ∧ RtcpFits (packet rrBytes).pb 0 32 ∧
    RtcpBodyFits (packet rrBytes).pb 0 ∧ rtcpPt (packet rrBytes).pb 0 = 201 ∧ rtcpCount (packet rrBytes).pb 0 = 1 ∧
    memWord (packet rrBytes).pb 8 = 0x55667788 ∧ memWord (packet rrBytes).pb (8 + 16) = 0 ∧
    code .rtcpParse (packet rrBytes) = 0 := by decide +kernel

/-- RTCP_SSRC and RTCP_INFO of a parsed packet. -/
def shown (bs : List Byte) : Word × Word :=
  ((after .rtcpParse (packet bs)).rtcp.ssrc, rtcpInfoWord (after .rtcpParse (packet bs)).rtcp.info)

/-- A BYE with and without a source, a known type of four and of eight bytes, an unknown type. -/
theorem witness_RtcpParseOtherTypes : shown [0x81, 203, 0, 1, 1, 2, 3, 4] = (0x01020304, 0) ∧
    shown [0x80, 203, 0, 1, 1, 2, 3, 4] = (0, 0) ∧ shown [0x80, 202, 0, 0] = (0, 0) ∧
    shown [0x80, 206, 0, 1, 1, 2, 3, 4] = (0x01020304, 0) ∧ shown [0x80, 207, 0, 1, 1, 2, 3, 4] = (0x01020304, 0x200) ∧
    shown [0x80, 199, 0, 0] = (0, 0x200) := by decide +kernel

theorem witness_RtcpRoundTrip : (∃ t, exec .rtcpCreateSr (reportState 52 rxP3) = .next t) ∧
    code .rtcpCreateSr (reportState 52 rxP3) = 0 := ⟨⟨_, rfl⟩, by decide +kernel⟩

theorem witness_CtxInit : State.reset.params.nCtx ≤ (2 : BitVec 4).toNat ∧ code (.ctxInit 2) State.reset = 6 ∧
    code (.ctxInit 1) (State.reset.setBank 1 (ready true)) = 6 ∧
    (¬ kdrLegal ((staged 3 64).bank 0).kdr ∧ code (.ctxInit 0) (staged 3 64) = 6) ∧
    (((staged 0 1025).bank 0).winSize.toNat = 1025 ∧ code (.ctxInit 0) (staged 0 1025) = 6) ∧
    code (.ctxInit 0) (staged 0x01000000 1024) = 0 ∧ code (.ctxInit 1) State.reset = 0 := by decide +kernel

theorem witness_CtxUpdateKey : code (.ctxUpdateKey 2) State.reset = 6 ∧ code (.ctxUpdateKey 1) State.reset = 7 ∧
    code (.ctxUpdateKey 1) (State.reset.setBank 1 (ready true)) = 0 := by decide +kernel

theorem witness_CtxTeardown : State.reset.params.nCtx ≤ (2 : BitVec 4).toNat ∧
    (1 : BitVec 4).toNat < State.reset.params.nCtx ∧ code (.ctxTeardown 2) State.reset = 6 ∧
    code (.ctxTeardown 1) State.reset = 0 := by decide +kernel

theorem witness_KdfSessionKeys : code (.kdf 2 false) State.reset = 6 ∧ code (.kdf 1 false) State.reset = 7 ∧
    code (.kdf 0 true) (State.reset.setBank 0 kb3) = 0 := by decide +kernel

/-- No packet seen; S_L below 2^15 and at 2^15. -/
theorem witness_IndexEstimate : estimate 3 0 false 65535 = 3 ∧ estimate 3 32767 true 65535 = 3 ∧
    estimate 3 0 true 32769 = 2 ∧ estimate 3 32768 true 0 = 3 ∧ estimate 3 32769 true 0 = 4 := by decide

/-- A window of 64 with only index 100 marked. -/
def window100 : Window := ⟨true, 100, 1, 64⟩

/-- Index 36 is below the floor, 37 and 101 pass, 100 is marked. -/
theorem witness_ReplayWindow : WindowOk window100 ∧ 1 ≤ window100.size ∧ window100.size ≤ 1024 ∧ 1024 ≤ 4096 ∧
    replayed window100 36 = true ∧ replayed window100 37 = false ∧ replayed window100 100 = true ∧
    replayed window100 101 = false := by
  refine ⟨⟨fun k hk => ?_, fun h => absurd h (by decide), fun _ => by decide +kernel⟩, by decide +kernel⟩
  have h64 : 64 ≤ k := hk
  have hb : window100.bmp = 1#4096 := rfl
  rw [hb, BitVec.getLsbD_one]
  exact Bool.and_eq_false_imp.mpr fun _ => decide_eq_false (by omega)

theorem witness_RocNeverDecreases : CtxOk State.reset.params ((State.reset.setBank 1 v911).bank 1) ∧
    Instr.srtpRxCheck 1 ≠ .ctxInit 1 ∧ Instr.srtpRxCheck 1 ≠ .ctxTeardown 1 ∧
    ∃ t, exec (.srtpRxCheck 1) (State.reset.setBank 1 v911) = .next t := by
  refine ⟨?_, by decide, by decide, ⟨_, rfl⟩⟩
  rw [bank_setBank_self]
  exact witness_sound _ (by decide)

/-- Index 163 is marked: its check and its commit. -/
theorem witness_AcceptedIndexIsRejected : ∀ s, s = rtp 163 42 0 (candidate v911 163) →
    CtxReady s 1 true ∧ (s.bank 1).status.candValid = true ∧ Accepted (srtpWindow (s.bank 1)) 163 ∧
    (s.bank 1).candIndex.toNat = 163 ∧ InRange s s.op.srcAddr s.op.srcLen ∧
    s.op.srcLen.toNat = 32 + (ctxLens s (s.bank 1)).tagLen + 0 ∧ (s.bank 1).cfg.mkiEn = false ∧
    RtpFits s.pb s.op.srcAddr.toNat 32 ∧ memWord s.pb (s.op.srcAddr.toNat + 8) = (s.bank 1).ssrc ∧
    estimateV (s.bank 1) (rtpSeq s.pb s.op.srcAddr.toNat) = 0 ∧ (rtpSeq s.pb s.op.srcAddr.toNat).toNat = 163 ∧
    code (.srtpRxCheck 1) s = 3 ∧ code (.srtpRxCommit 1 true) s = 3 := by
  intro s h; subst h; decide +kernel

/-- A commit with AUTH_OK = 0 is no step that may write the session state of its context. -/
theorem witness_SessionStateChangesOnlyBy : (∃ t, Sys2Proof.core.run 1 sound = .next t) ∧
    ∀ k u, k < 1 → Sys2Proof.core.run k sound = .next u → ¬ SessionStep 1 u := by
  refine ⟨⟨_, rfl⟩, fun k u hk hu => ?_⟩
  obtain rfl : k = 0 := by omega
  cases hu
  rintro ⟨i, hi, hc⟩
  have hd : decode sound.glob.pending = .ok (.srtpRxCommit 1 false) := by decide
  rw [hd] at hi
  cases hi
  exact absurd hc (by decide)

/-- A send context and a packet of it. -/
def sendState (b : Ctx) (seq : BitVec 16) (len cap : Word) : State := rtp seq len cap (State.reset.setBank 0 b)

/-- The branches of SRTP_TX in order: range, framing, SSRC, capacity, negative estimate, ROC run out, finish. -/
theorem witness_SrtpTx : CtxReady (sendState (ready false) 1 32 42) 0 false ∧
    code (.srtpTx 0) (sendState (ready false) 1 32 31) = 6 ∧ code (.srtpTx 0) (sendState (ready false) 1 32 3841) = 6 ∧
    code (.srtpTx 0) (sendState (ready false) 1 11 64) = 1 ∧
    code (.srtpTx 0) (sendState { ready false with ssrc := 1 } 1 32 64) = 6 ∧
    code (.srtpTx 0) (sendState (ready false) 1 32 41) = 2 ∧ code (.srtpTx 0) (sendState (ready false) 1 32 42) = 0 := by
  decide +kernel

theorem witness_SrtpTx_estimate : ∀ b, b = { ready false with status := ⟨true, true, false, false, false, false⟩ } →
    code (.srtpTx 0) (sendState { b with sL := 10 } 65000 32 64) = 6 ∧
    code (.srtpTx 0) (sendState { b with sL := 65535, roc := 0xFFFFFFFF } 0 32 64) = 5 ∧
    code (.srtpTx 0) (sendState { b with sL := 65534, roc := 0xFFFFFFFF } 65535 32 64) = 0 := by
  intro b h; subst h; decide +kernel

/-- The sequence number wraps, and does not. -/
theorem witness_SenderWrap : ∀ b, b = { ready false with
      sL := 65535, roc := 3, status := ⟨true, true, false, false, false, false⟩ } →
    CtxReady (sendState b 0 32 64) 0 false ∧ rtpSeq (sendState b 0 32 64).pb 0x100 = b.sL + 1 ∧
    code (.srtpTx 0) (sendState b 0 32 64) = 0 ∧
    rtpSeq (sendState { b with sL := 7 } 8 32 64).pb 0x100 = 8 ∧
    code (.srtpTx 0) (sendState { b with sL := 7 } 8 32 64) = 0 := by
  intro b h; subst h; decide +kernel

/-- A receive context and a packet to it. -/
def receiveState (b : Ctx) (seq : BitVec 16) (len : Word) : State := rtp seq len 0 (State.reset.setBank 1 b)

/-- The branches of SRTP_RX_CHECK in order: range, length, framing, SSRC, MKI, negative estimate, ROC run out, replay,
finish. -/
theorem witness_SrtpRxCheck : CtxReady (receiveState (ready true) 1 22) 1 true ∧
    code (.srtpRxCheck 1) (receiveState (ready true) 1 3841) = 6 ∧
    code (.srtpRxCheck 1) (receiveState (ready true) 1 21) = 1 ∧
    code (.srtpRxCheck 1) (receiveState { ready true with ssrc := 1 } 1 22) = 1 ∧
    code (.srtpRxCheck 1) (receiveState { ready true with mki := 1, cfg := ⟨.aesCm128Sha80, true, true, false⟩ } 1 46) = 1 ∧
    code (.srtpRxCheck 1) (receiveState { ready true with cfg := ⟨.aesCm128Sha80, true, true, false⟩ } 1 46) = 0 ∧
    code (.srtpRxCheck 1) (receiveState (ready true) 1 22) = 0 := by decide +kernel

theorem witness_SrtpRxCheck_estimate : ∀ b, b = { ready true with status := ⟨true, true, false, false, false, false⟩ } →
    code (.srtpRxCheck 1) (receiveState { b with sL := 10 } 65000 42) = 3 ∧
    code (.srtpRxCheck 1) (receiveState { b with sL := 65535, roc := 0xFFFFFFFF } 0 42) = 5 ∧
    code (.srtpRxCheck 1) (receiveState v911 163 42) = 3 ∧ code (.srtpRxCheck 1) (receiveState v911 101 42) = 0 ∧
    code (.srtpRxCheck 1) { receiveState (ready true) 1 22 with
      pb := memWriteByte (receiveState (ready true) 1 22).pb 0x100 0x40 } = 1 := by
  intro b h; subst h; decide +kernel

theorem witness_SrtpRxCommit : CtxReady (candidate v911 164) 1 true ∧
    code (.srtpRxCommit 1 true) (State.reset.setBank 1 v911) = 7 ∧ code (.srtpRxCommit 1 false) (candidate v911 164) = 4 ∧
    code (.srtpRxCommit 1 true) (candidate v911 163) = 3 ∧ code (.srtpRxCommit 1 true) (candidate v911 99) = 3 ∧
    code (.srtpRxCommit 1 true) (candidate v911 101) = 0 ∧ code (.srtpRxCommit 1 true) (candidate v911 164) = 0 := by
  decide +kernel

/-- A packet sent on bank 0 and received on bank 1 with the bytes it was sent with. -/
theorem witness_SrtpRoundTrip : ∀ s t, s = rtp 1000 32 64 (banks State.reset kb3 { kb3 with
        cfg := ⟨.aesCm128Sha80, true, false, false⟩ }) → t = after (.srtpTx 0) s →
    (0 : BitVec 4) ≠ 1 ∧ t.glob.status.errcode = 0 ∧ s.params.Legal ∧ CtxReady s 1 true ∧
    (s.bank 1).cfg.profile = (s.bank 0).cfg.profile ∧ (s.bank 1).cfg.mkiEn = (s.bank 0).cfg.mkiEn ∧
    (s.bank 1).mki = (s.bank 0).mki ∧ (s.bank 1).ssrc = (s.bank 0).ssrc ∧ (s.bank 1).kdr = (s.bank 0).kdr ∧
    (s.bank 1).mkeyAct = (s.bank 0).mkeyAct ∧ (s.bank 1).msaltAct = (s.bank 0).msaltAct ∧
    (s.bank 1).roc = (s.bank 0).roc ∧ (s.bank 1).sL = (s.bank 0).sL ∧
    (s.bank 1).status.slValid = (s.bank 0).status.slValid ∧
    replayed (srtpWindow (s.bank 1)) t.sr.index.toNat = false ∧
    code (.srtpRxCheck 1) { t with op := { t.op with srcLen := t.op.resLen } } = 0 := by
  intro s t hs ht; subst hs; subst ht; decide +kernel

/-- A send context and a compound packet of it. -/
def sendRtcp (b : Ctx) (len cap : Word) : State := rtcp [] len cap (State.reset.setBank 0 b)

/-- The branches of SRTCP_TX in order: range, framing, SSRC, capacity, index run out, finish. -/
theorem witness_SrtcpTx : CtxReady (sendRtcp (ready false) 28 42) 0 false ∧
    code (.srtcpTx 0) (sendRtcp (ready false) 28 27) = 6 ∧ code (.srtcpTx 0) (sendRtcp (ready false) 28 4097) = 6 ∧
    code (.srtcpTx 0) (sendRtcp (ready false) 7 64) = 1 ∧ code (.srtcpTx 0) (sendRtcp (ready false) 27 64) = 1 ∧
    code (.srtcpTx 0) (sendRtcp { ready false with ssrc := 1 } 28 64) = 6 ∧
    code (.srtcpTx 0) (sendRtcp (ready false) 28 41) = 2 ∧
    code (.srtcpTx 0) (sendRtcp { ready false with rtcpTxIndex := 0x80000000 } 28 64) = 5 ∧
    code (.srtcpTx 0) (sendRtcp { ready false with rtcpTxIndex := 0x7FFFFFFF } 28 64) = 0 := by decide +kernel

/-- A receive context and a compound packet to it, its index word 0 and its trailer 0. -/
def receiveRtcp (b : Ctx) (len : Word) : State := rtcp (List.replicate 18 0) len 0 (State.reset.setBank 1 b)

/-- The branches of SRTCP_RX_CHECK in order: range, length, framing, SSRC, MKI, replay, finish. -/
theorem witness_SrtcpRxCheck : CtxReady (receiveRtcp (ready true) 42) 1 true ∧
    code (.srtcpRxCheck 1) (receiveRtcp (ready true) 4097) = 6 ∧ code (.srtcpRxCheck 1) (receiveRtcp (ready true) 21) = 1 ∧
    code (.srtcpRxCheck 1) (receiveRtcp (ready true) 41) = 1 ∧
    code (.srtcpRxCheck 1) (receiveRtcp { ready true with ssrc := 1 } 42) = 1 ∧
    code (.srtcpRxCheck 1) (receiveRtcp { ready true with mki := 1, cfg := ⟨.aesCm128Sha80, true, true, false⟩ } 46) = 1 ∧
    code (.srtcpRxCheck 1) (receiveRtcp { ready true with
      rtcpBmp := 1, status := ⟨true, false, false, false, true, false⟩ } 42) = 3 ∧
    code (.srtcpRxCheck 1) (receiveRtcp (ready true) 42) = 0 := by decide +kernel

/-- Bank 1 a receive context with this SRTCP candidate, index 5 marked. -/
def rtcpCandidate (candValid : Bool) (cand : Word) : State :=
  State.reset.setBank 1 { ready true with
    rtcpCand := cand, rtcpTop := 5, rtcpBmp := 1, status := ⟨true, false, false, false, true, candValid⟩ }

theorem witness_SrtcpRxCommit : CtxReady (rtcpCandidate true 6) 1 true ∧
    code (.srtcpRxCommit 1 true) (rtcpCandidate false 6) = 7 ∧ code (.srtcpRxCommit 1 false) (rtcpCandidate true 6) = 4 ∧
    code (.srtcpRxCommit 1 true) (rtcpCandidate true 0x80000005) = 3 ∧
    code (.srtcpRxCommit 1 true) (rtcpCandidate true 6) = 0 ∧ code (.srtcpRxCommit 1 true) (rtcpCandidate true 4) = 0 := by
  decide +kernel

end Sys2Proof.Tests
end

section
/-! PROOFS. Whose step is next, what a step keeps of STATUS, the interrupt line and the parameters, that reset meets
the invariants, and SESS_INIT (00_scope.md R8, R15, R18; 60_exceptions.md R302, R311; 42_rtp_session.md R171). -/

namespace Sys2Proof.Machine

open Sys2Proof

/-- A pending command runs unless the next host access is marked to come first. -/
theorem turn_engine {s : State} (hb : s.glob.status.busy = true)
    (hw : s.host = [] ∨ ∃ a rest, s.host = a :: rest ∧ a.whileBusy = false) : turn s = .engine := by
  obtain hn | ⟨a, rest, hc, ha⟩ := hw
  · simp [turn, hn, hb]
  · simp [turn, hc, hb, ha]

theorem turn_idle {s : State} (hb : s.glob.status.busy = false) (hn : s.host = []) : turn s = .idle := by
  simp [turn, hn, hb]

/-- The next host access is due when no command is pending, or when it is marked to come first. -/
theorem turn_host {s : State} {a : HostAccess} {rest : List HostAccess} (hc : s.host = a :: rest)
    (hd : s.glob.status.busy = false ∨ a.whileBusy = true) : turn s = .host a.op rest := by
  rcases hd with h | h <;> simp [turn, hc, h]

/-- The codes a completion can write are those of 60_exceptions.md R300. -/
theorem outcomeCode_le (r : Option CmdError) : (outcomeCode r).toNat ≤ 8 := by
  cases r with
  | none => decide
  | some e => cases e <;> decide

/-- Complete writes ERR from the ERRCODE it writes, whatever they were before (60_exceptions.md R302). -/
theorem statusInv_of_complete {t : State} {g : GlobalRegs} {r : Option CmdError} (h : t.glob = completeGlob g r) :
    StatusInv t := by
  rw [StatusInv, h]
  exact ⟨rfl, outcomeCode_le r⟩

/-- The line is at its formula once it has been computed again (60_exceptions.md R311). -/
theorem irqInv_of_refresh {t : State} {g : GlobalRegs} (h : t.glob = refreshIrq g) : IrqInv t := by
  rw [IrqInv, h]; rfl

/-- Every command completes: the global registers are those of Complete, and no parameter changes. -/
theorem exec_completes {i : Instr} {s t : State} (h : exec i s = .next t) :
    t.params = s.params ∧ ∃ r, t.glob = completeGlob s.glob r := by
  obtain ⟨e, -, rfl⟩ | ⟨u, hu, rfl⟩ := exec_next_cases h
  · exact ⟨rfl, some e, rfl⟩
  · have hf := ruleOf_frame hu
    exact ⟨hf.params, none, congrArg (completeGlob · none) hf.glob⟩

theorem hostAccess_params (s : State) (op : HostOp) : (hostAccess s op).params = s.params := by
  obtain ⟨t, he, hc⟩ := hostAccess_cases s op
  rw [he]
  obtain ⟨v, rfl⟩ | rfl | ⟨v, rfl⟩ | ⟨off, r, v, -, -, rfl⟩ | ⟨a, w, v, -, rfl⟩ := hc
  case inr.inr.inr.inl => exact (writeReg_frame s r v).1
  all_goals rfl

theorem hostAccess_irqInv (s : State) (op : HostOp) : IrqInv (hostAccess s op) := irqInv_of_refresh rfl

/-- No host access writes ERR or ERRCODE but a soft reset, which clears both. -/
theorem hostAccess_statusInv {s : State} (op : HostOp) (h : StatusInv s) : StatusInv (hostAccess s op) := by
  obtain ⟨t, he, hc⟩ := hostAccess_cases s op
  rw [he]
  obtain ⟨v, rfl⟩ | rfl | ⟨v, rfl⟩ | ⟨off, r, v, -, -, rfl⟩ | ⟨a, w, v, -, rfl⟩ := hc
  case inr.inr.inr.inl =>
    obtain ⟨herr, hcode⟩ | hreset := writeReg_status s r v
    · simpa only [StatusInv, refreshIrq, herr, hcode] using h
    · simp only [StatusInv, refreshIrq, hreset]; decide
  all_goals exact h

/-- A reset context is sound: it is not valid and has no session state. -/
theorem ctxOk_reset (p : Params) : CtxOk p Ctx.reset :=
  ⟨fun _ => ⟨rfl, rfl⟩, fun hv => absurd hv (by decide)⟩

/-- Settles O10: a completion and a host access each keep the two invariants, and an idle step changes nothing. -/
theorem stepKeepsStatusIrqParams : Obligations.StepKeepsStatusIrqParams := by
  intro s t h
  obtain ⟨-, rfl⟩ | ⟨op, rest, -, rfl⟩ | ⟨-, i, -, hx⟩ | ⟨-, rfl⟩ := step_cases h
  · exact ⟨id, id, rfl⟩
  · exact ⟨hostAccess_statusInv (s := { s with host := rest }) op, fun _ => hostAccess_irqInv _ op,
      hostAccess_params _ op⟩
  · obtain ⟨hp, r, hg⟩ := exec_completes hx
    exact ⟨fun _ => statusInv_of_complete hg, fun _ => irqInv_of_refresh hg, hp⟩
  · exact ⟨fun _ => statusInv_of_complete rfl, fun _ => irqInv_of_refresh rfl, rfl⟩

/-- Settles O4: the engine's turn comes, and its step decodes the pending word. -/
theorem stepRunsDecodedCommand : Obligations.StepRunsDecodedCommand := by
  intro s i hb hw hd
  simp only [step, turn_engine hb hw, engineStep, hd]

/-- Settles O5, by whose turn it is. -/
theorem idleAndHostSteps : Obligations.IdleAndHostSteps := by
  constructor
  · intro s hb hn
    simp only [step, turn_idle hb hn]
  · intro s a rest hc hd
    simp only [step, turn_host hc hd]

/-- Settles O13: the buffer has no cell, every bank is the reset context, and the parameters are the reference
values. -/
theorem resetMeetsInvariants : Obligations.ResetMeetsInvariants := by
  refine ⟨by decide, by decide, ⟨List.Pairwise.nil, fun x hx => absurd hx List.not_mem_nil⟩, fun c => ?_,
    by decide⟩
  rw [bank_reset]
  exact ctxOk_reset _

/-- Settles O31, by the two flags. -/
theorem sessInit : Obligations.SessInit := by
  intro s f0 f1
  rw [exec_of_ok (i := .sessInit f0 f1) rfl]
  cases f0 <;> cases f1 <;> rfl

end Sys2Proof.Machine
end

section
/-! PROOFS. A built RTP packet as it stands in the buffer, part by part, and the two commands that build one
(41_rtp_codec.md R151, R152; 42_rtp_session.md R173). -/

namespace Sys2Proof.Machine

open Sys2Proof

section Header

variable {p x mk : Bool} {pt : BitVec 7} {seq : BitVec 16} {ts ssrc : Word} {csrc : List Word} {prof : BitVec 16}
  {words : Nat} {raw : List Byte} {bs zs : List Byte} (m : Memory) (a : Nat)
  (h : bs = rtpHeaderBytes p x mk pt seq ts ssrc csrc prof words raw ++ zs)

include h

theorem memByte_header_zero : memByte (memWriteBytes m a bs) a = rtpByte0 p x csrc.length :=
  memByte_part m a 0 bs _ (by rw [h]; rfl)

theorem memByte_header_one : memByte (memWriteBytes m a bs) (a + 1) = rtpByte1 mk pt :=
  memByte_part m a 1 bs _ (by rw [h]; rfl)

theorem memRead_header_seq : memRead (memWriteBytes m a bs) (a + 2) 2 = seq.toNat :=
  memRead_part m a _ 2 _ bs [rtpByte0 p x csrc.length, rtpByte1 mk pt] _
    (by rw [h, rtpHeaderBytes]; simp only [List.append_assoc]; rfl) rfl seq.isLt

theorem memWord_header_ts : memWord (memWriteBytes m a bs) (a + 4) = ts :=
  memWord_part m a _ ts bs ([rtpByte0 p x csrc.length, rtpByte1 mk pt] ++ beBytes 2 seq.toNat) _
    (by rw [h, rtpHeaderBytes]; simp only [List.append_assoc]; rfl) (by simp)

theorem memWord_header_ssrc : memWord (memWriteBytes m a bs) (a + 8) = ssrc :=
  memWord_part m a _ ssrc bs ([rtpByte0 p x csrc.length, rtpByte1 mk pt] ++ beBytes 2 seq.toNat ++ wordBytes ts) _
    (by rw [h, rtpHeaderBytes]; simp only [List.append_assoc]; rfl) (by simp)

/-- The CSRC list starts at byte 12 (30_encoding.md R111). -/
theorem header_split_csrc : ∃ fixed ext, fixed.length = 12 ∧ bs = fixed ++ (csrc.flatMap wordBytes ++ ext) :=
  ⟨[rtpByte0 p x csrc.length, rtpByte1 mk pt] ++ beBytes 2 seq.toNat ++ wordBytes ts ++ wordBytes ssrc, _, by simp,
    by rw [h, rtpHeaderBytes]; simp only [List.append_assoc]; rfl⟩

theorem memWord_header_csrc {i : Nat} (hi : i < csrc.length) :
    memWord (memWriteBytes m a bs) (a + 12 + 4 * i) = csrc[i] := by
  obtain ⟨fixed, ext, hf, hb⟩ := header_split_csrc h
  have hc : csrc = csrc.take i ++ csrc[i] :: csrc.drop (i + 1) := by simp
  refine memWord_part m a _ _ bs (fixed ++ (csrc.take i).flatMap wordBytes)
    ((csrc.drop (i + 1)).flatMap wordBytes ++ ext) ?_ ?_
  · rw [hb]
    conv_lhs => rw [hc, List.flatMap_append, List.flatMap_cons]
    simp only [List.append_assoc]
  · rw [List.length_append, hf, flatMap_wordBytes_length, List.length_take]
    omega

/-- A header extension follows the CSRC list (30_encoding.md R112). -/
theorem header_split_ext (hx : x = true) :
    ∃ front, front.length = 12 + 4 * csrc.length ∧ bs = front ++ (extensionBytes prof words raw ++ zs) :=
  ⟨[rtpByte0 p x csrc.length, rtpByte1 mk pt] ++ beBytes 2 seq.toNat ++ wordBytes ts ++ wordBytes ssrc ++
      csrc.flatMap wordBytes, by simp; omega,
    by rw [h, rtpHeaderBytes, if_pos hx]; simp only [List.append_assoc]⟩

/-- The bytes after the header (30_encoding.md R113). -/
theorem memBytes_header_rest (hr : raw.length ≤ 4 * words) :
    memBytes (memWriteBytes m a bs) (a + hdrLenOf x csrc.length words) zs.length = zs :=
  memBytes_part m a _ _ bs _ zs [] (by rw [List.append_nil]; exact h)
    (by rw [rtpHeaderBytes_length _ _ _ _ _ _ _ _ _ _ _ hr]) rfl

end Header

/-- A header extension written inside a string reads back: its profile, its length in words, its raw bytes, and zero
bytes up to a whole word (30_encoding.md R112, 41_rtp_codec.md R151). -/
theorem extension_part (m : Memory) (a : Nat) {prof : BitVec 16} {words : Nat} {raw bs xs zs : List Byte}
    (h : bs = xs ++ (extensionBytes prof words raw ++ zs)) (hw : words < 2 ^ 16) :
    memRead (memWriteBytes m a bs) (a + xs.length) 2 = prof.toNat ∧
      memRead (memWriteBytes m a bs) (a + xs.length + 2) 2 = words ∧
      memBytes (memWriteBytes m a bs) (a + xs.length + 4) raw.length = raw ∧
      ∀ k, raw.length ≤ k → k < 4 * words → memByte (memWriteBytes m a bs) (a + xs.length + 4 + k) = 0 := by
  simp only [extensionBytes, List.append_assoc] at h
  refine ⟨memRead_part m a _ 2 _ bs xs _ h rfl prof.isLt, ?_, ?_, fun k hk hlt => ?_⟩
  · exact memRead_part m a _ 2 _ bs (xs ++ beBytes 2 prof.toNat) _ (by rw [h]; simp only [List.append_assoc]; rfl)
      (by simp; omega) hw
  · exact memBytes_part m a _ _ bs (xs ++ beBytes 2 prof.toNat ++ beBytes 2 words) raw _
      (by rw [h]; simp only [List.append_assoc]; rfl) (by simp; omega) rfl
  · have hb := memByte_part m a (xs.length + (4 + k)) bs 0 (by
      rw [h, List.getElem?_append_right (by omega), List.getElem?_append_right (by simp; omega),
        List.getElem?_append_right (by simp; omega), List.getElem?_append_right (by simp; omega),
        List.getElem?_append_left (by simp; omega), List.getElem?_replicate_of_lt (by simp; omega)])
    rw [← hb]; congr 1; omega

/-- Byte 0 of the header RTP_ENCODE builds is V = 2 above P, X and CC of HDR_B01 (10_state.md R28, 30_encoding.md
R110). -/
theorem rtpByte0_b01 (v : BitVec 16) :
    rtpByte0 (b01P v) (b01X v) (b01Cc v) = 0x80 ||| (v.extractLsb' 8 6).setWidth 8 := by
  have key : ∀ u : BitVec 6,
      rtpByte0 (u.getLsbD 5) (u.getLsbD 4) (u.extractLsb' 0 4).toNat = 0x80 ||| u.setWidth 8 := by decide
  rw [← key]
  simp [b01P, b01X, b01Cc]

/-- Byte 1 is M and PT of HDR_B01 (10_state.md R28, 30_encoding.md R110). -/
theorem rtpByte1_b01 (v : BitVec 16) : rtpByte1 (b01M v) (b01Pt v) = v.extractLsb' 0 8 := by
  have key : ∀ u : BitVec 8, rtpByte1 (u.getLsbD 7) (u.extractLsb' 0 7) = u := by decide
  rw [← key (v.extractLsb' 0 8)]
  simp [b01M, b01Pt, BitVec.extractLsb'_extractLsb'_of_le]

theorem rtpByte1_eq (mk : Bool) (pt : BitVec 7) : rtpByte1 mk pt = (if mk then 0x80#8 else 0#8) ||| pt.setWidth 8 := by
  revert mk pt; decide

/-- HDR_B01 as SESS_CREATE_PACKET leaves it: V = 2, M and PT, every other field 0 (42_rtp_session.md R173). -/
theorem createdB01_eq (mk : Bool) (pt : BitVec 7) : BitVec.ofNat 16 (0x8000 + mk.toNat * 128 + pt.toNat) =
    0x8000#16 ||| (if mk then 0x0080#16 else 0#16) ||| pt.setWidth 16 := by
  revert mk pt; decide

/-- The extension of AUX_LEN bytes that RTP_ENCODE builds has a length its 16-bit field can hold, since the bytes lie
in the buffer (00_scope.md R8, 20_memory.md R86). -/
theorem encodeWords_lt {s : State} (hp : s.params.pbufSize ≤ 65536) (h : InRange s s.op.auxAddr s.op.auxLen) :
    encodeWords s < 2 ^ 16 := by
  simp only [InRange] at h
  unfold encodeWords
  split <;> omega

/-- Settles O27: the three ranges and the capacity in order, then each part of the packet where the header's layout
puts it. -/
theorem rtpEncode : Obligations.RtpEncode := by
  intro s d cc words total x hp hd hx hcc hw ht
  obtain ⟨-, -, ⟨-, hsize, -⟩, -⟩ := hp
  subst hd
  obtain rfl : x = b01X s.hdr.b01 := hx
  obtain rfl : cc = b01Cc s.hdr.b01 := hcc
  obtain rfl : words = encodeWords s := hw
  rw [← encodeHdrLen_eq] at *
  subst ht
  split
  · next h1 => exact exec_of_error (if_pos h1)
  next h1 =>
  split
  · next h2 => exact exec_of_error ((if_neg h1).trans (if_pos h2))
  next h2 =>
  split
  · next h3 => exact exec_of_error ((if_neg h1).trans ((if_neg h2).trans (if_pos h3)))
  next h3 =>
  split
  · next h4 =>
    exact exec_of_error ((if_neg h1).trans ((if_neg h2).trans ((if_neg h3).trans (if_pos h4))))
  next h4 =>
  obtain ⟨t, hex, ht⟩ := exec_finishes (i := .rtpEncode) (s := s)
    ((if_neg h1).trans ((if_neg h2).trans ((if_neg h3).trans (if_neg h4))))
  have hlen := encodeCsrc_length s
  have hb := encodePacket.eq_def s
  have hpb : t.pb = memWriteBytes s.pb s.op.dstAddr.toNat (encodePacket s) := by rw [ht]
  refine ⟨t, hex, by rw [ht], ?_⟩
  rw [hpb]
  refine ⟨?_, ?_, memRead_header_seq _ _ hb, memWord_header_ts _ _ hb, memWord_header_ssrc _ _ hb,
    fun i hi => ?_, fun hX => ?_, ?_, fun b hout => ?_⟩
  · rw [memByte_header_zero _ _ hb, hlen, rtpByte0_b01]
  · rw [memByte_header_one _ _ hb, rtpByte1_b01]
  · rw [memWord_header_csrc _ _ hb (i := i.val) (by omega)]
    simp
  · obtain ⟨front, hfront, hsplit⟩ := header_split_ext hb hX
    have hraw : encodeRaw s = memBytes s.pb s.op.auxAddr.toNat s.op.auxLen.toNat := if_pos hX
    have haux : InRange s s.op.auxAddr s.op.auxLen := by_contra fun hc => h2 ⟨hX, hc⟩
    have hext := extension_part s.pb s.op.dstAddr.toNat hsplit (encodeWords_lt hsize haux)
    simpa only [hfront, hlen, hraw, memBytes_length, ← Nat.add_assoc] using hext
  · have hpay := memBytes_header_rest s.pb s.op.dstAddr.toNat hb (encodeRaw_fits s)
    rwa [memBytes_length, hlen] at hpay
  · rw [hpb, memByte_writeBytes_out _ _ _ _ (by rwa [encodePacket_length])]

/-- Settles O32: the checks in order, then the parts of a header without CSRC or extension, and the payload. -/
theorem sessCreatePacket : Obligations.SessCreatePacket := by
  intro s mk d total hd ht
  subst hd ht
  split
  · next h1 => exact exec_of_error (if_pos h1)
  next h1 =>
  split
  · next h2 => exact exec_of_error ((if_neg h1).trans (if_pos h2))
  next h2 =>
  split
  · next h3 =>
    exact exec_of_error ((if_neg h1).trans ((if_neg h2).trans (if_pos h3)))
  next h3 =>
  obtain ⟨t, hex, ht⟩ := exec_finishes (i := .sessCreatePacket mk) (s := s)
    ((if_neg h1).trans ((if_neg h2).trans (if_neg h3)))
  have hb := createdPacket.eq_def s mk
  have hpb : t.pb = memWriteBytes s.pb s.op.dstAddr.toNat (createdPacket s mk) := by rw [ht]
  refine ⟨t, hex, by rw [ht, ← createdB01_eq], ?_⟩
  rw [hpb]
  refine ⟨?_, ?_, memRead_header_seq _ _ hb, memWord_header_ts _ _ hb, memWord_header_ssrc _ _ hb, ?_,
    fun b hout => ?_⟩
  · exact memByte_header_zero _ _ hb
  · rw [memByte_header_one _ _ hb, rtpByte1_eq]
  · have hpay := memBytes_header_rest s.pb s.op.dstAddr.toNat hb (Nat.zero_le _)
    rwa [memBytes_length] at hpay
  · rw [hpb, memByte_writeBytes_out _ _ _ _ (by rwa [createdPacket_length])]

end Sys2Proof.Machine
end

section
/-! PROOFS. What DeriveSet shows, and KDF (44_srtp_context_kdf.md R230 to R233). -/

namespace Sys2Proof.Machine

open Sys2Proof

/-- Every profile's key is one AES takes, and its session keys fit their registers (44_srtp_context_kdf.md R220). -/
theorem profileLens_fit (p : Params) (f : Profile) :
    ((profileLens p f).klen = 16 ∨ (profileLens p f).klen = 32) ∧ (profileLens p f).elen ≤ 32 ∧
      (profileLens p f).alen ≤ 20 ∧ (profileLens p f).sslen ≤ 16 := by
  cases f <;> simp [profileLens]

/-- A key register shows the PRF's bytes, and 0 after them (44_srtp_context_kdf.md R230, 10_state.md R34). -/
theorem keyByte_packBytes_prf (b : Ctx) {klen : Nat} (label : Nat) (r : BitVec 48) {size n k : Nat}
    (hkey : klen = 16 ∨ klen = 32) (hn : n ≤ size) (hk : k < size) :
    keyByte (packBytes size (prf b klen label r n)) k = if k < n then prfByte b klen label r k else 0 := by
  have hlen := prf_length b klen label r n hkey
  rw [keyByte_packBytes _ _ _ (by omega) hk]
  split
  · next h => exact prf_getD b klen label r n k h hkey
  · next h => rw [List.getD_eq_getElem?_getD, List.getElem?_eq_none (by omega)]; rfl

/-- DeriveSet shows the session keys at r = index DIV KDR (44_srtp_context_kdf.md R231, R233). -/
theorem showsKeys_deriveSet (p : Params) (b : Ctx) (c : BitVec 4) (rtcp : Bool) (index : Nat) :
    ShowsKeys p b c rtcp (kdfR b.kdr index) (deriveSet p b c rtcp index) := by
  obtain ⟨hkey, henc, hauth, hsalt⟩ := profileLens_fit p b.cfg.profile
  refine ⟨fun k hk => keyByte_packBytes_prf b _ _ hkey henc hk, fun k hk => ?_, fun k hk => ?_, rfl, rfl⟩
  · rw [show (if rtcp then 4 else 1) = (if rtcp then 3 else 0) + 1 by cases rtcp <;> rfl]
    exact keyByte_packBytes_prf b _ _ hkey hauth hk
  · rw [show (if rtcp then 5 else 2) = (if rtcp then 3 else 0) + 2 by cases rtcp <;> rfl]
    exact keyByte_packBytes_prf b _ _ hkey hsalt hk

/-- The index KDF derives for: the low 31 bits of KDF_IDX for SRTCP, else all of it (44_srtp_context_kdf.md R232). -/
theorem kdfIndex_eq (s : State) (rtcp : Bool) :
    kdfIndex s rtcp = if rtcp then s.kdfIdx.toNat % 2 ^ 31 else s.kdfIdx.toNat := by
  simp [kdfIndex, BitVec.extractLsb'_toNat]

/-- Settles O47: the two checks of a context without a direction, then DeriveSet. -/
theorem kdfSessionKeys : Obligations.KdfSessionKeys := by
  intro s c rtcp index hi
  obtain rfl : index = kdfIndex s rtcp := by rw [hi, kdfIndex_eq]
  split
  · next h1 => exact exec_of_error (by simp only [ruleOf, ruleKdf, ctxError_bank h1])
  next h1 =>
  split
  · next h2 => exact exec_of_error (by simp only [ruleOf, ruleKdf, ctxError_invalid (Nat.not_le.mp h1) h2])
  next h2 =>
  obtain ⟨t, hex, rfl⟩ := exec_finishes (i := .kdf c rtcp) (s := s)
    (by simp only [ruleOf, ruleKdf, ctxError_none (Nat.not_le.mp h1) (by simpa using h2)]; rfl)
  exact ⟨_, hex, rfl, showsKeys_deriveSet _ _ _ _ _⟩

end Sys2Proof.Machine
end

section
/-! PROOFS. What every step keeps: the packet buffer canonical and inside PBUF_SIZE, and every context sound
(10_state.md R38, R43; 20_memory.md R86; 45_srtp_index_replay.md R251 to R254). -/

namespace Sys2Proof.Machine

open Sys2Proof

/-- The buffer invariant speaks of the parameters and the buffer only. -/
theorem bufferInv_of_eq {s t : State} (h : BufferInv s) (hp : t.params = s.params) (hb : t.pb = s.pb) :
    BufferInv t := by
  rwa [BufferInv, hp, hb]

/-- Strings written inside the buffer keep it canonical and inside PBUF_SIZE. -/
theorem bufferInv_writeAll {s t : State} {ws : List (Nat × List Byte)} (h : BufferInv s) (hp : t.params = s.params)
    (hb : t.pb = writeAll s.pb ws) (hw : ∀ w ∈ ws, w.1 + w.2.length ≤ s.params.pbufSize) : BufferInv t := by
  rw [BufferInv, hp, hb]
  exact ⟨writeAll_wf _ _ h.1, writeAll_bound _ _ _ h.2 hw⟩

theorem exec_keepsBuffer {i : Instr} {s t : State} (h : BufferInv s) (hx : exec i s = .next t) : BufferInv t := by
  obtain ⟨e, -, rfl⟩ | ⟨u, hu, rfl⟩ := exec_next_cases hx
  · exact bufferInv_of_eq h rfl rfl
  · obtain ⟨ws, hpb, hw⟩ := ruleOf_pb hu
    exact bufferInv_writeAll h (ruleOf_frame hu).params hpb hw

theorem leBytes_length (n : Nat) (v : Word) : (leBytes n v).length = n := by simp [leBytes]

theorem hostAccess_keepsBuffer {s : State} (op : HostOp) (h : BufferInv s) : BufferInv (hostAccess s op) := by
  obtain ⟨t, he, hc⟩ := hostAccess_cases s op
  rw [he]
  obtain ⟨v, rfl⟩ | rfl | ⟨v, rfl⟩ | ⟨off, r, v, -, -, rfl⟩ | ⟨a, w, v, ha, rfl⟩ := hc
  case inr.inr.inr.inl =>
    obtain ⟨hp, hb, -⟩ := writeReg_frame s r v
    exact bufferInv_of_eq h hp hb
  case inr.inr.inr.inr =>
    exact bufferInv_writeAll (ws := [(a, leBytes (widthBytes w) v)]) h rfl rfl (by simpa [leBytes_length] using ha)
  all_goals exact bufferInv_of_eq h rfl rfl

/-- Settles O11: commands and host accesses write only strings that lie inside the buffer. -/
theorem stepKeepsBuffer : Obligations.StepKeepsBuffer := by
  intro s t h hs
  obtain ⟨-, rfl⟩ | ⟨op, rest, -, rfl⟩ | ⟨-, i, -, hx⟩ | ⟨-, rfl⟩ := step_cases hs
  · exact h
  · exact hostAccess_keepsBuffer (s := { s with host := rest }) op h
  · exact exec_keepsBuffer h hx
  · exact bufferInv_of_eq h rfl rfl

@[simp] theorem replayMark_size (wMax : Nat) (w : Window) (i : Nat) : (replayMark wMax w i).size = w.size := by
  unfold replayMark; split
  · rfl
  · split <;> rfl

/-- A valid window is sound when no bit at or above its size is set and bit 0 is. -/
theorem windowOk_valid_iff {w : Window} (hv : w.valid = true) :
    WindowOk w ↔ (∀ k, w.size ≤ k → w.bmp.getLsbD k = false) ∧ w.bmp.getLsbD 0 = true :=
  ⟨fun h => ⟨h.1, h.2.2 hv⟩, fun h => ⟨h.1, fun hn => absurd (hv.symm.trans hn) (by decide), fun _ => h.2⟩⟩

/-- Marking an index the check lets through keeps a window sound: a fresh window has bit 0 only, a slide keeps the bits
below the size, and an index inside the window is marked below the size (45_srtp_index_replay.md R252, R253). -/
theorem windowOk_replayMark {wMax : Nat} {w : Window} {i : Nat} (h : WindowOk w) (hs : 1 ≤ w.size)
    (hr : replayed w i = false) : WindowOk (replayMark wMax w i) := by
  rw [windowOk_valid_iff (replayMark_valid _ _ _), replayMark_size]
  unfold replayMark
  split
  · exact ⟨fun k hk => (one_getLsbD k).trans (decide_eq_false (by omega)), one_getLsbD 0⟩
  next hn =>
  have hv : w.valid = true := by simpa using hn
  obtain ⟨hbits, htop⟩ := (windowOk_valid_iff hv).mp h
  split
  · refine ⟨fun k hk => ?_, ?_⟩
    · simp [slideBitmap_getLsbD, Nat.not_lt.mpr hk, show k ≠ 0 by omega]
    · simp [slideBitmap_getLsbD]
  · obtain ⟨hlt, -⟩ := replayed_eq_false.mp hr hv (by omega)
    refine ⟨fun k hk => ?_, ?_⟩
    · simp [setBit_getLsbD, hbits k hk, show k ≠ w.top - i by omega]
    · simp [setBit_getLsbD, htop]

/-- Of a valid window, soundness looks only at the bits and the size. -/
theorem windowOk_of_valid {w w' : Window} (h : WindowOk w) (hw : w.valid = true) (hv : w'.valid = true)
    (hb : w'.bmp = w.bmp) (hs : w'.size = w.size) : WindowOk w' := by
  rw [windowOk_valid_iff hv, hb, hs]
  exact (windowOk_valid_iff hw).mp h

/-- Writing a sound, valid window of the context's size into the SRTP registers leaves the context's window sound. -/
theorem windowOk_setSrtpWindow {b : Ctx} {w : Window} (h : WindowOk w) (hv : w.valid = true)
    (hs : w.size = b.winSize.toNat) : WindowOk (srtpWindow (setSrtpWindow b w)) :=
  windowOk_of_valid h hv hv rfl hs.symm

/-- The same for the SRTCP window. -/
theorem windowOk_setSrtcpWindow {b : Ctx} {w : Window} (h : WindowOk w) (hv : w.valid = true)
    (hs : w.size = b.winSize.toNat) : WindowOk (srtcpWindow (setSrtcpWindow b w)) :=
  windowOk_of_valid h hv hv rfl hs.symm

/-- What soundness says of a context that is valid. -/
theorem ctxOk_valid_iff {p : Params} {b : Ctx} (hv : b.status.valid = true) :
    CtxOk p b ↔ (1 ≤ b.winSize.toNat ∧ b.winSize.toNat ≤ p.wMax) ∧ WindowOk (srtpWindow b) ∧
      WindowOk (srtcpWindow b) ∧ (b.status.slValid = false → b.status.candValid = true → b.candRoc = b.roc) :=
  ⟨fun h => h.2 hv, fun h => ⟨fun hn => absurd (hv.symm.trans hn) (by decide), fun _ => h⟩⟩

/-- A context that is not valid and has no session state is sound. -/
theorem ctxOk_cleared {p : Params} {b : Ctx} (hst : b.status = CtxStatus.zero)
    (hs : sessionState b = sessionState Ctx.reset) : CtxOk p b :=
  ⟨fun _ => ⟨hs, hst⟩, fun hv => by rw [hst] at hv; cases hv⟩

/-- An empty window is sound. -/
theorem windowOk_empty (n : Nat) : WindowOk ⟨false, 0, 0, n⟩ :=
  ⟨fun _ _ => BitVec.getLsbD_zero, fun _ => ⟨rfl, rfl⟩, fun h => nomatch h⟩

theorem winLegal_iff (p : Params) (w : BitVec 16) : winLegal p w = true ↔ 1 ≤ w.toNat ∧ w.toNat ≤ p.wMax := by
  simp [winLegal]

/-- R254's update touches neither the windows nor the candidate, and some sequence number has been seen after it. -/
theorem updateRocSl_frame (b : Ctx) (v : Nat) (seq : BitVec 16) :
    (updateRocSl b v seq).status = { b.status with slValid := true } ∧
    (updateRocSl b v seq).winSize = b.winSize ∧ srtpWindow (updateRocSl b v seq) = srtpWindow b ∧
    srtcpWindow (updateRocSl b v seq) = srtcpWindow b := by
  rw [updateRocSl_eq]; exact ⟨rfl, rfl, rfl, rfl⟩

theorem ctxOk_srtpTxBank {p : Params} {b : Ctx} (h : CtxOk p b) (hv : b.status.valid = true) (v : Nat)
    (seq : BitVec 16) : CtxOk p (srtpTxBank b v seq) := by
  obtain ⟨hsize, hwin, hrtcp, -⟩ := (ctxOk_valid_iff hv).mp h
  obtain ⟨hst, hw, hs, hr⟩ := updateRocSl_frame b v seq
  rw [srtpTxBank, ctxOk_valid_iff (by rw [hst]; exact hv), hw, hs, hr, hst]
  exact ⟨hsize, hwin, hrtcp, fun hsl => nomatch hsl⟩

theorem ctxOk_srtpCommitBank {p : Params} {b : Ctx} (h : CtxOk p b) (hv : b.status.valid = true)
    (hr : replayed (srtpWindow b) b.candIndex.toNat = false) : CtxOk p (srtpCommitBank p b) := by
  obtain ⟨hsize, hwin, hrtcp, -⟩ := (ctxOk_valid_iff hv).mp h
  obtain ⟨hst, hw, -, hrw⟩ := updateRocSl_frame b b.candRoc.toNat b.candSeq
  refine (ctxOk_valid_iff ?_).mpr ⟨?_, ?_, ?_, fun _ hc => nomatch hc⟩
  · show (updateRocSl b b.candRoc.toNat b.candSeq).status.valid = true
    rw [hst]; exact hv
  · show 1 ≤ (updateRocSl b b.candRoc.toNat b.candSeq).winSize.toNat ∧
      (updateRocSl b b.candRoc.toNat b.candSeq).winSize.toNat ≤ p.wMax
    rwa [hw]
  · exact windowOk_setSrtpWindow (windowOk_replayMark hwin hsize.1 hr) (replayMark_valid _ _ _)
      ((replayMark_size _ _ _).trans (congrArg BitVec.toNat hw.symm))
  · show WindowOk (srtcpWindow (updateRocSl b b.candRoc.toNat b.candSeq))
    rwa [hrw]

theorem ctxOk_srtcpCommitBank {p : Params} {b : Ctx} (h : CtxOk p b) (hv : b.status.valid = true)
    (hr : replayed (srtcpWindow b) (b.rtcpCand.setWidth 31).toNat = false) : CtxOk p (srtcpCommitBank p b) := by
  obtain ⟨hsize, hwin, hrtcp, hcand⟩ := (ctxOk_valid_iff hv).mp h
  exact (ctxOk_valid_iff (b := srtcpCommitBank p b) hv).mpr ⟨hsize, hwin,
    windowOk_setSrtcpWindow (windowOk_replayMark hrtcp hsize.1 hr) (replayMark_valid _ _ _) (replayMark_size _ _ _),
    hcand⟩

/-- Every change a command makes to the bank of its context keeps it sound. -/
theorem bankChange_keepsCtxOk {p : Params} {b b' : Ctx} {c : BitVec 4} {i : Instr} (h : CtxOk p b)
    (hb : BankChange p b c i b') : CtxOk p b' := by
  cases hb with
  | init hv hw =>
    exact (ctxOk_valid_iff (b := initBank p b) rfl).mpr ⟨(winLegal_iff p b.winSize).mp hw, windowOk_empty _,
      windowOk_empty _, fun _ hc => nomatch hc⟩
  | updateKey hv =>
    obtain ⟨hsize, hwin, hrtcp, -⟩ := (ctxOk_valid_iff hv).mp h
    exact (ctxOk_valid_iff (b := updateKeyBank p b) hv).mpr ⟨hsize, hwin, hrtcp, fun _ hc => nomatch hc⟩
  | teardown => exact ctxOk_cleared rfl rfl
  | kdf => exact h
  | srtpTx hv v seq => exact ctxOk_srtpTxBank h hv v seq
  | srtpRxCheck hv v seq he =>
    obtain ⟨hsize, hwin, hrtcp, -⟩ := (ctxOk_valid_iff hv).mp h
    refine (ctxOk_valid_iff (b := srtpCandidate b v seq) hv).mpr ⟨hsize, hwin, hrtcp, fun hsl _ => ?_⟩
    have hroc : v = b.roc.toNat := by have := estimateV_fresh (b := b) seq hsl; omega
    exact (congrArg u32 hroc).trans (BitVec.ofNat_toNat _ _)
  | srtpRxCommit hv hc hr => exact ctxOk_srtpCommitBank h hv hr
  | srtcpTx hv => exact (ctxOk_valid_iff (b := { b with rtcpTxIndex := b.rtcpTxIndex + 1 }) hv).mpr (h.2 hv)
  | srtcpRxCheck hv w =>
    exact (ctxOk_valid_iff
      (b := { b with rtcpCand := w, status := { b.status with rtcpCandValid := true } }) hv).mpr (h.2 hv)
  | srtcpRxCommit hv hc hr => exact ctxOk_srtcpCommitBank h hv hr

theorem exec_keepsContexts {i : Instr} {s t : State} (h : ContextsInv s) (hx : exec i s = .next t) :
    ContextsInv t := by
  intro c
  obtain ⟨e, -, rfl⟩ | ⟨u, hu, rfl⟩ := exec_next_cases hx
  · exact h c
  · show CtxOk u.params (u.bank c)
    rw [(ruleOf_frame hu).params]
    obtain hsame | hchange := ruleOf_bank hu c
    · rw [hsame]; exact h c
    · exact bankChange_keepsCtxOk (h c) hchange

/-- No register write changes a bank's session state, status or candidate. -/
theorem writeBankReg_frame (b : Ctx) (q : BankReg) (v : Word) :
    sessionState (writeBankReg b q v) = sessionState b ∧ (writeBankReg b q v).status = b.status ∧
      (writeBankReg b q v).candRoc = b.candRoc := by
  cases q <;> exact ⟨rfl, rfl, rfl⟩

/-- WIN_SIZE is locked, so no register write that the lock lets through changes a window (10_state.md R38). -/
theorem writeBankReg_windows (b : Ctx) {q : BankReg} (v : Word) (h : isLocked q = false) :
    (writeBankReg b q v).winSize = b.winSize ∧ srtpWindow (writeBankReg b q v) = srtpWindow b ∧
      srtcpWindow (writeBankReg b q v) = srtcpWindow b := by
  cases q <;> first | exact ⟨rfl, rfl, rfl⟩ | cases h

/-- A write to a bank's register that the lock lets through keeps its context sound. -/
theorem writeBankReg_keepsCtxOk {p : Params} {b : Ctx} {q : BankReg} (v : Word) (h : CtxOk p b)
    (hl : (isLocked q && b.status.valid) = false) : CtxOk p (writeBankReg b q v) := by
  obtain ⟨hsess, hst, hcand⟩ := writeBankReg_frame b q v
  cases hv : b.status.valid with
  | false =>
    obtain ⟨hsess0, hst0⟩ := h.1 hv
    exact ctxOk_cleared (hst.trans hst0) (hsess.trans hsess0)
  | true =>
    have hroc : (writeBankReg b q v).roc = b.roc := congrArg SessionState.roc hsess
    obtain ⟨hsize, hwin, hrtcp⟩ := writeBankReg_windows b v (q := q) (by simpa [hv] using hl)
    rw [ctxOk_valid_iff (by rw [hst]; exact hv), hsize, hwin, hrtcp, hst, hcand, hroc]
    exact h.2 hv

theorem writeReg_keepsContexts {s : State} (r : Reg) (v : Word) (h : ContextsInv s) :
    ContextsInv (writeReg s r v) := by
  intro c
  rw [(writeReg_frame s r v).1]
  obtain hsame | ⟨-, -, hreset⟩ | ⟨q, -, hl, hwrite⟩ := writeReg_bank s r v c
  · rw [hsame]; exact h c
  · rw [hreset]; exact ctxOk_reset _
  · rw [hwrite]; exact writeBankReg_keepsCtxOk v (h c) hl

theorem hostAccess_keepsContexts {s : State} (op : HostOp) (h : ContextsInv s) : ContextsInv (hostAccess s op) := by
  obtain ⟨t, he, hc⟩ := hostAccess_cases s op
  rw [he]
  obtain ⟨v, rfl⟩ | rfl | ⟨v, rfl⟩ | ⟨off, r, v, -, -, rfl⟩ | ⟨a, w, v, -, rfl⟩ := hc
  case inr.inr.inr.inl => exact writeReg_keepsContexts r v h
  all_goals exact h

/-- Settles O12: each command changes at most its own bank and keeps it sound, the lock keeps the host from the window
size of a valid context, and a soft reset leaves empty contexts. -/
theorem stepKeepsContexts : Obligations.StepKeepsContexts := by
  intro s t h hs
  obtain ⟨-, rfl⟩ | ⟨op, rest, -, rfl⟩ | ⟨-, i, -, hx⟩ | ⟨-, rfl⟩ := step_cases hs
  · exact h
  · exact hostAccess_keepsContexts (s := { s with host := rest }) op h
  · exact exec_keepsContexts h hx
  · exact h

end Sys2Proof.Machine
end

section
/-! PROOFS. What a host read depends on (20_memory.md R84 to R87, 10_state.md R39, R41). -/

namespace Sys2Proof.Machine

open Sys2Proof

@[simp] theorem withIrq_params (s : State) : (withIrq s).params = s.params := rfl
@[simp] theorem withIrq_status (s : State) : (withIrq s).glob.status = s.glob.status := rfl
@[simp] theorem withIrq_pb (s : State) : (withIrq s).pb = s.pb := rfl
@[simp] theorem withIrq_readData (s : State) : (withIrq s).readData = s.readData := rfl
@[simp] theorem withIrq_bank (s : State) (c : BitVec 4) : (withIrq s).bank c = s.bank c := rfl

/-- The interface accepts an access only at its target (20_memory.md R85). -/
theorem targetOf_of_acceptedTarget {s : State} {off : Nat} {w : Width} {wr : Bool} {x : Target}
    (h : acceptedTarget s off w wr = some x) : targetOf s.params off w = some x := by
  unfold acceptedTarget at h
  split at h
  · cases h
  next y hy =>
  split at h
  · cases h
  · rw [hy]; exact h

/-- A read returns the same from two states that agree on what is accepted, on the buffer, and on the register it
lands on. -/
theorem readData_congr {s t : State} {off : Nat} {w : Width} (hp : t.params = s.params)
    (hb : t.glob.status.busy = s.glob.status.busy) (hpb : t.pb = s.pb)
    (hr : ∀ r, targetOf s.params off w = some (.reg r) → readReg t r = readReg s r) :
    (hostAccess t (.read off w)).readData = (hostAccess s (.read off w)).readData := by
  have hacc : acceptedTarget t off w false = acceptedTarget s off w false := by
    simp only [acceptedTarget, hp, hb]
  show (hostRead t off w).readData = (hostRead s off w).readData
  unfold hostRead
  rw [hacc]
  cases hx : acceptedTarget s off w false with
  | none => rfl
  | some x =>
    cases x with
    | reg r => exact hr r (targetOf_of_acceptedTarget hx)
    | buf a => simp only [hpb]

/-- A register read below the banks lands on the row at its offset (20_memory.md R84). -/
theorem rowAt_of_targetOf {p : Params} {off : Nat} {q : Reg} (h : off < 0x400)
    (ht : targetOf p off .word = some (.reg q)) : rowAt regRows off = some q := by
  unfold targetOf regAt at ht
  rw [if_neg (by omega), if_pos h] at ht
  split at ht
  · simpa using ht
  · cases ht

/-- No register of a bank shows its master key or salt, active or staged (10_state.md R39, R41). -/
theorem readBankReg_keys (p : Params) (b : Ctx) (q : BankReg) (k1 k2 : BitVec 256) (s1 : BitVec 112)
    (s2 : BitVec 128) :
    readBankReg p { b with mkeyAct := k1, mkeyStg := k2, msaltAct := s1, msaltStg := s2 } q = readBankReg p b q := by
  cases q <;> rfl

/-- A bank written with a context that every register reads alike leaves what every register reads as. -/
theorem readReg_setBank {s : State} {c : BitVec 4} {b : Ctx} (r : Reg)
    (h : ∀ q, readBankReg s.params b q = readBankReg s.params (s.bank c) q) :
    readReg (s.setBank c b) r = readReg s r := by
  cases r
  case bank d q =>
    by_cases hd : c = d
    · subst hd; simpa [readReg] using h q
    · simp [readReg, hd]
  all_goals rfl

/-- Settles O22: what a read returns is fixed by the buffer and the registers, and none of them shows these keys. -/
theorem hostCannotReadKeys : Obligations.HostCannotReadKeys := fun _ _ _ _ _ _ _ _ =>
  readData_congr rfl rfl rfl fun r _ => readReg_setBank r fun q => readBankReg_keys _ _ q _ _ _ _

end Sys2Proof.Machine
end

section
/-! PROOFS. The bits of a register's field: written, and read back (10_state.md R21, R22, R34 to R36). -/

namespace Sys2Proof.Machine

open Sys2Proof

theorem lowBits_getLsbD (n : Nat) (v : Word) (i : Nat) (hi : i < 32) :
    (lowBits n v).getLsbD i = (decide (i < n) && v.getLsbD i) := by
  rw [lowBits, BitVec.getLsbD_ofNat, Nat.testBit_mod_two_pow]
  simp [hi, BitVec.getLsbD]

/-- A field takes the low bits of the word written and reads back as them. -/
theorem setWidth_setWidth_word (n : Nat) (v : Word) : (v.setWidth n).setWidth 32 = lowBits n v := by
  rw [setWidth_word, BitVec.toNat_setWidth, Nat.mod_mod]; rfl

theorem lowBits_word (v : Word) : lowBits 32 v = v := by
  rw [← setWidth_setWidth_word]; simp

theorem bitAt_getLsbD (b : Bool) (k i : Nat) (hi : i < 32) : (bitAt b k).getLsbD i = (b && decide (i = k)) := by
  cases b with
  | false => simp [bitAt]
  | true =>
    rw [bitAt, if_pos rfl, BitVec.getLsbD_shiftLeft, BitVec.getLsbD_one]
    by_cases h : i < k
    · simp [h, show i ≠ k by omega]
    · simp [h, hi]; omega

/-- INT_EN reads back its three bits (10_state.md R22). -/
theorem intWord_intBitsOf (v : Word) : intWord (intBitsOf v) = lowBits 3 v := by
  refine BitVec.eq_of_getLsbD_eq fun i hi => ?_
  simp only [intWord, intBitsOf, BitVec.getLsbD_or, bitAt_getLsbD _ _ _ hi, lowBits_getLsbD _ _ _ hi]
  by_cases h : i < 3
  · interval_cases i <;> simp
  · simp [h, show i ≠ 0 by omega, show i ≠ 1 by omega, show i ≠ 2 by omega]

/-- All four values of PROFILE are legal, and each names one profile (10_state.md R36). -/
theorem profileBits_profileOf : ∀ x : BitVec 2, profileBits (profileOf x) = x := by decide

/-- CTX_CFG reads back its five bits (10_state.md R35, R36). -/
theorem ctxCfgWord_ctxCfgOf (v : Word) : ctxCfgWord (ctxCfgOf v) = lowBits 5 v := by
  refine BitVec.eq_of_getLsbD_eq fun i hi => ?_
  simp only [ctxCfgWord, ctxCfgOf, profileBits_profileOf, BitVec.getLsbD_or, bitAt_getLsbD _ _ _ hi,
    lowBits_getLsbD _ _ _ hi, BitVec.getLsbD_setWidth, BitVec.getLsbD_extractLsb']
  by_cases h : i < 5
  · interval_cases i <;> simp
  · simp [h, show ¬ i < 2 by omega, show i ≠ 2 by omega, show i ≠ 3 by omega, show i ≠ 4 by omega]

theorem setLo48_lo (x : BitVec 48) (v : Word) : (setLo48 x v).extractLsb' 0 32 = v := by
  refine BitVec.eq_of_getLsbD_eq fun i hi => ?_
  simp only [setLo48, BitVec.getLsbD_extractLsb', BitVec.getLsbD_append]
  simp [hi]

theorem setHi48_hi (x : BitVec 48) (v : Word) : (setHi48 x v).extractLsb' 32 16 = v.setWidth 16 := by
  refine BitVec.eq_of_getLsbD_eq fun i hi => ?_
  simp only [setHi48, BitVec.getLsbD_extractLsb', BitVec.getLsbD_append]
  simp [hi]

end Sys2Proof.Machine
end

section
/-! PROOFS. The registers of a bank: the lock, key staging and the bitmap words (10_state.md R35 to R40). -/

namespace Sys2Proof.Machine

open Sys2Proof

section Bank

variable {s : State} {c : BitVec 4} {off : Nat} {q : BankReg}

/-- A read of a register of an existing bank. -/
theorem hostAccess_read_bank (hb : s.glob.status.busy = false) (hc : c.toNat < s.params.nCtx) (ho : off < 0x100)
    (hm : off % 4 = 0) (hq : rowAt bankRows off = some q) :
    hostAccess s (.read (bankOffset c off) .word) =
      withIrq { s with readData := readBankReg s.params (s.bank c) q } :=
  hostAccess_read (targetOf_bank hc ho hm hq) (.inl hb)

/-- A write to a register of an existing bank. -/
theorem hostAccess_write_bank (v : Word) (hb : s.glob.status.busy = false) (hc : c.toNat < s.params.nCtx)
    (ho : off < 0x100) (hm : off % 4 = 0) (hq : rowAt bankRows off = some q) :
    hostAccess s (.write (bankOffset c off) .word v) = withIrq (writeBank s c q v) :=
  hostAccess_write v (targetOf_bank hc ho hm hq) (.inl hb)

/-- A write to a locked register of a valid context (10_state.md R38). -/
theorem writeBank_locked (v : Word) (hl : isLocked q = true) (hv : (s.bank c).status.valid = true) :
    writeBank s c q v = accessError s := by
  simp [writeBank, hl, hv]

/-- A write to a register that the lock lets through. -/
theorem writeBank_unlocked (v : Word) (hl : (isLocked q && (s.bank c).status.valid) = false) :
    writeBank s c q v = s.setBank c (writeBankReg (s.bank c) q v) := by
  simp [writeBank, hl]

/-- A write that the lock lets through writes the register's field in its bank. -/
theorem hostAccess_write_unlocked (v : Word) (hb : s.glob.status.busy = false) (hc : c.toNat < s.params.nCtx)
    (ho : off < 0x100) (hm : off % 4 = 0) (hq : rowAt bankRows off = some q)
    (hl : (isLocked q && (s.bank c).status.valid) = false) :
    hostAccess s (.write (bankOffset c off) .word v) =
      withIrq (s.setBank c (writeBankReg (s.bank c) q v)) := by
  rw [hostAccess_write_bank v hb hc ho hm hq, writeBank_unlocked v hl]

/-- A register of a bank just written shows what the bank now holds. -/
theorem readBack_bank (hb : s.glob.status.busy = false) (hc : c.toNat < s.params.nCtx) (ho : off < 0x100)
    (hm : off % 4 = 0) (hq : rowAt bankRows off = some q) (b : Ctx) :
    (hostAccess (withIrq (s.setBank c b)) (.read (bankOffset c off) .word)).readData = readBankReg s.params b q := by
  rw [hostAccess_read_bank (s := withIrq (s.setBank c b)) hb hc ho hm hq]
  simp

end Bank

/-- The width of the field of a bank register the host can read back (10_state.md R35). -/
def BankReg.fieldWidth : BankReg → Nat
  | .ctxCfg => 5
  | .winSize => 16
  | .winBmpIdx => 7
  | _ => 32

/-- A locked register, and WIN_BMP_IDX, read back the bits of their field (10_state.md R21, R35). -/
theorem readBankReg_writeBankReg {q : BankReg} (h : isLocked q = true ∨ q = .winBmpIdx) (p : Params) (b : Ctx)
    (v : Word) : readBankReg p (writeBankReg b q v) q = lowBits q.fieldWidth v := by
  cases q
  case ctxCfg => exact ctxCfgWord_ctxCfgOf v
  case winSize => exact setWidth_setWidth_word 16 v
  case winBmpIdx => exact setWidth_setWidth_word 7 v
  case kdr | ctxSsrc | mki | rocInit => exact (lowBits_word v).symm
  all_goals simp [isLocked] at h

/-- The widths of the locked registers' table are those of their fields. -/
theorem lockedRegisters_width :
    ∀ x ∈ lockedRegisters, (rowAt bankRows x.1).map BankReg.fieldWidth = some x.2 := by decide

/-- Settles O19: the lock decides, and a write it lets through goes to the field of the register's row. -/
theorem lockedRegisters_access : Obligations.LockedRegisters := by
  intro s c r v hb hc hr
  obtain ⟨ho, hm, q, hq, hl, hw⟩ := lockedRegisters_rows r hr
  constructor
  · intro hv
    rw [hostAccess_write_bank v hb hc ho hm hq, writeBank_locked v hl hv]; rfl
  · intro hv
    have hwidth : q.fieldWidth = r.2 := by simpa [hq] using lockedRegisters_width r hr
    rw [hostAccess_write_unlocked v hb hc ho hm hq (by rw [hv, Bool.and_false])]
    refine ⟨_, rfl, ?_, by rw [hw]⟩
    rw [readBack_bank hb hc ho hm hq, readBankReg_writeBankReg (.inl hl), hwidth]

/-- Where the staging words stand (10_state.md R35). -/
theorem rowAt_stage : (∀ i : Fin 8, rowAt bankRows (0x60 + 4 * i.val) = some (.mkeyStage i)) ∧
    ∀ i : Fin 4, rowAt bankRows (0x80 + 4 * i.val) = some (.msaltStage i) := by decide

/-- Settles O21: a staging word is replaced byte for byte, and its register reads 0. -/
theorem keyStaging : Obligations.KeyStaging := by
  intro s c v i hb hc
  constructor
  · intro hi
    have hq := rowAt_stage.1 ⟨i, hi⟩
    rw [hostAccess_write_unlocked v hb hc (by omega) (by omega) hq rfl]
    refine ⟨_, rfl, fun k hk => ?_, by simp [writeBankReg], readBack_bank hb hc (by omega) (by omega) hq _⟩
    simpa [writeBankReg] using keyByte_setKeyWord (s.bank c).mkeyStg i v k (by decide) (by omega) (by omega)
  · intro hi
    have hq := rowAt_stage.2 ⟨i, hi⟩
    rw [hostAccess_write_unlocked v hb hc (by omega) (by omega) hq rfl]
    refine ⟨_, rfl, fun k hk => ?_, by simp [writeBankReg], readBack_bank hb hc (by omega) (by omega) hq _⟩
    simpa [writeBankReg] using keyByte_setKeyWord (s.bank c).msaltStg i v k (by decide) (by omega) (by omega)

/-- A bitmap word, bit by bit; the word index keeps every position below 4096 (10_state.md R40). -/
theorem bitmapWord_getLsbD (p : Params) (b : Ctx) (bmp : BitVec 4096) (j : Nat) (hj : j < 32) :
    (bitmapWord p b bmp).getLsbD j = (decide (32 * b.winBmpIdx.toNat + j < b.winSize.toNat) &&
      decide (32 * b.winBmpIdx.toNat + j < p.wMax) && bmp.getLsbD (32 * b.winBmpIdx.toNat + j)) := by
  have hidx := b.winBmpIdx.isLt
  have hlt : 32 * b.winBmpIdx.toNat + j < 4096 := by omega
  simp only [bitmapWord, BitVec.getLsbD_extractLsb', BitVec.getLsbD_and]
  rw [getLsbD_lowMask _ _ (Nat.min_le_right _ _)]
  simp [hj, hlt, Bool.and_comm]

/-- Settles O24: the two data registers are rows of the bank, and each reads its bitmap word. -/
theorem bitmapReadback : Obligations.BitmapReadback := by
  intro s c j p hj hp
  subst hp
  exact ⟨fun hb hc =>
      ⟨hostAccess_read_bank (off := 0x30) (q := .winBmpData) hb hc (by decide) (by decide) (by decide),
        hostAccess_read_bank (off := 0x4C) (q := .rtcpBmpData) hb hc (by decide) (by decide) (by decide)⟩,
    bitmapWord_getLsbD _ _ _ _ hj, bitmapWord_getLsbD _ _ _ _ hj⟩

end Sys2Proof.Machine
end

section
/-! PROOFS. The registers below the banks by access type, and the read-only ones of a bank (10_state.md R21 to R35). -/

namespace Sys2Proof.Machine

open Sys2Proof

/-- The interface is open at an offset exactly when it is open for the register there (20_memory.md R85). -/
theorem openWhileBusy_of_openNow {s : State} {off : Nat} {r : Reg} (h : OpenNow s off)
    (hg : inStatusGroup r = statusGroupOffset off) (wr : Bool) :
    s.glob.status.busy = false ∨ openWhileBusy wr (.reg r) = true :=
  h.imp_right fun hs => by simp [openWhileBusy, hg, hs]

/-- A read of a register below the banks. -/
theorem hostAccess_read_row {s : State} {x : Nat × Word} (h : ShowsRow s x) (ho : OpenNow s x.1) :
    hostAccess s (.read x.1 .word) = withIrq { s with readData := x.2 } := by
  obtain ⟨hlt, hm, r, hr, hg, hw⟩ := h
  rw [hostAccess_read (targetOf_low hlt hm hr) (openWhileBusy_of_openNow ho hg false), hw]

/-- A write to a register below the banks. -/
theorem hostAccess_write_row {s : State} {off : Nat} {r : Reg} (v : Word) (hlt : off < 0x400) (hm : off % 4 = 0)
    (hr : rowAt regRows off = some r) (hg : inStatusGroup r = statusGroupOffset off) (ho : OpenNow s off) :
    hostAccess s (.write off .word v) = withIrq (writeReg s r v) :=
  hostAccess_write v (targetOf_low hlt hm hr) (openWhileBusy_of_openNow ho hg true)

/-- The width of the field of an RW register below the banks (10_state.md R22, R27, R28, R30, R34). -/
def Reg.fieldWidth : Reg → Nat
  | .intEn => 3
  | .hdrB01 | .hdrSeq | .extProfile | .sessSeq | .kdfIdxHi => 16
  | .sessPt => 7
  | _ => 32

/-- An RW register below the banks reads back the bits of its field (10_state.md R21). -/
theorem readReg_writeReg_self {r : Reg} (h : isRw r = true) (s : State) (v : Word) :
    readReg (writeReg s r v) r = lowBits r.fieldWidth v := by
  cases r
  case intEn => exact intWord_intBitsOf v
  case hdrB01 | hdrSeq | extProfile | sessSeq => exact setWidth_setWidth_word 16 v
  case sessPt => exact setWidth_setWidth_word 7 v
  case kdfIdxLo => exact (setLo48_lo _ v).trans (lowBits_word v).symm
  case kdfIdxHi => exact (congrArg (BitVec.setWidth 32) (setHi48_hi _ v)).trans (setWidth_setWidth_word 16 v)
  case csrc i => simp [readReg, writeReg, Reg.fieldWidth, lowBits_word]
  case srcAddr | srcLen | dstAddr | dstCap | auxAddr | auxLen | arg0 | arg1 | hdrTs | hdrSsrc | sessSsrc | sessTs |
      nowNtpMsw | nowNtpLsw | nowRtpTs | rxArrival => exact (lowBits_word v).symm
  all_goals cases h

/-- The widths of the RW registers' table are those of their fields. -/
theorem rwRegisters_width : ∀ x ∈ rwRegisters, (rowAt regRows x.1).map Reg.fieldWidth = some x.2 := by decide

/-- A write to an RW register below the banks leaves STATUS. -/
theorem writeReg_rw_status {s : State} {r : Reg} {v : Word} (h : isRw r = true) :
    (writeReg s r v).glob.status = s.glob.status := by
  rw [writeReg_rw (v := v) (s := s) h rfl]

/-- After a write to an RW register below the banks every other offset there reads as before. -/
theorem readData_writeReg_ne {s : State} {off off' : Nat} {r : Reg} (v : Word) (hrw : isRw r = true)
    (hr : rowAt regRows off = some r) (hlt : off' < 0x400) (hne : off' ≠ off) :
    (hostAccess (withIrq (writeReg s r v)) (.read off' .word)).readData =
      (hostAccess s (.read off' .word)).readData := by
  obtain ⟨hp, hpb, -⟩ := writeReg_frame s r v
  refine readData_congr hp (congrArg Status.busy (writeReg_rw_status hrw)) hpb fun q hq => ?_
  rw [readReg_withIrq]
  refine readReg_writeReg_ne v hrw ?_
  rintro rfl
  exact hne (regRows_rw _ (rowAt_mem hr) hrw _ (rowAt_mem (rowAt_of_targetOf hlt hq)) rfl)

/-- The registers a write can change something through: the RW ones, those with an access type of their own, and the
banks' (10_state.md R21). -/
def takesWrites : Reg → Bool
  | .ctrl | .cmd | .status | .intStatus | .bank _ _ => true
  | r => isRw r

/-- Any other register is RO or reserved and ignores a write (10_state.md R21). -/
theorem writeReg_ignored {r : Reg} (h : takesWrites r = false) (s : State) (v : Word) : writeReg s r v = s := by
  cases r <;> first | rfl | cases h

/-- Where the RO and reserved registers below the banks stand. -/
theorem roRegisters_rows : ∀ off ∈ roRegisters, off < 0x400 ∧ off % 4 = 0 ∧ (rowAt regRows off).any
    (fun r => !takesWrites r && inStatusGroup r == statusGroupOffset off) = true := by decide

/-- The registers of a bank a write can change. -/
def takesBankWrites : BankReg → Bool
  | .winBmpIdx | .mkeyStage _ | .msaltStage _ => true
  | q => isLocked q

/-- Any other register of a bank ignores a write (10_state.md R21, R35). -/
theorem writeBank_ignored {q : BankReg} (h : takesBankWrites q = false) (s : State) (c : BitVec 4) (v : Word) :
    writeBank s c q v = s := by
  have hl : isLocked q = false := by cases q <;> first | rfl | cases h
  have hw : writeBankReg (s.bank c) q v = s.bank c := by cases q <;> first | rfl | cases h
  rw [writeBank_unlocked v (by rw [hl, Bool.false_and]), hw, setBank_bank]

/-- Where the RO and reserved registers of a bank stand. -/
theorem roBankRegisters_rows : ∀ off ∈ roBankRegisters, off < 0x100 ∧ off % 4 = 0 ∧
    (rowAt bankRows off).any (fun q => !takesBankWrites q) = true := by decide

/-- A write to an RO or reserved register below the banks changes nothing. -/
theorem hostAccess_write_ro {s : State} {off : Nat} (v : Word) (h : off ∈ roRegisters) (ho : OpenNow s off) :
    hostAccess s (.write off .word v) = withIrq s := by
  obtain ⟨hlt, hm, hrow⟩ := roRegisters_rows off h
  obtain ⟨r, hr, hk⟩ := (Option.any_eq_true _ _).mp hrow
  simp only [Bool.and_eq_true, Bool.not_eq_true', beq_iff_eq] at hk
  rw [hostAccess_write_row v hlt hm hr hk.2 ho, writeReg_ignored hk.1]

/-- A write to an RO or reserved register of a bank changes nothing. -/
theorem hostAccess_write_roBank {s : State} {c : BitVec 4} {off : Nat} (v : Word) (h : off ∈ roBankRegisters)
    (hb : s.glob.status.busy = false) (hc : c.toNat < s.params.nCtx) :
    hostAccess s (.write (bankOffset c off) .word v) = withIrq s := by
  obtain ⟨hlt, hm, hrow⟩ := roBankRegisters_rows off h
  obtain ⟨q, hq, hk⟩ := (Option.any_eq_true _ _).mp hrow
  rw [hostAccess_write_bank v hb hc hlt hm hq, writeBank_ignored (by simpa using hk)]

/-- A write to an RW register below the banks: the field of its row, read back, and no other register. -/
theorem hostAccess_write_rw {s : State} {r : Nat × Nat} (v : Word) (h : r ∈ rwRegisters) (ho : OpenNow s r.1) :
    ∃ t, hostAccess s (.write r.1 .word v) = t ∧ t = withIrq (withRegister r.1 v s) ∧
      (hostAccess t (.read r.1 .word)).readData = lowBits r.2 v ∧
      (∀ off, off < 0x400 → off ≠ r.1 →
        (hostAccess t (.read off .word)).readData = (hostAccess s (.read off .word)).readData) := by
  obtain ⟨hlt, hm, q, hq, hg, hrw, hw⟩ := rwRegisters_rows r h
  have hwidth : q.fieldWidth = r.2 := by simpa [hq] using rwRegisters_width r h
  rw [hostAccess_write_row v hlt hm hq hg ho]
  refine ⟨_, rfl, by rw [hw], ?_, fun off hoff hne => readData_writeReg_ne v hrw hq hoff hne⟩
  have hopen : OpenNow (withIrq (writeReg s q v)) r.1 := by
    rwa [OpenNow, withIrq_status, writeReg_rw_status hrw]
  rw [hostAccess_read_row (x := (r.1, lowBits r.2 v)) ⟨hlt, hm, q, hq, hg, ?_⟩ hopen, withIrq_readData]
  rw [readReg_withIrq, readReg_writeReg_self hrw, hwidth]

/-- Settles O20: each table entry is the word of its row, and each access type has its rule. -/
theorem registerAccessTypes : Obligations.RegisterAccessTypes := by
  intro s v
  refine ⟨fun x hx ho => hostAccess_read_row (registerWords_rows s x hx) ho,
    fun r hr ho => hostAccess_write_rw v hr ho, fun off hoff ho => hostAccess_write_ro v hoff ho,
    fun c hc hb => ⟨fun x hx => ?_, ?_, fun off hoff => hostAccess_write_roBank v hoff hb hc⟩⟩
  · obtain ⟨hlt, hm, q, hq, hw⟩ := bankWords_rows s.params (s.bank c) x hx
    rw [hostAccess_read_bank hb hc hlt hm hq, hw]
  · have hq : rowAt bankRows 0x2C = some .winBmpIdx := by decide
    rw [hostAccess_write_unlocked v hb hc (by decide) (by decide) hq rfl]
    refine ⟨_, rfl, rfl, ?_⟩
    rw [readBack_bank hb hc (by decide) (by decide) hq, readBankReg_writeBankReg (.inr rfl)]
    rfl

end Sys2Proof.Machine
end

section
/-! PROOFS. What every register reads as after reset (70_reset_and_hazards.md R330). -/

namespace Sys2Proof.Machine

open Sys2Proof

theorem keyWord_zero (w i : Nat) : keyWord (0 : BitVec w) i = 0 := by
  simp [keyWord]

/-- What a bank register reads as after reset (10_state.md R35). -/
theorem readBankReg_reset (p : Params) (q : BankReg) :
    readBankReg p Ctx.reset q = match q with
      | .winSize => 64
      | _ => 0 := by
  cases q
  case winBmpData | rtcpBmpData => simp [readBankReg, bitmapWord, Ctx.reset]
  all_goals rfl

/-- Settles O14, register by register. -/
theorem resetValues : Obligations.ResetValues := by
  refine ⟨fun r => ?_, fun c => ?_, rfl, rfl, rfl, rfl⟩
  · cases r
    case csrc i => simp [readReg, State.reset, HeaderRegs.reset]
    case skEnc i => exact keyWord_zero _ _
    case skSalt i => exact keyWord_zero _ _
    case skAuth i => exact keyWord_zero _ _
    case bank c q =>
      rw [readReg, bank_reset, readBankReg_reset]
      cases q <;> rfl
    all_goals rfl
  · rw [bank_reset]; exact ⟨rfl, rfl, rfl, rfl, rfl, rfl⟩

end Sys2Proof.Machine
end

section
/-! PROOFS. The receive statistics (42_rtp_session.md R170, R175 to R179). -/

namespace Sys2Proof.Machine

open Sys2Proof

/-- Two sequence numbers are at distance 0 exactly when they are equal modulo 2^16 (42_rtp_session.md R170). -/
theorem sequenceDiff_eq_zero_iff (a b : BitVec 16) : sequenceDiff a b = 0 ↔ a - b = 0 := by
  have hd := (a - b).isLt
  have h0 : a - b = 0 ↔ (a - b).toNat = 0 := BitVec.toNat_inj.symm
  rw [h0]
  unfold sequenceDiff
  dsimp only
  split <;> omega

/-- The distance is negative exactly above half the number range (42_rtp_session.md R170). -/
theorem sequenceDiff_neg_iff (a b : BitVec 16) : sequenceDiff a b < 0 ↔ 32767 < (a - b).toNat := by
  have hd := (a - b).isLt
  unfold sequenceDiff
  dsimp only
  split <;> omega

section Stats

variable {rx : RxRegs} {ssrc : Word} {seq : BitVec 16} (ts arrival : Word)

/-- The first packet (42_rtp_session.md R176). -/
theorem updateRxStats_first (hv : rx.state.rxValid = false) : updateRxStats rx ssrc seq ts arrival =
    (startRxStats rx ssrc seq (arrival - ts), { HdrFlags.zero with first := true }) := by
  simp only [updateRxStats, hv, Bool.not_false, if_true]

/-- A packet of another source (42_rtp_session.md R176). -/
theorem updateRxStats_foreign (hv : ¬ rx.state.rxValid = false) (hs : ssrc ≠ rx.ssrc) :
    updateRxStats rx ssrc seq ts arrival = (rx, { HdrFlags.zero with foreignSsrc := true }) := by
  simp only [updateRxStats, Bool.not_eq_true', if_neg hv, if_pos hs]

/-- A repeat of the highest sequence number (42_rtp_session.md R176). -/
theorem updateRxStats_duplicate (hv : ¬ rx.state.rxValid = false) (hs : ¬ ssrc ≠ rx.ssrc)
    (hd : seq - rx.maxSeq = 0) : updateRxStats rx ssrc seq ts arrival =
      ({ rx with duplicates := rx.duplicates + 1 }, { HdrFlags.zero with duplicate := true }) := by
  have h0 := (sequenceDiff_eq_zero_iff seq rx.maxSeq).mpr hd
  simp only [updateRxStats, Bool.not_eq_true', if_neg hv, if_neg hs, if_pos h0]

/-- A packet at most half the number range ahead of the highest (42_rtp_session.md R170, R176). -/
theorem updateRxStats_ahead (hv : ¬ rx.state.rxValid = false) (hs : ¬ ssrc ≠ rx.ssrc)
    (hd : ¬ seq - rx.maxSeq = 0) (ha : (seq - rx.maxSeq).toNat ≤ 32767) : updateRxStats rx ssrc seq ts arrival =
      ({ updateJitter rx (arrival - ts) with
          received := rx.received + 1
          cycles := if seq.toNat < rx.maxSeq.toNat then rx.cycles + 1 else rx.cycles
          maxSeq := seq }, HdrFlags.zero) := by
  have h0 := (sequenceDiff_eq_zero_iff seq rx.maxSeq).not.mpr hd
  have hpos : sequenceDiff seq rx.maxSeq > 0 := by
    have := (sequenceDiff_neg_iff seq rx.maxSeq).not.mpr (by omega)
    omega
  simp only [updateRxStats, Bool.not_eq_true', if_neg hv, if_neg hs, if_neg h0, if_pos hpos]

/-- A packet behind the highest (42_rtp_session.md R170, R176). -/
theorem updateRxStats_reordered (hv : ¬ rx.state.rxValid = false) (hs : ¬ ssrc ≠ rx.ssrc)
    (ha : ¬ (seq - rx.maxSeq).toNat ≤ 32767) : updateRxStats rx ssrc seq ts arrival =
      ({ updateJitter rx (arrival - ts) with received := rx.received + 1, reordered := rx.reordered + 1 },
        { HdrFlags.zero with reordered := true }) := by
  have hneg := (sequenceDiff_neg_iff seq rx.maxSeq).mpr (by omega)
  simp only [updateRxStats, Bool.not_eq_true', if_neg hv, if_neg hs, if_neg hneg.ne, if_neg hneg.not_gt]

end Stats

/-- The one-byte extension flag, in the words of the wire format (41_rtp_codec.md R156). -/
theorem isOneByteExt_rtpHeaderOf (m : Memory) (base : Nat) :
    isOneByteExt (rtpHeaderOf m base) = rtpOneByteExt m base := by
  have hlt : memRead m (rtpExtAddr m base) 2 < 2 ^ 16 := memRead_lt m (rtpExtAddr m base) 2
  have hprof : (BitVec.ofNat 16 (memRead m (rtpExtAddr m base) 2) == 0xBEDE) =
      (memRead m (rtpExtAddr m base) 2 == 0xBEDE) := by
    rw [Bool.eq_iff_iff, beq_iff_eq, beq_iff_eq, ← BitVec.toNat_inj, BitVec.toNat_ofNat, Nat.mod_eq_of_lt hlt]
    rfl
  unfold isOneByteExt rtpOneByteExt rtpHeaderOf rtpHeaderAt
  cases rtpX m base with
  | false => rfl
  | true => simpa using hprof

/-- SESS_PROCESS_RECEIVED of a packet that passes the checks: the statistics and the flags are those UpdateRxStats
answers for its SSRC, sequence number and timestamp (42_rtp_session.md R175). -/
theorem ruleSessProcessReceived_stats {s : State} {base : Nat} {u : RxRegs × HdrFlags}
    (hbase : base = s.op.srcAddr.toNat)
    (hu : updateRxStats s.rx (memWord s.pb (base + 8)) (rtpSeq s.pb base) (memWord s.pb (base + 4))
      s.sess.rxArrival = u) (hr : InRange s s.op.srcAddr s.op.srcLen) (hf : RtpFits s.pb base s.op.srcLen.toNat) :
    ∃ v, ruleOf .sessProcessReceived s = .ok v ∧
      v.hdr.flags = { u.2 with extOneByte := rtpOneByteExt s.pb base } ∧ v.rx = u.1 := by
  subst hbase hu
  simp only [ruleOf, ruleSessProcessReceived, if_neg (not_not_intro hr), parseRtpHeader_eq, if_pos hf]
  exact ⟨_, rfl, by rw [← isOneByteExt_rtpHeaderOf]; rfl, rfl⟩

/-- Settles O34, by the five cases of the statistics. -/
theorem receiveStatistics : Obligations.ReceiveStatistics := by
  intro s base ssrc transit jitter seq dist dev hbase hssrc hseq htransit hdev hjitter hdist hin hfit
  obtain ⟨v, hv, hflags, hrx⟩ := ruleSessProcessReceived_stats hbase rfl hin hfit
  refine ⟨_, exec_of_ok hv, ?_⟩
  dsimp only
  rw [hflags, hrx]
  subst hssrc hseq htransit hdev hjitter hdist
  split
  · next hv => rw [updateRxStats_first _ _ hv]; exact ⟨rfl, rfl⟩
  next hv =>
  split
  · next hs => rw [updateRxStats_foreign _ _ hv hs]; exact ⟨rfl, rfl⟩
  next hs =>
  split
  · next hd => rw [updateRxStats_duplicate _ _ hv hs hd]; exact ⟨rfl, rfl⟩
  next hd =>
  split
  · next ha => rw [updateRxStats_ahead _ _ hv hs hd ha]; exact ⟨rfl, rfl⟩
  · next ha => rw [updateRxStats_reordered _ _ hv hs ha]; exact ⟨rfl, rfl⟩

end Sys2Proof.Machine
end

section
/-! PROOFS. Which accesses the interface rejects, and what the others do to the data read and to the buffer
(20_memory.md R81 to R87, 60_exceptions.md R307). -/

namespace Sys2Proof.Machine

open Sys2Proof

/-- Below the banks the mapped offsets are those of the register tables (20_memory.md R84). -/
theorem rowAt_regRows_isSome :
    ∀ k, k < 256 → (rowAt regRows (4 * k)).isSome = mappedRegister (4 * k) := by decide +kernel

/-- Every word of a bank is mapped (10_state.md R35). -/
theorem rowAt_bankRows_isSome : ∀ k, k < 64 → (rowAt bankRows (4 * k)).isSome = true := by decide +kernel

/-- The offsets open while BUSY = 1 are those of the registers that are open then (20_memory.md R85). -/
theorem regRows_open : ∀ x ∈ regRows, ∀ wr : Bool,
    openWhileBusy wr (.reg x.2) = (statusGroupOffset x.1 || (wr && x.1 == 8)) := by decide +kernel

theorem mappedRegister_of_ge {off : Nat} (h : 0x400 ≤ off) : mappedRegister off = false := by
  simp [mappedRegister]; omega

theorem statusGroupOffset_of_ge {off : Nat} (h : 0x400 ≤ off) : statusGroupOffset off = false := by
  simp [statusGroupOffset]; omega

/-- The register window is mapped below the banks as the tables say, and in the banks below N_CTX (20_memory.md
R84). -/
theorem regAt_isSome {p : Params} {off : Nat} (hp : p.nCtx ≤ 16) (hm : off % 4 = 0) : (regAt p off).isSome =
    (mappedRegister off || (decide (0x400 ≤ off) && decide (off < 0x400 + 0x100 * p.nCtx))) := by
  unfold regAt
  split
  · next hlow =>
    have hk := rowAt_regRows_isSome (off / 4) (by omega)
    rw [Nat.mul_div_cancel' (Nat.dvd_of_mod_eq_zero hm)] at hk
    simp [hk, Nat.not_le.mpr hlow]
  · next hhigh =>
    dsimp only
    rw [mappedRegister_of_ge (by omega)]
    split
    · next hc =>
      have hk := rowAt_bankRows_isSome ((off - 0x400) % 0x100 / 4) (by omega)
      rw [Nat.mul_div_cancel' (by omega)] at hk
      simp [hk]; omega
    · next hc => simp; omega

/-- A register is open while BUSY = 1 exactly when its offset is (20_memory.md R85). -/
theorem openWhileBusy_regAt {p : Params} {off : Nat} {r : Reg} (h : regAt p off = some r) (wr : Bool) :
    openWhileBusy wr (.reg r) = (statusGroupOffset off || (wr && off == 8)) := by
  unfold regAt at h
  split at h
  · exact regRows_open _ (rowAt_mem h) wr
  · next hhigh =>
    have hcmd : (off == 8) = false := by simp; omega
    rw [statusGroupOffset_of_ge (by omega), hcmd]
    dsimp only at h
    split at h
    · obtain ⟨q, -, rfl⟩ := Option.map_eq_some_iff.mp h
      cases wr <;> rfl
    · cases h

/-- The accesses without a target: of a wrong width or alignment, or outside the map (20_memory.md R83, R84). -/
theorem targetOf_isNone {p : Params} (off : Nat) (w : Width) (hp : p.nCtx ≤ 16) : (targetOf p off w).isNone =
    if off < 0x10000 then
      w != .word || off % 4 != 0 ||
        !(mappedRegister off || (decide (0x400 ≤ off) && decide (off < 0x400 + 0x100 * p.nCtx)))
    else w == .other || off % widthBytes w != 0 || decide (0x10000 + p.pbufSize < off + widthBytes w) := by
  unfold targetOf
  by_cases hlow : off < 0x10000
  · rw [if_neg (by omega), if_pos hlow]
    split
    · next hw =>
      obtain ⟨rfl, hm⟩ := hw
      rw [← regAt_isSome hp hm]
      simp [hm]
    · next hw =>
      rcases not_and_or.mp hw with h | h <;> simp [h]
  · rw [if_pos (by omega), if_neg hlow]
    split
    · next hw =>
      obtain ⟨hne, hm, hle⟩ := hw
      simp [hne, hm, hle]
    · next hw =>
      simp only [not_and_or, not_not, not_le] at hw
      rcases hw with h | h | h <;> simp [h]

/-- A target is open while BUSY = 1 exactly when its offset is (20_memory.md R85). -/
theorem openWhileBusy_targetOf {p : Params} {off : Nat} {w : Width} {x : Target} (h : targetOf p off w = some x)
    (wr : Bool) :
    openWhileBusy wr x = (decide (off < 0x10000) && (statusGroupOffset off || (wr && off == 8))) := by
  unfold targetOf at h
  split at h
  · next hbuf =>
    rw [decide_eq_false (by omega), Bool.false_and]
    split at h
    · cases h; rfl
    · cases h
  · next hreg =>
    rw [decide_eq_true (by omega), Bool.true_and]
    split at h
    · obtain ⟨r, hr, rfl⟩ := Option.map_eq_some_iff.mp h
      exact openWhileBusy_regAt hr wr
    · cases h

/-- The interface rejects the accesses without a target, and those it is not open for while BUSY = 1 (20_memory.md
R85). -/
theorem rejects_eq {s : State} (off : Nat) (w : Width) (wr : Bool) (hp : s.params.nCtx ≤ 16) : rejects s off w wr =
    ((targetOf s.params off w).isNone || (s.glob.status.busy &&
      !(decide (off < 0x10000) && (statusGroupOffset off || (wr && off == 8))))) := by
  rw [targetOf_isNone off w hp, rejects]
  split
  · next hlow => rw [decide_eq_true hlow, Bool.true_and]
  · next hlow => rw [decide_eq_false hlow, Bool.false_and, Bool.not_false, Bool.and_true]

/-- The rejected accesses are the ones that are accepted nowhere (20_memory.md R83 to R85). -/
theorem acceptedTarget_isNone {s : State} (off : Nat) (w : Width) (wr : Bool) (hp : s.params.nCtx ≤ 16) :
    (acceptedTarget s off w wr).isNone = rejects s off w wr := by
  rw [rejects_eq off w wr hp, acceptedTarget]
  cases ht : targetOf s.params off w with
  | none => rfl
  | some x =>
    rw [← openWhileBusy_targetOf ht wr, Option.isNone_some, Bool.false_or]
    dsimp only
    split <;> simp_all

/-- Byte k of a number given by its bytes, the lowest first. -/
theorem bytesToNat_reverse_div (bs : List Byte) (k : Nat) :
    bytesToNat bs.reverse / 256 ^ k % 256 = (bs.getD k 0).toNat := by
  induction bs generalizing k with
  | nil => simp [bytesToNat]
  | cons b t ih =>
    have hb := b.isLt
    have hcons : bytesToNat (b :: t).reverse = bytesToNat t.reverse * 256 + b.toNat := by
      rw [List.reverse_cons, bytesToNat_append]; simp [bytesToNat]
    rw [hcons]
    cases k with
    | zero => simp; omega
    | succ k =>
      rw [List.getD_cons_succ, ← ih k, Nat.pow_succ', ← Nat.div_div_eq_div_mul]
      congr 2
      omega

/-- The bytes of a buffer write are the word's low bytes, the lowest first (20_memory.md R81). -/
theorem bytesToNat_reverse_leBytes (n : Nat) (v : Word) :
    bytesToNat (leBytes n v).reverse = v.toNat % 256 ^ n := by
  induction n with
  | zero => simp [leBytes, bytesToNat, Nat.mod_one]
  | succ n ih =>
    have hsnoc : leBytes (n + 1) v = leBytes n v ++ [v.extractLsb' (8 * n) 8] := by
      simp [leBytes, List.range_succ]
    have hbyte : (v.extractLsb' (8 * n) 8).toNat = v.toNat / 256 ^ n % 256 := by
      rw [BitVec.extractLsb'_toNat, Nat.shiftRight_eq_div_pow, Nat.pow_mul]
    have hlen : (leBytes n v).reverse.length = n := by simp [leBytes]
    rw [hsnoc, List.reverse_append, List.reverse_singleton, List.singleton_append, bytesToNat_cons, ih, hlen, hbyte,
      Nat.pow_succ, Nat.mod_mul]
    ring

theorem widthBytes_le (w : Width) : widthBytes w ≤ 4 := by cases w <;> decide

/-- The lanes of a buffer read (20_memory.md R81). -/
theorem bufferLanes_byte (m : Memory) (a : Nat) {n k : Nat} (hn : n ≤ 4) (hk : k < n) :
    (bufferLanes m a n).extractLsb' (8 * k) 8 = memByte m (a + k) := by
  have hbyte := bytesToNat_reverse_div (memBytes m a n) k
  rw [memBytes_getD m a n k hk] at hbyte
  apply BitVec.eq_of_toNat_eq
  rw [← hbyte, bufferLanes, u32, BitVec.extractLsb'_toNat, BitVec.toNat_ofNat, Nat.shiftRight_eq_div_pow]
  have hk4 : k < 4 := by omega
  interval_cases k <;> simp <;> omega

/-- A buffer read of the bytes just written returns the word's low bytes (20_memory.md R81). -/
theorem bufferLanes_writeBytes (m : Memory) (a n : Nat) (v : Word) :
    bufferLanes (memWriteBytes m a (leBytes n v)) a n = lowBits (8 * n) v := by
  have hback := memBytes_writeBytes m a (leBytes n v)
  rw [leBytes_length] at hback
  rw [bufferLanes, hback, bytesToNat_reverse_leBytes, lowBits, Nat.pow_mul]
  rfl

section Access

variable {s : State} {off a : Nat} {w : Width}

/-- A rejected read (20_memory.md R85, 60_exceptions.md R307). -/
theorem hostAccess_read_rejected (h : acceptedTarget s off w false = none) : hostAccess s (.read off w) =
    withIrq { s with readData := 0, glob := { s.glob with status := { s.glob.status with accErr := true } } } := by
  simp only [hostAccess, hostRead, h]; rfl

/-- A rejected write (20_memory.md R85, 60_exceptions.md R307). -/
theorem hostAccess_write_rejected (v : Word) (h : acceptedTarget s off w true = none) :
    hostAccess s (.write off w v) =
      withIrq { s with glob := { s.glob with status := { s.glob.status with accErr := true } } } := by
  simp only [hostAccess, hostWrite, h]; rfl

/-- An accepted buffer read (20_memory.md R81, R87). -/
theorem hostAccess_read_buffer (h : acceptedTarget s off w false = some (.buf a)) : hostAccess s (.read off w) =
    withIrq { s with readData := bufferLanes s.pb a (widthBytes w) } := by
  simp only [hostAccess, hostRead, h]; rfl

/-- An accepted buffer write (20_memory.md R81, R87). -/
theorem hostAccess_write_buffer (v : Word) (h : acceptedTarget s off w true = some (.buf a)) :
    hostAccess s (.write off w v) = withIrq { s with pb := memWriteBytes s.pb a (leBytes (widthBytes w) v) } := by
  simp only [hostAccess, hostWrite, h]; rfl

/-- An accepted read has no side effect (20_memory.md R87). -/
theorem hostAccess_read_accepted {x : Target} (h : acceptedTarget s off w false = some x) :
    hostAccess s (.read off w) = withIrq { s with readData := (hostAccess s (.read off w)).readData } := by
  cases x with
  | reg r => simp only [hostAccess, hostRead, h]; rfl
  | buf a => rw [hostAccess_read_buffer h]; rfl

/-- The target of an accepted access from 0x10000 on (20_memory.md R84). -/
theorem acceptedTarget_high {x : Target} {wr : Bool} (h : acceptedTarget s off w wr = some x) (ho : 0x10000 ≤ off) :
    x = .buf (off - 0x10000) := by
  have ht := targetOf_of_acceptedTarget h
  rw [targetOf, if_pos ho] at ht
  split at ht
  · exact (Option.some.inj ht).symm
  · cases ht

/-- The target of an aligned buffer access made with BUSY = 0 (20_memory.md R81, R83, R85). -/
theorem acceptedTarget_buffer (wr : Bool) (hw : w ≠ .other) (hb : s.glob.status.busy = false)
    (hm : a % widthBytes w = 0) (hl : a + widthBytes w ≤ s.params.pbufSize) :
    acceptedTarget s (0x10000 + a) w wr = some (.buf a) := by
  simp [acceptedTarget, targetOf_buffer hw hm hl, hb]

end Access

/-- Settles O16: the rejected accesses are the ones without a target, and an accepted read returns data only. -/
theorem hostRejection : Obligations.HostRejection := by
  intro s off w v hp
  obtain ⟨⟨-, hn⟩, -⟩ := hp
  have rejected : ∀ wr, rejects s off w wr = true → acceptedTarget s off w wr = none := fun wr h => by
    rwa [← acceptedTarget_isNone off w wr hn, Option.isNone_iff_eq_none] at h
  have accepted : rejects s off w false = false → ∃ x, acceptedTarget s off w false = some x := fun h => by
    rwa [← acceptedTarget_isNone off w false hn, Option.isNone_eq_false_iff, Option.isSome_iff_exists] at h
  refine ⟨fun h => hostAccess_read_rejected (rejected false h), fun h => hostAccess_write_rejected v (rejected true h),
    fun h => ?_, fun h ho k hk => ?_⟩
  · obtain ⟨x, hx⟩ := accepted h
    exact hostAccess_read_accepted hx
  · obtain ⟨x, hx⟩ := accepted h
    obtain rfl := acceptedTarget_high hx ho
    rw [hostAccess_read_buffer hx]
    exact bufferLanes_byte _ _ (widthBytes_le w) hk

/-- Settles O23: the write goes to its bytes, and the read finds them in the same lanes. -/
theorem bufferLanes_access : Obligations.BufferLanes := by
  intro s a w v hw hb hm hl
  refine ⟨_, hostAccess_write_buffer v (acceptedTarget_buffer true hw hb hm hl), rfl, fun k hk => ?_,
    fun b hout => ?_, ?_⟩
  · exact (memByte_writeBytes_in _ _ _ _ (by rwa [leBytes_length])).trans (leBytes_getD _ _ _ hk)
  · exact memByte_writeBytes_out _ _ _ _ (by rwa [leBytes_length])
  · rw [hostAccess_read_buffer (a := a)]
    · exact bufferLanes_writeBytes _ _ _ _
    · exact acceptedTarget_buffer false hw hb hm hl

end Sys2Proof.Machine
end

section
/-! PROOFS. A command and the banks it is not about (20_memory.md R96). -/

namespace Sys2Proof.Machine

open Sys2Proof

/-- The rule of a command does the same whatever a bank it is not about holds. -/
theorem ruleOf_setBank {i : Instr} {c : BitVec 4} (s : State) (b : Ctx) (hc : contextOf i ≠ some c) :
    ruleOf i (s.setBank c b) = withBank c b (ruleOf i s) := by
  cases hi : contextOf i with
  | none => exact ruleOf_setBank_none s c b hi
  | some d => exact ruleOf_setBank_some b hi (by rintro rfl; exact hc hi)

/-- Settles O25: the rule neither reads nor writes the bank, and a completion touches no bank. -/
theorem contextIndependence : Obligations.ContextIndependence := by
  intro i s t c b hc h
  have hrule := ruleOf_setBank s b hc
  obtain ⟨e, he, rfl⟩ | ⟨u, hu, rfl⟩ := exec_next_cases h
  · rw [he, withBank_error] at hrule
    exact ⟨exec_of_error hrule, rfl⟩
  · rw [hu, withBank_ok] at hrule
    exact ⟨exec_of_ok hrule, ruleOf_bank_other hu hc⟩

end Sys2Proof.Machine
end

section
/-! PROOFS. RTP_DECODE and the header registers of a packet (41_rtp_codec.md R150, R153, R156). -/

namespace Sys2Proof.Machine

open Sys2Proof

/-- The header registers written from a parsed packet show it, whatever HDR_FLAGS is (41_rtp_codec.md R153). -/
theorem showsPacket_decodedHdr (s : State) (flags : HdrFlags) :
    ShowsPacket (decodedHdr s (rtpHeaderOf s.pb s.op.srcAddr.toNat) flags) s.pb s.op.srcAddr.toNat
      s.op.srcLen.toNat where
  b01 := rfl
  seq := rfl
  ts := rfl
  ssrc := rfl
  csrc i := by simp [decodedHdr, rtpHeaderOf, rtpHeaderAt, parseCsrc]
  extProfile := rfl
  extLenWords := rfl
  extOff := apply_ite u32 _ _ _
  hdrLen := rfl
  payloadOff := rfl
  payloadLen := rfl

/-- Settles O28: the range, the checks of the header, then the registers of the packet. -/
theorem rtpDecode : Obligations.RtpDecode := by
  intro s base len hbase hlen
  subst hbase hlen
  have hparse := parseRtpHeader_eq s.pb s.op.srcAddr.toNat s.op.srcLen.toNat
  split
  · next h1 => exact exec_of_error (if_pos h1)
  next h1 =>
  split
  · next h2 =>
    rw [if_neg h2] at hparse
    exact exec_of_error (by simp only [ruleOf, ruleRtpDecode, if_neg h1, hparse])
  next h2 =>
  rw [if_pos (not_not.mp h2)] at hparse
  have hrule : ruleOf .rtpDecode s = .ok { s with
      op := decodedOp s (rtpHeaderOf s.pb s.op.srcAddr.toNat)
      hdr := decodedHdr s (rtpHeaderOf s.pb s.op.srcAddr.toNat)
        { HdrFlags.zero with extOneByte := rtpOneByteExt s.pb s.op.srcAddr.toNat } } := by
    simp only [ruleOf, ruleRtpDecode, if_neg h1, hparse, isOneByteExt_rtpHeaderOf]
  exact ⟨_, exec_of_ok hrule, showsPacket_decodedHdr s _, rfl, rfl⟩

end Sys2Proof.Machine
end

section
/-! PROOFS. The three commands that build an RTCP packet (43_rtcp.md R190 to R197). -/

namespace Sys2Proof.Machine

open Sys2Proof

/-- A command that builds a packet at DST_ADDR: its two checks in order, then the packet's bytes there, RES_LEN, the
statistics it leaves, and nothing else (43_rtcp.md R195 to R197). -/
theorem exec_buildAt {i : Instr} {s : State} {len : Nat} {bytes : List Byte} {rx : RxRegs} {P : State → Prop}
    (hr : ruleOf i s = buildAt s len bytes rx) (hl : bytes.length = len)
    (hP : ∀ t : State, t = { s with
        glob := finishedGlob s.glob, pb := t.pb, op := { s.op with resLen := u32 len }, rx := rx } →
      t.pb = memWriteBytes s.pb s.op.dstAddr.toNat bytes → SameBytesOutside s t s.op.dstAddr.toNat len → P t) :
    if ¬ InRange s s.op.dstAddr s.op.dstCap then Raises i s .invalidParam
    else if s.op.dstCap.toNat < len then Raises i s .bufferTooSmall
    else ∃ t, exec i s = .next t ∧ P t := by
  rw [buildAt_eq] at hr
  split
  · next h1 => exact exec_of_error (hr.trans (if_pos h1))
  next h1 =>
  split
  · next h2 => exact exec_of_error (hr.trans ((if_neg h1).trans (if_pos h2)))
  next h2 =>
  obtain ⟨t, hex, rfl⟩ := exec_finishes (hr.trans ((if_neg h1).trans (if_neg h2)))
  exact ⟨_, hex, hP _ rfl rfl fun b hout => memByte_writeBytes_out _ _ _ _ (by rwa [hl])⟩

/-- A word of a list of words written inside a string reads back. -/
theorem memWord_words_part (m : Memory) (a : Nat) {ws : List Word} {bs xs zs : List Byte}
    (h : bs = xs ++ (ws.flatMap wordBytes ++ zs)) (i : Nat) (hi : i < ws.length) {b : Nat}
    (hb : b = a + xs.length + 4 * i) : memWord (memWriteBytes m a bs) b = ws[i] := by
  have hsplit : ws = ws.take i ++ ws[i] :: ws.drop (i + 1) := by simp
  refine memWord_part m a _ _ bs (xs ++ (ws.take i).flatMap wordBytes) ((ws.drop (i + 1)).flatMap wordBytes ++ zs) ?_ ?_
  · rw [h]
    conv_lhs => rw [hsplit, List.flatMap_append, List.flatMap_cons]
    simp only [List.append_assoc]
  · rw [List.length_append, flatMap_wordBytes_length, List.length_take]
    omega

/-- An SR is its common header, six words, and its block if it has one (30_encoding.md R117). -/
theorem srBytes_eq (s : State) : srBytes s = commonHeaderBytes s.rx.state.rxValid.toNat 200 (srLen s / 4 - 1) ++
    ([s.sess.ssrc, s.sess.nowNtpMsw, s.sess.nowNtpLsw, s.sess.nowRtpTs, s.sess.txPkts, s.sess.txOctets].flatMap
      wordBytes ++ reportBlocks s) := by
  simp [srBytes]

/-- An RR is its common header, one word, and its block if it has one (30_encoding.md R118). -/
theorem rrBytes_eq (s : State) : rrBytes s = commonHeaderBytes s.rx.state.rxValid.toNat 201 (rrLen s / 4 - 1) ++
    ([s.sess.ssrc].flatMap wordBytes ++ reportBlocks s) := by
  simp [rrBytes]

/-- A report's block stands after its words (43_rtcp.md R195, R196). -/
theorem showsBlock_report {s : State} (m : Memory) (a : Nat) {ws : List Word} {bs xs : List Byte}
    (h : bs = xs ++ (ws.flatMap wordBytes ++ reportBlocks s)) (hv : s.rx.state.rxValid = true) {b : Nat}
    (hb : b = a + xs.length + 4 * ws.length) : ShowsBlock (memWriteBytes m a bs) b s := by
  refine showsBlock_part s m a b bs (xs ++ ws.flatMap wordBytes) [] ?_ ?_
  · rw [h, reportBlocks, if_pos hv, List.append_nil, List.append_assoc]
  · rw [hb, List.length_append, flatMap_wordBytes_length, Nat.add_assoc]

/-- A command that builds a report, an SR or an RR, of a common header, a list of words and its block if it has one:
after the checks each part stands in its place, and a block starts a new interval (43_rtcp.md R190, R191, R195, R196). -/
theorem exec_report {i : Instr} {s : State} {len rc pt : Nat} {ws : List Word} {bytes : List Byte} {P : State → Prop}
    (hr : ruleOf i s = buildAt s len bytes (rxAfterReport s.rx)) (hl : bytes.length = len)
    (hb : bytes = commonHeaderBytes rc pt (len / 4 - 1) ++ (ws.flatMap wordBytes ++ reportBlocks s))
    (hrc : rc = s.rx.state.rxValid.toNat) (hpt : pt < 256) (hlen : len < 65536)
    (hP : ∀ t : State, t = { s with
        glob := finishedGlob s.glob, pb := t.pb, op := { s.op with resLen := u32 len }, rx := intervalStarted s.rx } →
      ShowsCommon t.pb s.op.dstAddr.toNat rc pt (len / 4 - 1) →
      (∀ k, (hk : k < ws.length) → memWord t.pb (s.op.dstAddr.toNat + 4 + 4 * k) = ws[k]) →
      (rc = 1 → ShowsBlock t.pb (s.op.dstAddr.toNat + 4 + 4 * ws.length) s) →
      SameBytesOutside s t s.op.dstAddr.toNat len → P t) :
    if ¬ InRange s s.op.dstAddr s.op.dstCap then Raises i s .invalidParam
    else if s.op.dstCap.toNat < len then Raises i s .bufferTooSmall
    else ∃ t, exec i s = .next t ∧ P t := by
  rw [rxAfterReport_eq] at hr
  have hrc1 := Bool.toNat_le s.rx.state.rxValid
  refine exec_buildAt hr hl fun t ht hpb hout => hP t ht ?_ (fun k hk => ?_) (fun h1 => ?_) hout
  · rw [hpb]; exact showsCommon_part _ _ _ _ _ _ _ hb (by omega) hpt (by omega)
  · rw [hpb]; exact memWord_words_part _ _ hb k hk rfl
  · rw [hpb]; exact showsBlock_report _ _ hb (Bool.toNat_eq_one.mp (hrc ▸ h1)) rfl

/-- RC as a number (43_rtcp.md R195, R196). -/
theorem toNat_eq_ite (v : Bool) : v.toNat = if v then 1 else 0 := by cases v <;> rfl

/-- Settles O35, as a report with the six words of a sender. -/
theorem rtcpCreateSr : Obligations.RtcpCreateSr := by
  intro s d rc len hd hrc hlen
  obtain rfl : rc = s.rx.state.rxValid.toNat := hrc.trans (toNat_eq_ite _).symm
  obtain rfl : len = srLen s := hlen
  subst hd
  have hlt : srLen s < 65536 := by have := Bool.toNat_le s.rx.state.rxValid; unfold srLen; omega
  exact exec_report rfl (srBytes_length s) (srBytes_eq s) rfl (by decide) hlt fun t ht hcommon hword hblock hout =>
    ⟨ht, hcommon, hword 0 (Nat.le_add_left ..), hword 1 (Nat.le_add_left ..), hword 2 (Nat.le_add_left ..),
      hword 3 (Nat.le_add_left ..), hword 4 (Nat.le_add_left ..), hword 5 (Nat.le_add_left ..), hblock, hout⟩

/-- Settles O36, as a report with one word. -/
theorem rtcpCreateRr : Obligations.RtcpCreateRr := by
  intro s d rc len hd hrc hlen
  obtain rfl : rc = s.rx.state.rxValid.toNat := hrc.trans (toNat_eq_ite _).symm
  obtain rfl : len = rrLen s := hlen
  subst hd
  have hlt : rrLen s < 65536 := by have := Bool.toNat_le s.rx.state.rxValid; unfold rrLen; omega
  exact exec_report rfl (rrBytes_length s) (rrBytes_eq s) rfl (by decide) hlt fun t ht hcommon hword hblock hout =>
    ⟨ht, hcommon, hword 0 (Nat.le_add_left ..), hblock, hout⟩

/-- Settles O37: the common header of a BYE with one source is four fixed bytes, and the source follows. -/
theorem rtcpCreateBye : Obligations.RtcpCreateBye := by
  intro s d hd
  subst hd
  refine exec_buildAt rfl (byeBytes_length s) fun t ht hpb hout => ⟨ht, ?_, ?_, hout⟩
  · rw [hpb]; exact memBytes_part _ _ _ _ _ [] (commonHeaderBytes 1 203 1) _ rfl rfl rfl
  · rw [hpb]; exact memWord_part _ _ _ _ _ (commonHeaderBytes 1 203 1) [] (List.append_nil _).symm rfl

end Sys2Proof.Machine
end

section
/-! PROOFS. RTCP_PARSE: its checks and its frame (43_rtcp.md R200 to R204). -/

namespace Sys2Proof.Machine

open Sys2Proof

/-- A body that does not fit is an invalid packet (43_rtcp.md R201, R203). -/
theorem parseBody_misfit {s : State} {base : Nat} (h : ¬ RtcpBodyFits s.pb base) :
    parseBody s base (rtcpCommonOf s.pb base) = .error .invalidPacket := by
  unfold parseBody
  split
  · next hpt =>
    replace hpt : rtcpPt s.pb base = 200 := hpt
    exact if_pos (Nat.not_le.mp fun hle => h ⟨fun _ => hle, by simp [hpt], by simp [hpt]⟩)
  split
  · next hpt =>
    replace hpt : rtcpPt s.pb base = 201 := hpt
    exact if_pos (Nat.not_le.mp fun hle => h ⟨by simp [hpt], fun _ => hle, by simp [hpt]⟩)
  split
  · next hpt =>
    replace hpt : rtcpPt s.pb base = 203 := hpt
    exact if_pos (Nat.not_le.mp fun hle => h ⟨by simp [hpt], by simp [hpt], fun _ => hle⟩)
  · next hsr hrr hbye =>
    exact absurd ⟨fun hpt => absurd hpt hsr, fun hpt => absurd hpt hrr, fun hpt => absurd hpt hbye⟩ h

/-- A body that fits is read, and RTCP_HDR is the packet's first word (43_rtcp.md R204). -/
theorem parseBody_fits {s : State} {base : Nat} (h : RtcpBodyFits s.pb base) :
    ∃ pr, parseBody s base (rtcpCommonOf s.pb base) = .ok pr ∧ pr.1.hdr = memWord s.pb base := by
  obtain ⟨hsr, hrr, hbye⟩ := h
  unfold parseBody
  split
  · next h200 => exact ⟨_, if_neg (Nat.not_lt.mpr (hsr h200)), rfl⟩
  split
  · next h201 => exact ⟨_, if_neg (Nat.not_lt.mpr (hrr h201)), rfl⟩
  split
  · next h203 => exact ⟨_, if_neg (Nat.not_lt.mpr (hbye h203)), rfl⟩
  split <;> exact ⟨_, rfl, rfl⟩

/-- Settles O39: the range, the common header, the body, and then the parse registers and the statistics only. -/
theorem rtcpParse : Obligations.RtcpParse := by
  intro s base hbase
  subst hbase
  have hparse := parseCommonHeader_eq s.pb s.op.srcAddr.toNat s.op.srcLen.toNat
  split
  · next h1 => exact exec_of_error (if_pos h1)
  next h1 =>
  split
  · next h2 =>
    rw [if_neg h2] at hparse
    exact exec_of_error (by simp only [ruleOf, ruleRtcpParse, if_neg h1, hparse])
  next h2 =>
  rw [if_pos (not_not.mp h2)] at hparse
  split
  · next h3 => exact exec_of_error (by simp only [ruleOf, ruleRtcpParse, if_neg h1, hparse, parseBody_misfit h3])
  next h3 =>
  obtain ⟨pr, hbody, hhdr⟩ := parseBody_fits (not_not.mp h3)
  have hrule : ruleOf .rtcpParse s = .ok { s with
      rtcp := pr.1, rx := pr.2, op := { s.op with resLen := u32 (rtcpPlen s.pb s.op.srcAddr.toNat) } } := by
    simp only [ruleOf, ruleRtcpParse, if_neg h1, hparse, hbody]; rfl
  exact ⟨_, exec_of_ok hrule, hhdr, rfl⟩

end Sys2Proof.Machine
end

section
/-! PROOFS. The fields of a command word, the mask of an opcode, which words decode, and which are legal
(30_encoding.md R100 to R106). -/

namespace Sys2Proof.Machine

open Sys2Proof

/-- A word's fields determine it: they cover all its bits (30_encoding.md R100). -/
theorem ofWord_injective : Function.Injective CmdFields.ofWord := by
  intro w v h
  simp only [CmdFields.ofWord, CmdFields.mk.injEq, BitVec.eq_of_getLsbD_eq_iff, BitVec.getLsbD_extractLsb'] at h
  obtain ⟨hopc, hctx, hlo, hf0, hf1, hhi⟩ := h
  apply BitVec.eq_of_getLsbD_eq
  intro k hk
  have hctx := hctx (k - 8)
  have hlo := hlo (k - 12)
  have hhi := hhi (k - 18)
  grind

theorem ofWord_and (w v : Word) : CmdFields.ofWord (w &&& v) =
    ⟨(CmdFields.ofWord w).opc &&& (CmdFields.ofWord v).opc, (CmdFields.ofWord w).ctx &&& (CmdFields.ofWord v).ctx,
      (CmdFields.ofWord w).resLo &&& (CmdFields.ofWord v).resLo, (CmdFields.ofWord w).f0 && (CmdFields.ofWord v).f0,
      (CmdFields.ofWord w).f1 && (CmdFields.ofWord v).f1,
      (CmdFields.ofWord w).resHi &&& (CmdFields.ofWord v).resHi⟩ := by
  simp [CmdFields.ofWord, BitVec.extractLsb'_and]

/-- A laid-out word has the fields it was laid out from, and reserved bits 0 (30_encoding.md R100). -/
theorem ofWord_layWord (opc : BitVec 8) (c : BitVec 4) (f0 f1 : Bool) :
    CmdFields.ofWord (layWord opc c f0 f1) = ⟨opc, c, 0, f0, f1, 0⟩ := by
  simp only [CmdFields.ofWord, layWord, CmdFields.mk.injEq, BitVec.extractLsb'_or]
  refine ⟨?_, ?_, ?_, ?_, ?_, ?_⟩
  case refine_4 | refine_5 => simp
  all_goals ext k hk; simp; grind

/-- R104's mask covers OPC, the reserved bits, and each field the row leaves unused. -/
theorem ofWord_mask (r : OpcodeRow) : CmdFields.ofWord r.mask =
    ⟨BitVec.allOnes 8, if r.ctx then 0 else BitVec.allOnes 4, BitVec.allOnes 4, !r.f0, !r.f1, BitVec.allOnes 14⟩ := by
  have key : ∀ ctx f0 f1 : Bool, CmdFields.ofWord (OpcodeRow.mask ⟨0, ctx, f0, f1, fun _ _ _ => .nop⟩) =
      ⟨BitVec.allOnes 8, if ctx then 0 else BitVec.allOnes 4, BitVec.allOnes 4, !f0, !f1, BitVec.allOnes 14⟩ := by
    decide
  exact key r.ctx r.f0 r.f1

/-- A word matches a row under its mask exactly when its opcode is the row's, its reserved bits are 0, and every field the
row leaves unused is 0 (30_encoding.md R104). -/
theorem mask_match_iff (w : Word) (r : OpcodeRow) : w &&& r.mask = r.opc.setWidth 32 ↔
    (CmdFields.ofWord w).opc = r.opc ∧ (CmdFields.ofWord w).reservedZero = true ∧
      (r.ctx || (CmdFields.ofWord w).ctx == 0) = true ∧ (r.f0 || !(CmdFields.ofWord w).f0) = true ∧
      (r.f1 || !(CmdFields.ofWord w).f1) = true := by
  have hopc : r.opc.setWidth 32 = layWord r.opc 0 false false := by simp [layWord]
  have hunused (x : BitVec 4) : x &&& (if r.ctx then 0 else BitVec.allOnes 4) = 0 ↔ (r.ctx || x == 0) = true := by
    cases r.ctx
    · simp only [Bool.false_eq_true, if_false, BitVec.and_allOnes, Bool.false_or, beq_iff_eq]
    · simp
  rw [← ofWord_injective.eq_iff, hopc, ofWord_and, ofWord_mask, ofWord_layWord, CmdFields.mk.injEq, hunused]
  simp only [BitVec.and_allOnes, CmdFields.reservedZero]
  grind

/-- A word that matches a row is laid out from the row's opcode and the operands the row uses. -/
theorem layWord_of_mask_match {w : Word} {r : OpcodeRow} (h : w &&& r.mask = r.opc.setWidth 32) :
    layWord r.opc (if r.ctx then (CmdFields.ofWord w).ctx else 0) (r.f0 && (CmdFields.ofWord w).f0)
      (r.f1 && (CmdFields.ofWord w).f1) = w := by
  obtain ⟨hopc, hres, hctx, hf0, hf1⟩ := (mask_match_iff w r).mp h
  apply ofWord_injective
  rw [ofWord_layWord]
  generalize CmdFields.ofWord w = f at *
  obtain ⟨opc, ctx, resLo, f0, f1, resHi⟩ := f
  simp only [CmdFields.reservedZero, CmdFields.mk.injEq] at *
  grind

theorem opcodeRow_some {o : BitVec 8} {r : OpcodeRow} (h : opcodeRow o = some r) : r ∈ opcodeRows ∧ r.opc = o :=
  ⟨List.mem_of_find?_eq_some h, by simpa using List.find?_some h⟩

/-- A word decodes to a command exactly when its opcode has a row, it matches that row, and the row builds the command
from its operands (30_encoding.md R102, R104). -/
theorem decode_ok_iff (w : Word) (i : Instr) : decode w = .ok i ↔
    ∃ r, opcodeRow (CmdFields.ofWord w).opc = some r ∧ w &&& r.mask = r.opc.setWidth 32 ∧
      r.build (CmdFields.ofWord w).ctx (CmdFields.ofWord w).f0 (CmdFields.ofWord w).f1 = i := by
  simp only [decode, CmdFields.ofWord]
  cases opcodeRow (w.extractLsb' 0 8) with
  | none => simp
  | some r => by_cases h : w &&& r.mask = r.opc.setWidth 32 <;> simp [h]

/-- The word of a row's command is laid out from the operands the row uses (30_encoding.md R103). -/
theorem encode_build {r : OpcodeRow} (hr : r ∈ opcodeRows) (c : BitVec 4) (f0 f1 : Bool) :
    encode (r.build c f0 f1) = layWord r.opc (if r.ctx then c else 0) (r.f0 && f0) (r.f1 && f1) := by
  simp only [opcodeRows, codecRows, sessionRows, rtcpRows, contextRows, srtpRows, List.cons_append,
    List.nil_append] at hr
  fin_cases hr <;> rfl

theorem encode_of_decode {w : Word} {i : Instr} (h : decode w = .ok i) : encode i = w := by
  obtain ⟨r, hr, hm, rfl⟩ := (decode_ok_iff w i).mp h
  rw [encode_build (opcodeRow_some hr).1, layWord_of_mask_match hm]

/-- A command's word decodes to it: by the command, and for each at every value of its operands, at most 32 of them. -/
theorem decode_encode (i : Instr) : decode (encode i) = .ok i := by
  cases i
  case sessInit f0 f1 => revert f0 f1; decide
  case sessCreatePacket f0 => revert f0; decide
  case kdf c f0 | srtpRxCommit c f0 | srtcpRxCommit c f0 => revert c f0; decide
  case ctxInit c | ctxUpdateKey c | ctxTeardown c | srtpTx c | srtpRxCheck c | srtcpTx c | srtcpRxCheck c =>
    revert c; decide
  all_goals rfl

/-- Settles O1: a command's word decodes to it, and a word that decodes is the one laid out from its row's opcode and the
operands the row uses. -/
theorem decodeEncodeAgree : Obligations.DecodeEncodeAgree := ⟨decode_encode, fun _ _ => encode_of_decode⟩

/-- Clause 1 of R104 says that the opcode has a row. -/
theorem opcodeInMap_iff (f : CmdFields) : f.opcodeInMap = true ↔ ∃ r, opcodeRow f.opc = some r := by
  have hmap : f.opcodeInMap = decide (f.opc ∈ opcodeRows.map (·.opc)) := rfl
  rw [hmap, decide_eq_true_iff, List.mem_map, ← Option.isSome_iff_exists, opcodeRow, List.find?_isSome]
  simp

/-- The fields a row uses are those R103 lists for its opcode. -/
theorem row_uses {r : OpcodeRow} (hr : r ∈ opcodeRows) {f : CmdFields} (ho : f.opc = r.opc) :
    f.usesCtx = r.ctx ∧ f.usesF0 = r.f0 ∧ f.usesF1 = r.f1 := by
  have key : ∀ r ∈ opcodeRows, CmdFields.usesCtx ⟨r.opc, 0, 0, false, false, 0⟩ = r.ctx ∧
      CmdFields.usesF0 ⟨r.opc, 0, 0, false, false, 0⟩ = r.f0 ∧
      CmdFields.usesF1 ⟨r.opc, 0, 0, false, false, 0⟩ = r.f1 := by decide
  have h := key r hr
  rw [← ho] at h
  exact h

/-- R104's three clauses say that the opcode has a row and that the word matches it under the row's mask. -/
theorem wellFormed_iff (w : Word) : (CmdFields.ofWord w).wellFormed = true ↔
    ∃ r, opcodeRow (CmdFields.ofWord w).opc = some r ∧ w &&& r.mask = r.opc.setWidth 32 := by
  rw [CmdFields.wellFormed, Bool.and_assoc, Bool.and_eq_true, opcodeInMap_iff, ← exists_and_right]
  refine exists_congr fun r => and_congr_right fun hr => ?_
  obtain ⟨hmem, ho⟩ := opcodeRow_some hr
  obtain ⟨hctx, hf0, hf1⟩ := row_uses hmem ho.symm
  simp only [mask_match_iff, CmdFields.unusedZero, hctx, hf0, hf1, ← ho, true_and, Bool.and_eq_true, and_assoc]

theorem decodes_iff_wellFormed (w : Word) : (∃ i, decode w = .ok i) ↔ (CmdFields.ofWord w).wellFormed = true := by
  simp only [decode_ok_iff, wellFormed_iff]
  exact ⟨fun ⟨_, r, hr, hm, _⟩ => ⟨r, hr, hm⟩, fun ⟨r, hr, hm⟩ => ⟨_, r, hr, hm, rfl⟩⟩

/-- Settles O2: decoding is R104's test, and a word it rejects ends in IllegalCommand. -/
theorem legalWords : Obligations.LegalWords := by
  refine ⟨decodes_iff_wellFormed, fun s hs => ?_⟩
  cases hd : decode s.glob.pending with
  | ok i => exact absurd ((decodes_iff_wellFormed _).mp ⟨i, hd⟩) (by simp [hs])
  | error e => simp only [engineStep, hd, runRule_error]

/-- Settles O3, by decoding each word. -/
theorem specWordsDecode : Obligations.SpecWordsDecode := by
  unfold Obligations.SpecWordsDecode
  decide

end Sys2Proof.Machine
end

section
/-! PROOFS. The first checks of every context command (60_exceptions.md R305). -/

namespace Sys2Proof.Machine

open Sys2Proof

/-- A context command but CTX_INIT and CTX_TEARDOWN makes the checks of its bank, of the context's validity and of its
direction before any other (60_exceptions.md R305). -/
theorem ruleOf_ctxError {i : Instr} {s : State} {c : BitVec 4} {e : CmdError} (hc : contextOf i = some c)
    (hinit : i ≠ .ctxInit c) (hdown : i ≠ .ctxTeardown c) (he : ctxError s c (directionOf i) = some e) :
    ruleOf i s = .error e := by
  cases i <;> cases hc
  case ctxInit => exact absurd rfl hinit
  case ctxTeardown => exact absurd rfl hdown
  all_goals simp only [directionOf] at he
  case ctxUpdateKey | kdf => simp only [ruleOf, ruleCtxUpdateKey, ruleKdf, he]
  case srtpTx | srtpRxCheck | srtpRxCommit => simp only [ruleOf, ruleSrtpTx, ruleSrtpRxCheck, ruleSrtpRxCommit, he]
  case srtcpTx | srtcpRxCheck | srtcpRxCommit =>
    simp only [ruleOf, ruleSrtcpTx, ruleSrtcpRxCheck, ruleSrtcpRxCommit, he]

/-- Every context command checks first that its bank exists (60_exceptions.md R305, step 2). -/
theorem raises_of_noBank {i : Instr} {s : State} {c : BitVec 4} (hc : contextOf i = some c)
    (h : s.params.nCtx ≤ c.toNat) : Raises i s .invalidParam := by
  by_cases hinit : i = .ctxInit c
  · subst hinit; exact exec_of_error (if_pos h)
  by_cases hdown : i = .ctxTeardown c
  · subst hdown; exact exec_of_error (if_pos h)
  exact exec_of_error (ruleOf_ctxError hc hinit hdown (ctxError_bank h))

/-- Settles O9, by the check that fails. -/
theorem contextCheckOrder : Obligations.ContextCheckOrder := by
  intro s i c hc
  refine ⟨raises_of_noBank hc, fun hb hv hinit hdown => ?_, fun hb hv hinit => ?_, fun hb hv d hd hdir => ?_⟩
  · exact exec_of_error (ruleOf_ctxError hc hinit hdown (ctxError_invalid hb hv))
  · subst hinit
    exact exec_of_error ((if_neg (Nat.not_le.mpr hb)).trans (if_pos hv))
  · refine exec_of_error (ruleOf_ctxError hc ?_ ?_ (hd ▸ ctxError_direction hb hv hdir))
    · rintro rfl; cases hd
    · rintro rfl; cases hd

end Sys2Proof.Machine
end

section
/-! PROOFS. RTCP_PARSE of an SR (43_rtcp.md R201, R202). -/

namespace Sys2Proof.Machine

open Sys2Proof

/-- ProcessBlocks takes the first block about this session, or none (43_rtcp.md R202). -/
theorem processBlocks_processed (s : State) (p count : Nat) (rx : RxRegs) :
    BlocksProcessed s p count rx (processBlocks s.pb s.sess.ssrc (sessionNow s) p count rx).1
      (processBlocks s.pb s.sess.ssrc (sessionNow s) p count rx).2 := by
  unfold processBlocks
  obtain ⟨i, hi, hfirst, hfind⟩ | ⟨hnone, hfind⟩ := findBlock_cases s.pb s.sess.ssrc count p
  · rw [hfind]; exact .inl ⟨i, hi, hfirst, rfl, applyBlock_taken _ _ _ _⟩
  · rw [hfind]; exact .inr ⟨hnone, rfl, rfl⟩

theorem recordSr_eq (rx : RxRegs) (msw lsw now : Word) : recordSr rx msw lsw now = withSr rx msw lsw now := by
  unfold recordSr withSr; rw [ntpShort_eq]

/-- The rule of RTCP_PARSE on a packet that passes its first checks is the reading of its body (43_rtcp.md R204). -/
theorem ruleRtcpParse_ok {s : State} (hr : InRange s s.op.srcAddr s.op.srcLen)
    (hfits : RtcpFits s.pb s.op.srcAddr.toNat s.op.srcLen.toNat) {pr : RtcpRegs × RxRegs}
    (hbody : parseBody s s.op.srcAddr.toNat (rtcpCommonOf s.pb s.op.srcAddr.toNat) = .ok pr) :
    ruleOf .rtcpParse s = .ok { s with
      rtcp := pr.1, rx := pr.2, op := { s.op with resLen := u32 (rtcpPlen s.pb s.op.srcAddr.toNat) } } := by
  have hparse := parseCommonHeader_eq s.pb s.op.srcAddr.toNat s.op.srcLen.toNat
  rw [if_pos hfits] at hparse
  simp only [ruleOf, ruleRtcpParse, if_neg (not_not.mpr hr), hparse, hbody]
  rfl

/-- Settles O40: the body is read as an SR, whose time is recorded before its blocks are processed. -/
theorem rtcpParseSenderReport : Obligations.RtcpParseSenderReport := by
  intro s base count msw lsw hbase hcount hmsw hlsw hr hfits hbodyFits hpt
  subst hbase hcount hmsw hlsw
  have hbody : parseBody s s.op.srcAddr.toNat (rtcpCommonOf s.pb s.op.srcAddr.toNat) = .ok _ :=
    (if_pos hpt).trans (if_neg (Nat.not_lt.mpr (hbodyFits.1 hpt)))
  refine ⟨_, exec_of_ok (ruleRtcpParse_ok hr hfits hbody), rfl, ?_⟩
  rw [recordSr_eq, nowShort_eq]
  exact processBlocks_processed s _ _ _

end Sys2Proof.Machine
end

section
/-! PROOFS. SRTCP_TX: its checks, and the buffer and the registers it leaves (45_srtp_index_replay.md R255 to R258, R264,
R265). -/

namespace Sys2Proof.Machine

open Sys2Proof

/-- The rule of SRTCP_TX on a ready send context, in the terms of the wire format (45_srtp_index_replay.md R265). -/
theorem ruleSrtcpTx_ready {s : State} {c : BitVec 4} (h : CtxReady s c false) : ruleOf (.srtcpTx c) s =
    if ¬ (InRange s s.op.srcAddr s.op.dstCap ∧ s.op.srcLen.toNat ≤ s.op.dstCap.toNat) then .error .invalidParam
    else if s.op.srcLen.toNat < 8 ∨ rtcpVersion s.pb s.op.srcAddr.toNat ≠ 2 ∨
      s.op.srcLen.toNat < rtcpPlen s.pb s.op.srcAddr.toNat then .error .invalidPacket
    else if memWord s.pb (s.op.srcAddr.toNat + 4) ≠ (s.bank c).ssrc then .error .invalidParam
    else if s.op.dstCap.toNat < s.op.srcLen.toNat + 4 + (ctxLens s (s.bank c)).tagLenRtcp + mkiLen (s.bank c) then
      .error .bufferTooSmall
    else if 2 ^ 31 - 1 < (s.bank c).rtcpTxIndex.toNat then .error .keyExpired
    else .ok (srtcpTxDone c s) := by
  have hrange : (¬ InRange s s.op.srcAddr s.op.dstCap ∨ s.op.srcLen.toNat > s.op.dstCap.toNat) ↔
      ¬ (InRange s s.op.srcAddr s.op.dstCap ∧ s.op.srcLen.toNat ≤ s.op.dstCap.toNat) := by
    omega
  have hheader : (!rtcpHeaderFits s.pb s.op.srcAddr.toNat s.op.srcLen.toNat) = true ↔
      rtcpVersion s.pb s.op.srcAddr.toNat ≠ 2 ∨ s.op.srcLen.toNat < rtcpPlen s.pb s.op.srcAddr.toNat := by
    rw [Bool.not_eq_true', ← Bool.not_eq_true, rtcpHeaderFits_iff, not_and_or, Nat.not_le]
  simp only [ruleOf, ruleSrtcpTx, ctxError_ready h, hrange, hheader, ite_or]
  rfl

/-- The MKI reads back where it was placed, and every other byte is kept; with MKI_EN = 0 every byte is kept
(45_srtp_index_replay.md R258). -/
theorem placeMki_spec (m : Memory) (b : Ctx) (a : Nat) :
    (b.cfg.mkiEn = true → memWord (placeMki m b a) a = b.mki) ∧
      ∀ k, (b.cfg.mkiEn = true → k < a ∨ a + 4 ≤ k) → memByte (placeMki m b a) k = memByte m k := by
  unfold placeMki
  cases b.cfg.mkiEn with
  | false => exact ⟨fun h => absurd h (by decide), fun _ _ => rfl⟩
  | true =>
    exact ⟨fun _ => memWord_part m a a b.mki _ [] [] (by simp) rfl,
      fun k hk => memByte_writeBytes_out _ _ _ _ (by simpa using hk rfl)⟩

/-- The buffer after SRTCP_TX: E and the index behind the packet, the MKI where the trailer order puts it, and no other
byte written (45_srtp_index_replay.md R255, R258, R264). -/
theorem srtcpTxBuffer_spec {s : State} {b : Ctx} {base len a : Nat} {idx : BitVec 31}
    (ha : a = base + len + 4 + if s.params.mkiBeforeTag then 0 else (ctxLens s b).tagLenRtcp) :
    memRead (srtcpTxBuffer s b base len idx) (base + len) 4 = (if b.cfg.rtcpEnc then 2 ^ 31 else 0) + idx.toNat ∧
      (b.cfg.mkiEn = true → memWord (srtcpTxBuffer s b base len idx) a = b.mki) ∧
      ∀ k, k < base + len ∨ base + len + 4 ≤ k → (b.cfg.mkiEn = true → k < a ∨ a + 4 ≤ k) →
        memByte (srtcpTxBuffer s b base len idx) k = memByte s.pb k := by
  have hmki : base + (trailer s.params (len + 4) (ctxLens s b).tagLenRtcp (mkiLen b)).mkiOff = a := by
    rw [trailer_mkiOff, ha]; omega
  unfold srtcpTxBuffer
  rw [hmki]
  obtain ⟨hread, hkeep⟩ := placeMki_spec
    (memWriteBytes s.pb (base + len) (wordBytes (srtcpIndexWord b.cfg.rtcpEnc idx))) b a
  refine ⟨?_, hread, fun k hidx hk => ?_⟩
  · rw [memRead_congr _ _ _ _ fun k _ => hkeep (base + len + k) fun _ => .inl (by omega), ← srtcpIndexWord_toNat]
    exact memRead_part _ _ _ _ _ _ [] [] (by simp [wordBytes]) rfl (BitVec.isLt _)
  · rw [hkeep k hk, memByte_writeBytes_out _ _ _ _ (by simpa using hidx)]

/-- Settles O58: the checks in order; then an index below 2^31 is the one reported, and the buffer is as the trailer's
layout says. -/
theorem srtcpTx : Obligations.SrtcpTx := by
  intro s c b base len tlen m idx hready hb hbase hlen htlen hm hidx
  obtain rfl : m = mkiLen b := hm
  subst hb hbase hlen htlen hidx
  have hrule := ruleSrtcpTx_ready hready
  split
  · next h1 => exact exec_of_error (hrule.trans (if_pos h1))
  next h1 =>
  rw [if_neg h1] at hrule
  split
  · next h2 => exact exec_of_error (hrule.trans (if_pos h2))
  next h2 =>
  rw [if_neg h2] at hrule
  split
  · next h3 => exact exec_of_error (hrule.trans (if_pos h3))
  next h3 =>
  rw [if_neg h3] at hrule
  split
  · next h4 => exact exec_of_error (hrule.trans (if_pos h4))
  next h4 =>
  rw [if_neg h4] at hrule
  split
  · next h5 => exact exec_of_error (hrule.trans (if_pos h5))
  next h5 =>
  rw [if_neg h5] at hrule
  have hidx : ((s.bank c).rtcpTxIndex.setWidth 31).toNat = (s.bank c).rtcpTxIndex.toNat := by
    rw [BitVec.toNat_setWidth, Nat.mod_eq_of_lt (by omega)]
  have hbuf := srtcpTxBuffer_spec (s := s) (b := s.bank c) (base := s.op.srcAddr.toNat) (len := s.op.srcLen.toNat)
    (idx := (s.bank c).rtcpTxIndex.setWidth 31) rfl
  rw [hidx] at hbuf
  refine ⟨_, exec_of_ok hrule, ?_, hbuf⟩
  simp only [srtcpTxDone, srtcpReport_eq, hidx]
  rfl

end Sys2Proof.Machine
end

section
/-! PROOFS. A host write to CMD, and NOP (40_control.md R140, R141; 60_exceptions.md R302, R306, R311). -/

namespace Sys2Proof.Machine

open Sys2Proof

/-- The interface is open for a CMD write whatever BUSY is, so the write always reaches the register (40_control.md
R140, 60_exceptions.md R306). -/
theorem hostAccess_write_cmd (s : State) (w : Word) :
    hostAccess s (.write 0x008 .word w) = withIrq (writeCmd s w) :=
  hostAccess_write w (targetOf_low (r := .cmd) (by decide) (by decide) (by decide)) (.inr rfl)

/-- Settles O15: the write reaches CMD, and BUSY decides what it does there. -/
theorem hostCmdWrite : Obligations.HostCmdWrite := by
  intro s w
  rw [hostAccess_write_cmd]
  constructor
  · intro hidle
    exact congrArg withIrq (if_neg (Bool.eq_false_iff.mp hidle))
  · intro hbusy
    exact congrArg withIrq (if_pos hbusy)

/-- Finishing, field by field: with no error ERRCODE and ERR are 0, and of INT_STATUS only DONE is set (60_exceptions.md
R302, R311). -/
theorem finishedGlob_eq (g : GlobalRegs) : finishedGlob g =
    { g with
      status := { g.status with busy := false, done := true, err := false, errcode := 0 }
      intStatus := { g.intStatus with done := true }
      cmdCount := g.cmdCount + 1
      irq := irqLine g.intEn { g.intStatus with done := true } } := rfl

/-- Settles O26: the rule of NOP writes nothing, so the step only finishes. -/
theorem nopCompletes : Obligations.NopCompletes := by
  intro s
  have hrule : ruleOf .nop s = .ok s := rfl
  rw [exec_of_ok hrule, finishedGlob_eq]

end Sys2Proof.Machine
end

section
/-! PROOFS. RTP_DECODE reads only its source range and has three ways to end (41_rtp_codec.md R150, R155). -/

namespace Sys2Proof.Machine

open Sys2Proof

/-- Every buffer byte of the `n` bytes at `a` reads the same in both buffers. -/
def SameBytesIn (m m' : Memory) (a n : Nat) : Prop := ∀ b, a ≤ b → b < a + n → memByte m' b = memByte m b

section SourceRange

variable {m m' : Memory} {base len : Nat} (h : SameBytesIn m m' base len)
include h

theorem memRead_eq_of_sameBytesIn {a n : Nat} (ha : base ≤ a) (hn : a + n ≤ base + len) :
    memRead m' a n = memRead m a n :=
  memRead_congr m m' a n fun k hk => h (a + k) (by omega) (by omega)

theorem memWord_eq_of_sameBytesIn {a : Nat} (ha : base ≤ a) (hn : a + 4 ≤ base + len) :
    memWord m' a = memWord m a :=
  memWord_congr m m' a fun k hk => h (a + k) (by omega) (by omega)

/-- The CSRC list is read from the fixed header and the CSRC words alone (30_encoding.md R110). -/
theorem parseCsrc_eq_of_sameBytesIn {cc : Nat} (hcc : 12 + 4 * cc ≤ len) :
    parseCsrc m' base cc = parseCsrc m base cc := by
  refine congrArg Vector.ofFn (funext fun i => ?_)
  split
  · next hi => exact memWord_eq_of_sameBytesIn h (by omega) (by omega)
  · rfl

theorem rtpHeaderAt_eq_of_sameBytesIn {cc : Nat} (hcc : 12 + 4 * cc ≤ len) (x : Bool) (prof words : BitVec 16)
    (extOff hdrLen : Nat) :
    rtpHeaderAt m' base cc x prof words extOff hdrLen = rtpHeaderAt m base cc x prof words extOff hdrLen := by
  simp only [rtpHeaderAt, parseCsrc_eq_of_sameBytesIn h hcc,
    memRead_eq_of_sameBytesIn h (a := base) (n := 2) (by omega) (by omega),
    memRead_eq_of_sameBytesIn h (a := base + 2) (n := 2) (by omega) (by omega),
    memWord_eq_of_sameBytesIn h (a := base + 4) (by omega) (by omega),
    memWord_eq_of_sameBytesIn h (a := base + 8) (by omega) (by omega)]

/-- ParseRtpHeader reads a byte only after the check that it lies inside the packet (R150). -/
theorem parseRtpHeader_eq_of_sameBytesIn : parseRtpHeader m' base len = parseRtpHeader m base len := by
  by_cases h12 : len < 12
  · simp only [parseRtpHeader, if_pos h12]
  have hb0 : memByte m' base = memByte m base := h base (by omega) (by omega)
  simp only [parseRtpHeader, hb0]
  generalize ((memByte m base).extractLsb' 0 4).toNat = cc
  by_cases hoff : len < 12 + 4 * cc
  · simp only [if_pos hoff]
  have hat := rtpHeaderAt_eq_of_sameBytesIn h (Nat.le_of_not_lt hoff)
  by_cases hext : len < 12 + 4 * cc + 4
  · simp only [if_pos hext, hat]
  have hprof := memRead_eq_of_sameBytesIn h (a := base + (12 + 4 * cc)) (n := 2) (by omega) (by omega)
  have hwords := memRead_eq_of_sameBytesIn h (a := base + (12 + 4 * cc) + 2) (n := 2) (by omega) (by omega)
  simp only [hprof, hwords, hat]

end SourceRange

/-- ParseRtpHeader raises nothing but InvalidPacket (R150). -/
theorem parseRtpHeader_error {m : Memory} {base len : Nat} {e : CmdError}
    (h : parseRtpHeader m base len = .error e) : e = .invalidPacket := by
  rw [parseRtpHeader_eq] at h
  split at h
  · cases h
  · cases h; rfl

/-- The two errors of RTP_DECODE (R153, R155). -/
theorem ruleRtpDecode_error {s : State} {e : CmdError} (h : ruleOf .rtpDecode s = .error e) :
    e = .invalidParam ∨ e = .invalidPacket := by
  simp only [ruleOf, ruleRtpDecode] at h
  split at h
  · cases h; exact .inl rfl
  split at h
  · next hp => cases h; exact .inr (parseRtpHeader_error hp)
  · cases h

/-- Another buffer with the same bytes in the source range: the rule answers the same, with that buffer. -/
theorem ruleRtpDecode_eq_of_sameBytesIn {s : State} {m : Memory}
    (h : SameBytesIn s.pb m s.op.srcAddr.toNat s.op.srcLen.toNat) :
    ruleOf .rtpDecode { s with pb := m } = (ruleOf .rtpDecode s).map fun u => { u with pb := m } := by
  simp only [ruleOf, ruleRtpDecode, parseRtpHeader_eq_of_sameBytesIn h]
  split
  · rfl
  · cases parseRtpHeader s.pb s.op.srcAddr.toNat s.op.srcLen.toNat <;> rfl

/-- Settles O29: the rule answers a state or one of two errors, and the same for every buffer that agrees on the source
range. -/
theorem rtpDecodeTotalAndLocal : Obligations.RtpDecodeTotalAndLocal := by
  intro s
  cases hr : ruleOf .rtpDecode s with
  | error e =>
    refine ⟨_, exec_of_error hr, .inr ?_, fun m hm => ?_⟩
    · obtain rfl | rfl := ruleRtpDecode_error hr
      · exact .inl rfl
      · exact .inr rfl
    · exact exec_of_error (by rw [ruleRtpDecode_eq_of_sameBytesIn hm, hr]; rfl)
  | ok u =>
    refine ⟨_, exec_of_ok hr, .inl rfl, fun m hm => ?_⟩
    exact exec_of_ok (u := { u with pb := m }) (by rw [ruleRtpDecode_eq_of_sameBytesIn hm, hr]; rfl)

end Sys2Proof.Machine
end

section
/-! PROOFS. SESS_PROCESS_RECEIVED: its checks, the registers it shows the packet in, and the receive statistics it
leaves alone (42_rtp_session.md R175, R176). -/

namespace Sys2Proof.Machine

open Sys2Proof

/-- UpdateRxStats leaves the last-SR, RTT and remote-report registers, and RX_VALID is 1 after it
(42_rtp_session.md R176). -/
theorem updateRxStats_frame {rx u : RxRegs} {ssrc ts arrival : Word} {seq : BitVec 16}
    (hu : (updateRxStats rx ssrc seq ts arrival).1 = u) :
    u = { u with
      lsr := rx.lsr, lsrArrival := rx.lsrArrival, rtt := rx.rtt, remoteLoss := rx.remoteLoss
      remoteExtMax := rx.remoteExtMax, remoteJitter := rx.remoteJitter
      state := { rx.state with rxValid := true } } := by
  subst hu
  by_cases hv : rx.state.rxValid = false
  · rw [updateRxStats_first _ _ hv]; rfl
  have hstate : rx.state = { rx.state with rxValid := true } := by rw [← Bool.eq_true_of_not_eq_false hv]
  by_cases hs : ssrc ≠ rx.ssrc
  · rw [updateRxStats_foreign _ _ hv hs, ← hstate]
  by_cases hd : seq - rx.maxSeq = 0
  · rw [updateRxStats_duplicate _ _ hv hs hd, ← hstate]
  by_cases ha : (seq - rx.maxSeq).toNat ≤ 32767
  · rw [updateRxStats_ahead _ _ hv hs hd ha, ← hstate]; rfl
  · rw [updateRxStats_reordered _ _ hv hs ha, ← hstate]; rfl

/-- What UpdateRxStats answers for the packet at SRC_ADDR (42_rtp_session.md R175). -/
def receivedStats (s : State) : RxRegs × HdrFlags :=
  updateRxStats s.rx (memWord s.pb (s.op.srcAddr.toNat + 8)) (rtpSeq s.pb s.op.srcAddr.toNat)
    (memWord s.pb (s.op.srcAddr.toNat + 4)) s.sess.rxArrival

/-- The rule by its checks, in the words of the wire format (42_rtp_session.md R175). -/
theorem ruleSessProcessReceived_eq (s : State) : ruleOf .sessProcessReceived s =
    if ¬ InRange s s.op.srcAddr s.op.srcLen then .error .invalidParam
    else if ¬ RtpFits s.pb s.op.srcAddr.toNat s.op.srcLen.toNat then .error .invalidPacket
    else .ok { s with
      op := decodedOp s (rtpHeaderOf s.pb s.op.srcAddr.toNat)
      hdr := decodedHdr s (rtpHeaderOf s.pb s.op.srcAddr.toNat)
        { (receivedStats s).2 with extOneByte := rtpOneByteExt s.pb s.op.srcAddr.toNat }
      rx := (receivedStats s).1 } := by
  simp only [ruleOf, ruleSessProcessReceived, parseRtpHeader_eq, ite_not, ← isOneByteExt_rtpHeaderOf]
  by_cases hf : RtpFits s.pb s.op.srcAddr.toNat s.op.srcLen.toNat
  · simp only [if_pos hf]; rfl
  · simp only [if_neg hf]

/-- Settles O33: the range, the checks of the header, then the registers of the packet and the statistics. -/
theorem sessProcessReceived : Obligations.SessProcessReceived := by
  intro s base len hbase hlen
  subst hbase hlen
  have hrule := ruleSessProcessReceived_eq s
  split
  · next hr => exact exec_of_error (hrule.trans (if_pos hr))
  next hr =>
  rw [if_neg hr] at hrule
  split
  · next hf => exact exec_of_error (hrule.trans (if_pos hf))
  next hf =>
  refine ⟨_, exec_of_ok (hrule.trans (if_neg hf)), showsPacket_decodedHdr s _, rfl, ?_⟩
  have hrx := updateRxStats_frame (rx := s.rx) (u := (receivedStats s).1) rfl
  rw [← hrx]
  rfl

end Sys2Proof.Machine
end

section
/-! PROOFS. The signed distance between two sequence numbers, and SEQ_DIFF, which shows it to the host
(42_rtp_session.md R170, R172). -/

namespace Sys2Proof.Machine

open Sys2Proof

/-- The distance is the 16-bit difference read in two's complement (42_rtp_session.md R170). -/
theorem sequenceDiff_eq_toInt (a b : BitVec 16) : sequenceDiff a b = (a - b).toInt := by
  rw [BitVec.toInt_eq_toNat_cond]
  unfold sequenceDiff
  dsimp only
  split <;> split <;> omega

theorem sequenceDiff_bounds (a b : BitVec 16) : -32768 ≤ sequenceDiff a b ∧ sequenceDiff a b ≤ 32767 := by
  rw [sequenceDiff_eq_toInt]
  exact ⟨BitVec.le_toInt (a - b), Int.le_of_lt_add_one (BitVec.toInt_lt (x := a - b))⟩

/-- The distance is the difference of the two numbers modulo 2^16 (42_rtp_session.md R170). -/
theorem sequenceDiff_modEq (a b : BitVec 16) : sequenceDiff a b ≡ a.toNat - b.toNat [ZMOD 65536] := by
  have hsub := BitVec.toNat_sub a b
  have hb := b.isLt
  rw [sequenceDiff_eq_toInt, BitVec.toInt_eq_toNat_cond, hsub, Int.ModEq]
  split <;> omega

/-- Settles O30: the rule writes the distance of the two low halves, which is in range and congruent to their
difference. -/
theorem seqDiff : Obligations.SeqDiff := by
  intro s
  have hrule : ruleOf .seqDiff s = .ok { s with op := { s.op with
      res0 := BitVec.ofInt 32 (sequenceDiff (s.op.arg0.setWidth 16) (s.op.arg1.setWidth 16)) } } := rfl
  obtain ⟨hlo, hhi⟩ := sequenceDiff_bounds (s.op.arg0.setWidth 16) (s.op.arg1.setWidth 16)
  have hmod := sequenceDiff_modEq (s.op.arg0.setWidth 16) (s.op.arg1.setWidth 16)
  rw [BitVec.toNat_setWidth, BitVec.toNat_setWidth] at hmod
  exact ⟨_, hlo, hhi, Int.emod_eq_zero_of_dvd hmod.symm.dvd, exec_of_ok hrule⟩

end Sys2Proof.Machine
end

section
/-! PROOFS. The loss arithmetic of a report block, RTCP_PARSE of every packet that is not an SR, and the round trip of
an SR (43_rtcp.md R192, R193, R201 to R205). -/

namespace Sys2Proof.Machine

open Sys2Proof

/-- Settles O38: Clamp24 is a bound on both sides, and Fraction is the minimum exactly when both arguments are
positive. -/
theorem lossArithmetic : Obligations.LossArithmetic := by
  refine ⟨fun n => ?_, fun e l => ⟨fun h => ?_, fun he hl => ?_⟩⟩
  · rw [clamp24_eq]; omega
  · have hfrac := lossFraction_eq e l
    rw [if_neg (by omega)] at hfrac
    exact_mod_cast hfrac
  · rw [lossFraction_eq, if_pos ⟨he, hl⟩]

/-- Settles O41: the body is read as an RR, whose blocks are processed on the statistics as they were. -/
theorem rtcpParseReceiverReport : Obligations.RtcpParseReceiverReport := by
  intro s base count hbase hcount hr hfits hbodyFits hpt
  subst hbase hcount
  have hnotSr : ¬ rtcpPt s.pb s.op.srcAddr.toNat = 200 := by omega
  have hbody : parseBody s s.op.srcAddr.toNat (rtcpCommonOf s.pb s.op.srcAddr.toNat) = .ok _ :=
    (if_neg hnotSr).trans ((if_pos hpt).trans (if_neg (Nat.not_lt.mpr (hbodyFits.2.1 hpt))))
  refine ⟨_, exec_of_ok (ruleRtcpParse_ok hr hfits hbody), rfl, ?_⟩
  rw [nowShort_eq]
  exact processBlocks_processed s _ _ _

/-- RTCP_SSRC of a packet that is no report: the first SSRC word, where the packet has one (43_rtcp.md R203). -/
def otherSsrc (m : Memory) (base : Nat) : Word :=
  if rtcpPt m base = 203 then if 0 < rtcpCount m base then memWord m (base + 4) else 0
  else headerOnlySsrc m base (rtcpPlen m base)

/-- The body of a packet that is no report shows its first SSRC word and whether its type is unknown, and keeps the
statistics (43_rtcp.md R203). -/
theorem parseBody_other {s : State} {base : Nat} (h : RtcpBodyFits s.pb base) (hsr : rtcpPt s.pb base ≠ 200)
    (hrr : rtcpPt s.pb base ≠ 201) : parseBody s base (rtcpCommonOf s.pb base) =
      .ok (⟨memWord s.pb base, otherSsrc s.pb base, 0, 0, 0, 0, 0,
        ⟨0, false, decide (rtcpPt s.pb base ∉ ([202, 203, 204, 205, 206] : List Nat))⟩⟩, s.rx) := by
  refine (if_neg hsr).trans ((if_neg hrr).trans ?_)
  by_cases hbye : rtcpPt s.pb base = 203
  · refine (if_pos hbye).trans ((if_neg (Nat.not_lt.mpr (h.2.2 hbye))).trans ?_)
    rw [otherSsrc, if_pos hbye, hbye]
    rfl
  refine (if_neg hbye).trans ?_
  rw [otherSsrc, if_neg hbye]
  have hmem : rtcpPt s.pb base ∈ ([202, 203, 204, 205, 206] : List Nat) ↔ rtcpPt s.pb base = 202 ∨
      rtcpPt s.pb base = 204 ∨ rtcpPt s.pb base = 205 ∨ rtcpPt s.pb base = 206 := by simp [hbye]
  split
  · next hknown => rw [decide_eq_false (not_not.mpr (hmem.mpr hknown))]; rfl
  · next hunknown => rw [decide_eq_true (mt hmem.mp hunknown)]; rfl

/-- Settles O42: the body is read as one that is no report. -/
theorem rtcpParseOtherTypes : Obligations.RtcpParseOtherTypes := by
  intro s base pt hbase hpt hr hfits hbodyFits hsr hrr
  subst hbase hpt
  exact ⟨_, exec_of_ok (ruleRtcpParse_ok hr hfits (parseBody_other hbodyFits hsr hrr)), rfl, rfl,
    fun hbye => if_pos hbye, fun hbye => if_neg hbye⟩

/-- The first word of a packet is its two flag bytes and its length field (30_encoding.md R115). -/
theorem memRead_of_showsCommon {m : Memory} {d count pt n : Nat} (h : ShowsCommon m d count pt n) :
    memRead m d 4 = (128 + count) * 2 ^ 24 + pt * 2 ^ 16 + n := by
  have hlength := h.length
  rw [memRead] at hlength ⊢
  simp only [memBytes, Nat.add_assoc, Nat.reduceAdd] at hlength ⊢
  rw [bytesToNat_cons, bytesToNat_cons, h.flags, h.pt, hlength]
  simp only [List.length_cons, List.length_nil]
  omega

/-- The fields ParseCommonHeader reads are those BuildCommonHeader wrote (43_rtcp.md R190, R200). -/
theorem rtcpFields_of_showsCommon {m : Memory} {d count pt n : Nat} (h : ShowsCommon m d count pt n)
    (hc : count < 32) : rtcpVersion m d = 2 ∧ rtcpCount m d = count ∧ rtcpPt m d = pt ∧ rtcpPlen m d = 4 * (n + 1) := by
  have hword := memRead_of_showsCommon h
  have hpt : pt < 256 := h.pt ▸ (memByte m (d + 1)).isLt
  have hn : n < 256 ^ 2 := h.length ▸ memRead_lt m (d + 2) 2
  simp only [rtcpVersion, rtcpCount, rtcpPt, rtcpPlen, hword]
  omega

/-- A command that raises shows its error (60_exceptions.md R302). -/
theorem errcode_ne_zero_of_raises {i : Instr} {s t : State} {e : CmdError} (h : Raises i s e)
    (ht : exec i s = .next t) : t.glob.status.errcode ≠ 0 := by
  obtain rfl : raised s e = t := Host.Outcome.next.inj (h.symm.trans ht)
  exact code_ne_zero e

/-- A packet that passes every check of RTCP_PARSE leaves no error (43_rtcp.md R204). -/
theorem rtcpParse_errcode {s u : State} (hr : InRange s s.op.srcAddr s.op.srcLen)
    (hfits : RtcpFits s.pb s.op.srcAddr.toNat s.op.srcLen.toNat) (hbody : RtcpBodyFits s.pb s.op.srcAddr.toNat)
    (hu : exec .rtcpParse s = .next u) : u.glob.status.errcode = 0 := by
  have hparse := rtcpParse s _ rfl
  rw [if_neg (not_not.mpr hr), if_neg (not_not.mpr hfits), if_neg (not_not.mpr hbody)] at hparse
  obtain ⟨v, hv, -, hframe⟩ := hparse
  obtain rfl : u = v := Host.Outcome.next.inj (hu.symm.trans hv)
  rw [hframe]
  rfl

/-- An SR with at most one block, in a source range of its length, passes the checks of RTCP_PARSE and is read as an SR
(43_rtcp.md R200, R201, R204). -/
theorem rtcpParse_of_showsSr {s : State} {rc : Nat} (hrc : rc ≤ 1)
    (hcommon : ShowsCommon s.pb s.op.srcAddr.toNat rc 200 ((28 + 24 * rc) / 4 - 1))
    (hlen : s.op.srcLen.toNat = 28 + 24 * rc) (hr : InRange s s.op.srcAddr s.op.srcLen) :
    ∃ u, exec .rtcpParse s = .next u ∧ u.glob.status.errcode = 0 ∧
      u.rtcp.ssrc = memWord s.pb (s.op.srcAddr.toNat + 4) ∧ u.rtcp.pktCount = memWord s.pb (s.op.srcAddr.toNat + 20) ∧
      u.rtcp.octetCount = memWord s.pb (s.op.srcAddr.toNat + 24) ∧
      u.rtcp.ntpMsw = memWord s.pb (s.op.srcAddr.toNat + 8) ∧ u.rtcp.ntpLsw = memWord s.pb (s.op.srcAddr.toNat + 12) ∧
      u.rtcp.rtpTs = memWord s.pb (s.op.srcAddr.toNat + 16) := by
  obtain ⟨hversion, hcount, hpt, hplen⟩ := rtcpFields_of_showsCommon hcommon (by omega)
  have hfits : RtcpFits s.pb s.op.srcAddr.toNat s.op.srcLen.toNat := ⟨by omega, hversion, by omega⟩
  have hbody : RtcpBodyFits s.pb s.op.srcAddr.toNat := ⟨fun _ => by omega, by omega, by omega⟩
  obtain ⟨u, hu, hregs, -⟩ := rtcpParseSenderReport s _ _ _ _ rfl rfl rfl rfl hr hfits hbody hpt
  refine ⟨u, hu, rtcpParse_errcode hr hfits hbody hu, ?_⟩
  rw [hregs]
  exact ⟨rfl, rfl, rfl, rfl, rfl, rfl⟩

/-- Settles O43: the SR that was built stands at DST_ADDR with its length in RES_LEN, and each word it is read as is the
one that was written there. -/
theorem rtcpRoundTrip : Obligations.RtcpRoundTrip := by
  intro s t hex hok
  obtain ⟨rc, hrc⟩ : ∃ rc, rc = if s.rx.state.rxValid then 1 else 0 := ⟨_, rfl⟩
  have hrc1 : rc ≤ 1 := by rw [hrc]; split <;> decide
  have hsr := rtcpCreateSr s _ rc _ rfl hrc rfl
  split at hsr
  · exact absurd hok (errcode_ne_zero_of_raises hsr hex)
  next hrange =>
  split at hsr
  · exact absurd hok (errcode_ne_zero_of_raises hsr hex)
  next hcap =>
  obtain ⟨t', hex', ht, hcommon, hssrc, hmsw, hlsw, hts, hpkts, hoctets, -, -⟩ := hsr
  obtain rfl : t = t' := Host.Outcome.next.inj (hex.symm.trans hex')
  have hlen : t.op.resLen.toNat = 28 + 24 * rc := by rw [ht]; exact u32_toNat_of_lt (by omega)
  have hsize : t.params.pbufSize = s.params.pbufSize := by rw [ht]
  have hr : s.op.dstAddr.toNat + t.op.resLen.toNat ≤ t.params.pbufSize := by omega
  rw [← hssrc, ← hpkts, ← hoctets, ← hmsw, ← hlsw, ← hts]
  exact rtcpParse_of_showsSr (s := { t with op := { t.op with srcAddr := s.op.dstAddr, srcLen := t.op.resLen } })
    hrc1 hcommon hlen hr

end Sys2Proof.Machine
end

section
/-! PROOFS. CTX_INIT, CTX_UPDATE_KEY and CTX_TEARDOWN (44_srtp_context_kdf.md R221 to R226), and what changes the
session state of a context (R224, 45_srtp_index_replay.md R263). -/

namespace Sys2Proof.Machine

open Sys2Proof

/-- A bank whose active key and salt are loaded from the staged bytes (44_srtp_context_kdf.md R223, R225). -/
theorem keysLoaded_of_loaded {p : Params} {b b' : Ctx} (hkey : b'.mkeyAct = loadedKey p b)
    (hsalt : b'.msaltAct = loadedSalt p b) : KeysLoaded p b b' where
  key k hk := by rw [hkey]; exact keyByte_loadedKey p b k hk
  salt k hk := by rw [hsalt]; exact keyByte_loadedSalt p b k hk

/-- The rule of CTX_INIT by its checks, with the legal rates and window sizes written out (44_srtp_context_kdf.md R221
to R223). -/
theorem ruleCtxInit_eq (s : State) (c : BitVec 4) : ruleOf (.ctxInit c) s =
    if s.params.nCtx ≤ c.toNat then .error .invalidParam
    else if (s.bank c).status.valid = true then .error .invalidParam
    else if ¬ ((s.bank c).kdr = 0 ∨ ∃ t : Fin 25, (s.bank c).kdr.toNat = 2 ^ t.val) then .error .invalidParam
    else if ¬ (1 ≤ (s.bank c).winSize.toNat ∧ (s.bank c).winSize.toNat ≤ s.params.wMax) then .error .invalidParam
    else .ok (s.setBank c (initBank s.params (s.bank c))) := by
  simp only [ruleOf, ruleCtxInit, ← kdrLegal_iff, ← winLegal_iff, Bool.not_eq_true, Bool.not_eq_eq_eq_not,
    Bool.not_true]

/-- The rule of CTX_UPDATE_KEY for a valid context (44_srtp_context_kdf.md R225). -/
theorem ruleCtxUpdateKey_ok {s : State} {c : BitVec 4} (hc : c.toNat < s.params.nCtx)
    (hv : (s.bank c).status.valid = true) : ruleOf (.ctxUpdateKey c) s =
      .ok { s.setBank c (updateKeyBank s.params (s.bank c)) with sk := clearKeysOf s.sk c } := by
  simp only [ruleOf, ruleCtxUpdateKey, ctxError_none hc hv]

/-- Settles O44: the four checks in order, then the bank CTX_INIT leaves. -/
theorem ctxInit : Obligations.CtxInit := by
  intro s c
  have hrule := ruleCtxInit_eq s c
  split
  · next hc => exact exec_of_error (hrule.trans (if_pos hc))
  next hc =>
  rw [if_neg hc] at hrule
  split
  · next hv => exact exec_of_error (hrule.trans (if_pos hv))
  next hv =>
  rw [if_neg hv] at hrule
  split
  · next hk => exact exec_of_error (hrule.trans (if_pos hk))
  next hk =>
  rw [if_neg hk] at hrule
  split
  · next hw => exact exec_of_error (hrule.trans (if_pos hw))
  next hw =>
  obtain ⟨t, hex, ht⟩ := exec_finishes (hrule.trans (if_neg hw))
  have hb : t.bank c = initBank s.params (s.bank c) := by rw [ht]; exact bank_setBank_self _ _ _
  refine ⟨t, hex, by rw [hb]; exact keysLoaded_of_loaded rfl rfl, ?_⟩
  rw [hb, ht]
  rfl

/-- Settles O45: the two checks of a context without a direction, then the bank CTX_UPDATE_KEY leaves. -/
theorem ctxUpdateKey : Obligations.CtxUpdateKey := by
  intro s c
  split
  · next hc => exact raises_of_noBank rfl hc
  next hc =>
  split
  · next hv =>
    exact exec_of_error (ruleOf_ctxError rfl nofun nofun (ctxError_invalid (Nat.not_le.mp hc) hv))
  next hv =>
  obtain ⟨t, hex, ht⟩ := exec_finishes (ruleCtxUpdateKey_ok (Nat.not_le.mp hc) (Bool.eq_true_of_not_eq_false hv))
  have hb : t.bank c = updateKeyBank s.params (s.bank c) := by rw [ht]; exact bank_setBank_self _ _ _
  refine ⟨t, hex, by rw [hb]; exact keysLoaded_of_loaded rfl rfl, by rw [hb]; rfl, ?_⟩
  rw [hb, ht]
  rfl

/-- Settles O46: the bank is the only check, and the rest is the bank CTX_TEARDOWN leaves and the keys shown. -/
theorem ctxTeardown : Obligations.CtxTeardown := fun _ _ =>
  ⟨raises_of_noBank rfl, fun hc => exec_of_ok (i := .ctxTeardown _) (if_neg (Nat.not_le.mpr hc))⟩

/-- A change to a bank by a command that may not write the session state leaves it: new keys, a derivation, or a
candidate (44_srtp_context_kdf.md R224, 45_srtp_index_replay.md R263). -/
theorem sessionState_of_bankChange {p : Params} {b b' : Ctx} {c : BitVec 4} {i : Instr} (h : BankChange p b c i b')
    (hi : ¬ changesSession c i = true) : sessionState b' = sessionState b := by
  cases h
  case updateKey | kdf | srtpRxCheck | srtcpRxCheck => rfl
  case init | teardown | srtpTx | srtcpTx | srtpRxCommit | srtcpRxCommit => exact absurd (by simp [changesSession]) hi

theorem exec_keepsSessionState {i : Instr} {s t : State} {c : BitVec 4} (hx : exec i s = .next t)
    (hi : ¬ changesSession c i = true) : sessionState (t.bank c) = sessionState (s.bank c) := by
  obtain ⟨e, -, rfl⟩ | ⟨u, hu, rfl⟩ := exec_next_cases hx
  · rfl
  · show sessionState (u.bank c) = sessionState (s.bank c)
    obtain hsame | hchange := ruleOf_bank hu c
    · rw [hsame]
    · exact sessionState_of_bankChange hchange hi

/-- The registers of a bank's session state are read-only, so of the register writes only a soft reset changes it
(10_state.md R35, 70_reset_and_hazards.md R331). -/
theorem writeReg_keepsSessionState {s : State} {r : Reg} {v : Word} (c : BitVec 4)
    (h : ¬ (r = .ctrl ∧ v.getLsbD 0 = true)) :
    sessionState ((writeReg s r v).bank c) = sessionState (s.bank c) := by
  obtain hsame | ⟨hr, hv, -⟩ | ⟨q, -, -, hwrite⟩ := writeReg_bank s r v c
  · rw [hsame]
  · exact absurd ⟨hr, hv⟩ h
  · rw [hwrite]; exact (writeBankReg_frame _ q v).1

theorem hostAccess_keepsSessionState {s : State} {op : HostOp} (c : BitVec 4)
    (h : ∀ v : Word, op = .write 4 .word v → ¬ v.getLsbD 0 = true) :
    sessionState ((hostAccess s op).bank c) = sessionState (s.bank c) := by
  obtain ⟨t, he, hc⟩ := hostAccess_cases s op
  rw [he]
  obtain ⟨v, rfl⟩ | rfl | ⟨v, rfl⟩ | ⟨off, r, v, hop, hr, rfl⟩ | ⟨a, w, v, -, rfl⟩ := hc
  case inr.inr.inr.inl =>
    refine writeReg_keepsSessionState c fun ⟨hctrl, hv⟩ => ?_
    obtain rfl : off = 4 := regAt_ctrl (hctrl ▸ hr)
    exact h v hop hv
  all_goals rfl

/-- A step that runs a command may change the session state exactly when its command may. -/
theorem sessionStep_engine_iff {c : BitVec 4} {s : State} {i : Instr} (ht : turn s = .engine)
    (hd : decode s.glob.pending = .ok i) : SessionStep c s ↔ changesSession c i = true := by
  simp [SessionStep, ht, hd]

/-- A host's soft reset is a step that may change the session state. -/
theorem sessionStep_softReset {c : BitVec 4} {s : State} {v : Word} {rest : List HostAccess}
    (ht : turn s = .host (.write 4 .word v) rest) (hv : v.getLsbD 0 = true) : SessionStep c s := by
  simp [SessionStep, ht, hv]

/-- The controlling invariant for one step: completions and idling leave every bank, and a command or a host access that
can change the session state makes the step one of those that may (45_srtp_index_replay.md R263). -/
theorem step_keepsSessionState {c : BitVec 4} {s t : State} (hs : step s = .next t) (h : ¬ SessionStep c s) :
    sessionState (t.bank c) = sessionState (s.bank c) := by
  obtain ⟨-, rfl⟩ | ⟨op, rest, ht, rfl⟩ | ⟨ht, i, hd, hx⟩ | ⟨-, rfl⟩ := step_cases hs
  · rfl
  · refine hostAccess_keepsSessionState (s := { s with host := rest }) c fun v hop hv => ?_
    subst hop
    exact h (sessionStep_softReset ht hv)
  · exact exec_keepsSessionState hx (mt (sessionStep_engine_iff ht hd).mpr h)
  · rfl

/-- A run of n + 1 steps is a step and a run of n. -/
theorem run_succ_of_step {s u : State} (h : step s = .next u) (n : Nat) :
    Sys2Proof.core.run (n + 1) s = Sys2Proof.core.run n u := by
  have hcore : Sys2Proof.core.step s = .next u := h
  simp only [Host.Core.run, hcore]

/-- Settles O52, by induction on the length of the run. -/
theorem sessionStateChangesOnlyBy : Obligations.SessionStateChangesOnlyBy := by
  intro c n
  induction n with
  | zero =>
    rintro s t hrun -
    obtain rfl : s = t := Host.Outcome.next.inj hrun
    rfl
  | succ n ih =>
    intro s t hrun hno
    obtain ⟨u, hu⟩ := step_next s
    rw [run_succ_of_step hu] at hrun
    have hfirst : ¬ SessionStep c s := hno 0 s (Nat.succ_pos n) rfl
    have hrest : ∀ k v, k < n → Sys2Proof.core.run k u = .next v → ¬ SessionStep c v := fun k v hk hv =>
      hno (k + 1) v (Nat.succ_lt_succ hk) ((run_succ_of_step hu k).trans hv)
    exact (ih u t hrun hrest).trans (step_keepsSessionState hu hfirst)

end Sys2Proof.Machine
end

section
/-! PROOFS. Index estimation, the replay window, and ROC, which no command but CTX_INIT and CTX_TEARDOWN lowers
(45_srtp_index_replay.md R250 to R254). -/

namespace Sys2Proof.Machine

open Sys2Proof

/-- Once a sequence number has been seen, the estimated index is within 2^15 of the highest one; at the two ties R250's
comparisons keep ROC. -/
theorem estimateV_dist {b : Ctx} (seq : BitVec 16) (hs : b.status.slValid = true) {dist : Int}
    (hd : dist = (estimateV b seq * 65536 + seq.toNat) - ((b.roc.toNat : Int) * 65536 + b.sL.toNat)) :
    (b.sL.toNat < 32768 → -32768 < dist ∧ dist ≤ 32768) ∧ (32768 ≤ b.sL.toNat → -32768 ≤ dist ∧ dist < 32768) := by
  have hseq := seq.isLt
  have hsL := b.sL.isLt
  simp only [estimateV, hs, Bool.not_true, Bool.false_eq_true, if_false] at hd
  by_cases hlow : b.sL.toNat < 32768
  · rw [if_pos hlow] at hd
    split at hd <;> omega
  · rw [if_neg hlow] at hd
    split at hd <;> omega

/-- Settles O48, by whether a sequence number has been seen. -/
theorem indexEstimate : Obligations.IndexEstimate := by
  rintro b seq v dist rfl hdist
  obtain ⟨hlo, hhi⟩ := estimateV_range b seq
  exact ⟨estimateV_fresh seq, fun hs => ⟨hlo, hhi, estimateV_dist seq hs hdist⟩⟩

/-- The check rejects exactly what is below the floor or accepted (45_srtp_index_replay.md R252). -/
theorem replayed_iff {w : Window} {i : Nat} : replayed w i = true ↔
    w.valid = true ∧ i ≤ w.top ∧ (w.size ≤ w.top - i ∨ Accepted w i) := by
  rw [← Bool.not_eq_false, replayed_eq_false]
  by_cases hlt : w.top - i < w.size
  · simp +contextual [Accepted, hlt, Nat.not_le.mpr hlt]
  · simp [hlt, Nat.not_lt.mp hlt]

/-- The first index a window accepts (45_srtp_index_replay.md R253). -/
theorem replayMark_fresh (wMax : Nat) {w : Window} (i : Nat) (hv : w.valid = false) :
    replayMark wMax w i = { w with valid := true, top := i, bmp := 1 } := by
  simp [replayMark, hv]

/-- An index above the top slides the window up to it (45_srtp_index_replay.md R253). -/
theorem replayMark_above (wMax : Nat) {w : Window} {i : Nat} (hv : w.valid = true) (hi : w.top < i) :
    replayMark wMax w i = { w with top := i, bmp := slideBitmap wMax w.size w.bmp (i - w.top) } := by
  simp [replayMark, hv, hi]

/-- An index inside the window leaves its top (45_srtp_index_replay.md R253). -/
theorem replayMark_inside (wMax : Nat) {w : Window} {i : Nat} (hv : w.valid = true) (hi : i ≤ w.top) :
    replayMark wMax w i = { w with bmp := setBit w.bmp (w.top - i) } := by
  simp [replayMark, hv, Nat.not_lt.mpr hi]

theorem replayMark_top (wMax : Nat) (w : Window) (i : Nat) :
    (replayMark wMax w i).top = if w.valid then max w.top i else i := by
  cases hv : w.valid with
  | false => rw [replayMark_fresh _ _ hv]; rfl
  | true =>
    obtain hi | hi := Nat.lt_or_ge w.top i
    · rw [replayMark_above _ hv hi]; exact (max_eq_right hi.le).symm
    · rw [replayMark_inside _ hv hi]; exact (max_eq_left hi).symm

/-- After an index that passed is marked, the accepted indices are that one and those accepted before that are not below
the new floor (45_srtp_index_replay.md R251, R253). -/
theorem accepted_replayMark {wMax : Nat} {w : Window} {i : Nat} (hs : 1 ≤ w.size) (hw : w.size ≤ wMax)
    (hm : wMax ≤ 4096) (hr : replayed w i = false) (j : Nat) : Accepted (replayMark wMax w i) j ↔
      j = i ∨ (Accepted w j ∧ (replayMark wMax w i).top - j < w.size) := by
  cases hv : w.valid with
  | false => simp [replayMark_fresh _ _ hv, Accepted, hv]; omega
  | true =>
    obtain hi | hi := Nat.lt_or_ge w.top i
    · rw [replayMark_above _ hv hi]
      simp only [Accepted, slideBitmap_getLsbD, hv]
      by_cases hj : j ≤ w.top
      · have hshift : i - j - (i - w.top) = w.top - j := by omega
        rw [hshift]
        grind
      · grind
    · obtain ⟨hlt, -⟩ := replayed_eq_false.mp hr hv hi
      rw [replayMark_inside _ hv hi]
      simp only [Accepted, setBit_getLsbD, hv]
      grind

/-- Settles O49: the check, then the three things a mark does. -/
theorem replayWindow : Obligations.ReplayWindow := fun w i wMax hok hs hw hm =>
  ⟨replayed_iff, fun hr => ⟨windowOk_replayMark hok hs hr, replayMark_top wMax w i, accepted_replayMark hs hw hm hr⟩⟩

/-- R254's update does not lower ROC, with the value of ROC when no sequence number has been seen. -/
theorem roc_le_updateRocSl {b : Ctx} {v : Nat} (seq : BitVec 16) (hv : v < 2 ^ 32)
    (hfresh : b.status.slValid = false → v = b.roc.toNat) : b.roc.toNat ≤ (updateRocSl b v seq).roc.toNat := by
  rw [updateRocSl_eq]
  dsimp only
  split
  · next h =>
    rw [u32_toNat_of_lt hv]
    obtain hs | hgt := h
    · exact (hfresh hs).ge
    · exact hgt.le
  · exact Nat.le_refl _

/-- Of the changes a command makes to the bank of its context, only a send and a commit move ROC, by R254's update. -/
theorem roc_le_of_bankChange {p : Params} {b b' : Ctx} {c : BitVec 4} {i : Instr} (hok : CtxOk p b)
    (hinit : i ≠ .ctxInit c) (hdown : i ≠ .ctxTeardown c) (h : BankChange p b c i b') :
    b.roc.toNat ≤ b'.roc.toNat := by
  cases h with
  | init => exact absurd rfl hinit
  | teardown => exact absurd rfl hdown
  | srtpTx hv v seq he hl =>
    exact roc_le_updateRocSl seq hl fun hs => by have := estimateV_fresh seq hs; omega
  | srtpRxCommit hv hc hr =>
    obtain ⟨-, -, -, hcand⟩ := (ctxOk_valid_iff hv).mp hok
    exact roc_le_updateRocSl b.candSeq b.candRoc.isLt fun hs => congrArg BitVec.toNat (hcand hs hc)
  | updateKey | kdf | srtpRxCheck | srtcpTx | srtcpRxCheck | srtcpRxCommit => exact Nat.le_refl _

/-- Settles O50: a command leaves the bank, or changes it in one of the ways that keep ROC from falling. -/
theorem rocNeverDecreases : Obligations.RocNeverDecreases := by
  intro i s t c hok hinit hdown hx
  obtain ⟨e, -, rfl⟩ | ⟨u, hu, rfl⟩ := exec_next_cases hx
  · exact Nat.le_refl _
  · show (s.bank c).roc.toNat ≤ (u.bank c).roc.toNat
    obtain hsame | hchange := ruleOf_bank hu c
    · rw [hsame]
    · exact roc_le_of_bankChange hok hinit hdown hchange

end Sys2Proof.Machine
end

section
/-! PROOFS. The SRTP and SRTCP commands on a ready context: their rules in the terms of the wire format, and the state
each leaves (45_srtp_index_replay.md R254 to R268). -/

namespace Sys2Proof.Machine

open Sys2Proof

/-- One check of a rule: where it fails the command raises its error, and where it passes the rest of the rule counts
(60_exceptions.md R303). -/
theorem raises_or_next {i : Instr} {s : State} {check : Prop} [Decidable check] {e : CmdError}
    {rest : Except CmdError State} {P : Prop} (hr : ruleOf i s = if check then .error e else rest)
    (hP : ¬ check → ruleOf i s = rest → P) : if check then Raises i s e else P := by
  split
  · next h => exact exec_of_error (hr.trans (if_pos h))
  · next h => exact hP h (hr.trans (if_neg h))

/-- The MKI's address (45_srtp_index_replay.md R255). -/
theorem trailer_mkiAddr (p : Params) (base off tlen m : Nat) :
    base + (trailer p off tlen m).mkiOff = base + off + if p.mkiBeforeTag then 0 else tlen := by
  rw [trailer_mkiOff, Nat.add_assoc]

/-- The rule of SRTP_TX on a ready send context, in the terms of the wire format (45_srtp_index_replay.md R259). -/
theorem ruleSrtpTx_ready {s : State} {c : BitVec 4} (h : CtxReady s c false) : ruleOf (.srtpTx c) s =
    if ¬ (InRange s s.op.srcAddr s.op.dstCap ∧ s.op.srcLen.toNat ≤ s.op.dstCap.toNat) then .error .invalidParam
    else if ¬ RtpFits s.pb s.op.srcAddr.toNat s.op.srcLen.toNat then .error .invalidPacket
    else if memWord s.pb (s.op.srcAddr.toNat + 8) ≠ (s.bank c).ssrc then .error .invalidParam
    else if s.op.dstCap.toNat < s.op.srcLen.toNat + (ctxLens s (s.bank c)).tagLen + mkiLen (s.bank c) then
      .error .bufferTooSmall
    else if estimateV (s.bank c) (rtpSeq s.pb s.op.srcAddr.toNat) < 0 then .error .invalidParam
    else if 2 ^ 32 - 1 < estimateV (s.bank c) (rtpSeq s.pb s.op.srcAddr.toNat) then .error .keyExpired
    else .ok (srtpTxDone c s (rtpHeaderOf s.pb s.op.srcAddr.toNat)
      (estimateV (s.bank c) (rtpSeq s.pb s.op.srcAddr.toNat)).toNat) := by
  have hrange : (¬ InRange s s.op.srcAddr s.op.dstCap ∨ s.op.srcLen.toNat > s.op.dstCap.toNat) ↔
      ¬ (InRange s s.op.srcAddr s.op.dstCap ∧ s.op.srcLen.toNat ≤ s.op.dstCap.toNat) := by
    omega
  simp only [ruleOf, ruleSrtpTx, ctxError_ready h, hrange, parseRtpHeader_eq]
  by_cases hf : RtpFits s.pb s.op.srcAddr.toNat s.op.srcLen.toNat
  · simp only [if_pos hf, if_neg (not_not.mpr hf)]; rfl
  · simp only [if_neg hf, if_pos hf]

/-- The rule of SRTP_RX_CHECK on a ready receive context (45_srtp_index_replay.md R261). -/
theorem ruleSrtpRxCheck_ready {s : State} {c : BitVec 4} (h : CtxReady s c true) {len : Nat}
    (hlen : len = s.op.srcLen.toNat - (ctxLens s (s.bank c)).tagLen - mkiLen (s.bank c)) :
    ruleOf (.srtpRxCheck c) s =
    if ¬ InRange s s.op.srcAddr s.op.srcLen then .error .invalidParam
    else if s.op.srcLen.toNat < 12 + (ctxLens s (s.bank c)).tagLen + mkiLen (s.bank c) then .error .invalidPacket
    else if ¬ RtpFits s.pb s.op.srcAddr.toNat len then .error .invalidPacket
    else if memWord s.pb (s.op.srcAddr.toNat + 8) ≠ (s.bank c).ssrc then .error .invalidPacket
    else if (s.bank c).cfg.mkiEn = true ∧ memWord s.pb (s.op.srcAddr.toNat + len +
        if s.params.mkiBeforeTag then 0 else (ctxLens s (s.bank c)).tagLen) ≠ (s.bank c).mki then
      .error .invalidPacket
    else if estimateV (s.bank c) (rtpSeq s.pb s.op.srcAddr.toNat) < 0 then .error .replayDetected
    else if 2 ^ 32 - 1 < estimateV (s.bank c) (rtpSeq s.pb s.op.srcAddr.toNat) then .error .keyExpired
    else if replayed (srtpWindow (s.bank c)) (packetIndex
        (estimateV (s.bank c) (rtpSeq s.pb s.op.srcAddr.toNat)).toNat (rtpSeq s.pb s.op.srcAddr.toNat)) = true then
      .error .replayDetected
    else .ok (srtpRxCheckDone c s len (rtpHeaderOf s.pb s.op.srcAddr.toNat)
      (estimateV (s.bank c) (rtpSeq s.pb s.op.srcAddr.toNat)).toNat) := by
  simp only [ruleOf, ruleSrtpRxCheck, ctxError_ready h, ← hlen, trailer_mkiAddr, parseRtpHeader_eq]
  by_cases hf : RtpFits s.pb s.op.srcAddr.toNat len
  · simp only [if_pos hf, if_neg (not_not.mpr hf)]; rfl
  · simp only [if_neg hf, if_pos hf]

/-- The rule of SRTP_RX_COMMIT on a ready receive context (45_srtp_index_replay.md R262). -/
theorem ruleSrtpRxCommit_ready {s : State} {c : BitVec 4} (h : CtxReady s c true) (authOk : Bool) :
    ruleOf (.srtpRxCommit c authOk) s =
    if (s.bank c).status.candValid = false then .error .notInitialized
    else if authOk = false then .error .authFailed
    else if replayed (srtpWindow (s.bank c)) (s.bank c).candIndex.toNat = true then .error .replayDetected
    else .ok { s.setBank c (srtpCommitBank s.params (s.bank c)) with
      sr := { s.sr with index := (s.bank c).candIndex, roc := (s.bank c).candRoc } } := by
  simp only [ruleOf, ruleSrtpRxCommit, ctxError_ready h, Bool.not_eq_true']

/-- The SRTCP index in a word is the word's number modulo 2^31 (45_srtp_index_replay.md R264). -/
theorem srtcpIndex_toNat (w : Word) : (w.setWidth 31 : BitVec 31).toNat = w.toNat % 2 ^ 31 := BitVec.toNat_setWidth ..

/-- The rule of SRTCP_RX_CHECK on a ready receive context (45_srtp_index_replay.md R266). -/
theorem ruleSrtcpRxCheck_ready {s : State} {c : BitVec 4} (h : CtxReady s c true) {len : Nat}
    (hlen : len = s.op.srcLen.toNat - 4 - (ctxLens s (s.bank c)).tagLenRtcp - mkiLen (s.bank c)) :
    ruleOf (.srtcpRxCheck c) s =
    if ¬ InRange s s.op.srcAddr s.op.srcLen then .error .invalidParam
    else if s.op.srcLen.toNat < 8 + 4 + (ctxLens s (s.bank c)).tagLenRtcp + mkiLen (s.bank c) then
      .error .invalidPacket
    else if rtcpVersion s.pb s.op.srcAddr.toNat ≠ 2 ∨ len < rtcpPlen s.pb s.op.srcAddr.toNat then .error .invalidPacket
    else if memWord s.pb (s.op.srcAddr.toNat + 4) ≠ (s.bank c).ssrc then .error .invalidPacket
    else if (s.bank c).cfg.mkiEn = true ∧ memWord s.pb (s.op.srcAddr.toNat + len + 4 +
        if s.params.mkiBeforeTag then 0 else (ctxLens s (s.bank c)).tagLenRtcp) ≠ (s.bank c).mki then
      .error .invalidPacket
    else if replayed (srtcpWindow (s.bank c)) (memRead s.pb (s.op.srcAddr.toNat + len) 4 % 2 ^ 31) = true then
      .error .replayDetected
    else .ok (srtcpRxCheckDone c s len (memWord s.pb (s.op.srcAddr.toNat + len))) := by
  have hheader : (!rtcpHeaderFits s.pb s.op.srcAddr.toNat len) = true ↔
      rtcpVersion s.pb s.op.srcAddr.toNat ≠ 2 ∨ len < rtcpPlen s.pb s.op.srcAddr.toNat := by
    rw [Bool.not_eq_true', ← Bool.not_eq_true, rtcpHeaderFits_iff, not_and_or, Nat.not_le]
  simp only [ruleOf, ruleSrtcpRxCheck, ctxError_ready h, ← hlen, hheader, trailer_mkiAddr, ← Nat.add_assoc,
    srtcpIndex_toNat, memWord_toNat]

/-- The rule of SRTCP_RX_COMMIT on a ready receive context (45_srtp_index_replay.md R267). -/
theorem ruleSrtcpRxCommit_ready {s : State} {c : BitVec 4} (h : CtxReady s c true) (authOk : Bool) :
    ruleOf (.srtcpRxCommit c authOk) s =
    if (s.bank c).status.rtcpCandValid = false then .error .notInitialized
    else if authOk = false then .error .authFailed
    else if replayed (srtcpWindow (s.bank c)) ((s.bank c).rtcpCand.toNat % 2 ^ 31) = true then .error .replayDetected
    else .ok { s.setBank c (srtcpCommitBank s.params (s.bank c)) with
      sr := { s.sr with
        index := ((s.bank c).rtcpCand.setWidth 31).setWidth 48, e := (s.bank c).rtcpCand.getLsbD 31 } } := by
  simp only [ruleOf, ruleSrtcpRxCommit, ctxError_ready h, Bool.not_eq_true', srtcpIndex_toNat]

/-- Settles O53: the checks in order; then the estimate is a ROC value, R254's update moves ROC and S_L, and the MKI is
the only string written. -/
theorem srtpTx : Obligations.SrtpTx := by
  intro s c b base len tlen m seq v hready hb hbase hlen htlen hm hseq hv
  obtain rfl : m = mkiLen b := hm
  subst hb hbase hlen htlen hseq
  have hrule := ruleSrtpTx_ready hready
  rw [← hv] at hrule
  refine raises_or_next hrule fun _ hrule => raises_or_next hrule fun _ hrule => raises_or_next hrule fun _ hrule =>
    raises_or_next hrule fun _ hrule => raises_or_next hrule fun hneg hrule => raises_or_next hrule fun _ hrule => ?_
  obtain ⟨n, hn⟩ := Int.eq_ofNat_of_zero_le (Int.not_lt.mp hneg)
  rw [hn, Int.toNat_natCast] at hrule ⊢
  obtain ⟨hread, hkeep⟩ := placeMki_spec s.pb (s.bank c) (s.op.srcAddr.toNat + s.op.srcLen.toNat +
    if s.params.mkiBeforeTag then 0 else (ctxLens s (s.bank c)).tagLen)
  refine ⟨_, exec_of_ok hrule, ?_, fun hoff => ?_, fun hon => ?_⟩
  · simp only [srtpTxDone, srtpTxBank, updateRocSl_eq, srtpReport_eq, gt_iff_lt, Nat.cast_lt, Nat.cast_inj]
    rfl
  · simp only [srtpTxDone, placeMki, hoff]; rfl
  · simp only [srtpTxDone, trailer_mkiAddr]
    exact ⟨hread hon, fun k hk => hkeep k fun _ => hk⟩

/-- Settles O55: the checks in order, then the candidate and the report. -/
theorem srtpRxCheck : Obligations.SrtpRxCheck := by
  intro s c b base len tlen m seq v hready hb hbase htlen hm hlen hseq hv
  obtain rfl : m = mkiLen b := hm
  subst hb hbase htlen hseq
  have hrule := ruleSrtpRxCheck_ready hready hlen
  rw [← hv] at hrule
  refine raises_or_next hrule fun _ hrule => raises_or_next hrule fun _ hrule => raises_or_next hrule fun _ hrule =>
    raises_or_next hrule fun _ hrule => raises_or_next hrule fun _ hrule => raises_or_next hrule fun _ hrule =>
    raises_or_next hrule fun _ hrule => raises_or_next hrule fun _ hrule => ?_
  rw [exec_of_ok hrule]
  simp only [srtpRxCheckDone, srtpReport_eq]
  rfl

/-- A word's number, as a register, is the word. -/
theorem u32_toNat (w : Word) : u32 w.toNat = w := BitVec.ofNat_toNat ..

/-- The bank an SRTP commit leaves, written out (45_srtp_index_replay.md R253, R254, R262). -/
theorem srtpCommitBank_eq (p : Params) (b : Ctx) {w : Window}
    (hw : w = replayMark p.wMax (srtpWindow b) b.candIndex.toNat) : srtpCommitBank p b = { b with
      roc := if b.status.slValid = false ∨ b.candRoc.toNat > b.roc.toNat then b.candRoc else b.roc
      sL := if b.status.slValid = false ∨ b.candRoc.toNat > b.roc.toNat ∨
        (b.candRoc = b.roc ∧ b.candSeq.toNat > b.sL.toNat) then b.candSeq else b.sL
      winTop := BitVec.ofNat 48 w.top, bmp := w.bmp
      status := { b.status with slValid := true, winValid := true, candValid := false } } := by
  simp only [srtpCommitBank, updateRocSl_eq, ← hw, setSrtpWindow, u32_toNat, BitVec.toNat_inj,
    hw ▸ replayMark_valid _ _ _]

/-- Settles O56: the checks in order, then the bank a commit leaves and the two registers it reports in. -/
theorem srtpRxCommit : Obligations.SrtpRxCommit := by
  intro s c b authOk w hready hb hw
  subst hb
  refine raises_or_next (ruleSrtpRxCommit_ready hready authOk) fun _ hrule => raises_or_next hrule fun _ hrule =>
    raises_or_next hrule fun _ hrule => ?_
  rw [exec_of_ok hrule, srtpCommitBank_eq _ _ hw]
  rfl

/-- Settles O59: the checks in order, then the candidate word and the report of its index and E. -/
theorem srtcpRxCheck : Obligations.SrtcpRxCheck := by
  intro s c b base len tlen m idx e hready hb hbase htlen hm hlen hidx he
  obtain rfl : m = mkiLen b := hm
  subst hb hbase htlen
  have hrule := ruleSrtcpRxCheck_ready hready hlen
  rw [← hidx] at hrule
  refine raises_or_next hrule fun _ hrule => raises_or_next hrule fun _ hrule => raises_or_next hrule fun _ hrule =>
    raises_or_next hrule fun _ hrule => raises_or_next hrule fun _ hrule => raises_or_next hrule fun _ hrule => ?_
  have hE : (memWord s.pb (s.op.srcAddr.toNat + len)).getLsbD 31 = e := by
    rw [he, ← memWord_toNat]
    exact (BitVec.msb_eq_getLsbD_last _).symm.trans (BitVec.msb_eq_decide _)
  rw [exec_of_ok hrule]
  simp only [srtcpRxCheckDone, srtcpReport_eq, srtcpIndex_toNat, memWord_toNat, ← hidx, hE]
  rfl

/-- The bank an SRTCP commit leaves, written out (45_srtp_index_replay.md R253, R267). -/
theorem srtcpCommitBank_eq (p : Params) (b : Ctx) {w : Window}
    (hw : w = replayMark p.wMax (srtcpWindow b) (b.rtcpCand.toNat % 2 ^ 31)) : srtcpCommitBank p b = { b with
      rtcpTop := BitVec.ofNat 31 w.top, rtcpBmp := w.bmp
      status := { b.status with rtcpWinValid := true, rtcpCandValid := false } } := by
  simp only [srtcpCommitBank, srtcpIndex_toNat, ← hw, setSrtcpWindow, hw ▸ replayMark_valid _ _ _]

/-- Settles O60: the checks in order, then the bank a commit leaves and the two registers it reports in. -/
theorem srtcpRxCommit : Obligations.SrtcpRxCommit := by
  intro s c b authOk idx w hready hb hidx hw
  subst hb hidx
  refine raises_or_next (ruleSrtcpRxCommit_ready hready authOk) fun _ hrule => raises_or_next hrule fun _ hrule =>
    raises_or_next hrule fun _ hrule => ?_
  have hindex : ((s.bank c).rtcpCand.setWidth 31).setWidth 48 =
      BitVec.ofNat 48 ((s.bank c).rtcpCand.toNat % 2 ^ 31) := by
    apply BitVec.eq_of_toNat_eq; simp
  rw [exec_of_ok hrule, srtcpCommitBank_eq _ _ hw, hindex]
  rfl

end Sys2Proof.Machine
end

section
/-! PROOFS. What the SRTP commands say together: an accepted index is rejected, a sender's ROC follows the wrap, and a
receiver takes apart what a sender framed (45_srtp_index_replay.md R260, R263, R269). -/

namespace Sys2Proof.Machine

open Sys2Proof

/-- The packet at SRC_ADDR is an RTP packet of `len` bytes with the trailer of context `b`, it passes every check of
SRTP_RX_CHECK before the replay window, and its estimated ROC value is `v` (45_srtp_index_replay.md R256 to R258,
R261). -/
structure SrtpFramed (s : State) (b : Ctx) (len v : Nat) : Prop where
  range : InRange s s.op.srcAddr s.op.srcLen
  length : s.op.srcLen.toNat = len + (ctxLens s b).tagLen + mkiLen b
  fits : RtpFits s.pb s.op.srcAddr.toNat len
  ssrc : memWord s.pb (s.op.srcAddr.toNat + 8) = b.ssrc
  mki : b.cfg.mkiEn = true → memWord s.pb (s.op.srcAddr.toNat + len +
    if s.params.mkiBeforeTag then 0 else (ctxLens s b).tagLen) = b.mki
  estimate : estimateV b (rtpSeq s.pb s.op.srcAddr.toNat) = v
  rocFits : v < 2 ^ 32

/-- Of a framed packet the replay window alone decides (45_srtp_index_replay.md R261). -/
theorem ruleSrtpRxCheck_framed {s : State} {c : BitVec 4} (h : CtxReady s c true) {len v : Nat}
    (hf : SrtpFramed s (s.bank c) len v) : ruleOf (.srtpRxCheck c) s =
      if replayed (srtpWindow (s.bank c)) (packetIndex v (rtpSeq s.pb s.op.srcAddr.toNat)) = true then
        .error .replayDetected
      else .ok (srtpRxCheckDone c s len (rtpHeaderOf s.pb s.op.srcAddr.toNat) v) := by
  obtain ⟨hrange, hlength, hfits, hssrc, hmki, hestimate, hroc⟩ := hf
  rw [ruleSrtpRxCheck_ready h (len := len) (by omega), if_neg (not_not.mpr hrange), if_neg (by omega),
    if_neg (not_not.mpr hfits), if_neg (not_not.mpr hssrc), if_neg (fun hbad => hbad.2 (hmki hbad.1)), hestimate,
    if_neg (by omega), if_neg (by omega), Int.toNat_natCast]

/-- Settles O51: both commands end at the window's check, which an accepted index fails. -/
theorem acceptedIndexIsRejected : Obligations.AcceptedIndexIsRejected := by
  intro s c hready
  refine ⟨fun hcand hacc => exec_of_error ?_, fun len v hrange _ hlength hfits hssrc hmki hestimate hv hacc =>
    exec_of_error ?_⟩
  · rw [ruleSrtpRxCommit_ready hready, if_neg (by simp [hcand]), if_neg (by decide),
      if_pos (replayed_of_accepted _ _ hacc)]
  · exact (ruleSrtpRxCheck_framed hready ⟨hrange, hlength, hfits, hssrc, hmki, hestimate, hv⟩).trans
      (if_pos (replayed_of_accepted _ _ hacc))

/-- What a finished SRTP_TX has checked, and the state it leaves: `v` is the ROC value it estimated
(45_srtp_index_replay.md R259). -/
structure SrtpSent (s t : State) (c : BitVec 4) (v : Nat) : Prop where
  range : InRange s s.op.srcAddr s.op.dstCap
  fits : RtpFits s.pb s.op.srcAddr.toNat s.op.srcLen.toNat
  ssrc : memWord s.pb (s.op.srcAddr.toNat + 8) = (s.bank c).ssrc
  room : s.op.srcLen.toNat + (ctxLens s (s.bank c)).tagLen + mkiLen (s.bank c) ≤ s.op.dstCap.toNat
  estimate : estimateV (s.bank c) (rtpSeq s.pb s.op.srcAddr.toNat) = v
  rocFits : v < 2 ^ 32
  after : t = { srtpTxDone c s (rtpHeaderOf s.pb s.op.srcAddr.toNat) v with glob := finishedGlob s.glob }

/-- An SRTP_TX that leaves no error had a context ready to send, and passed its checks. -/
theorem srtpSent_of_finished {s t : State} {c : BitVec 4} (hx : exec (.srtpTx c) s = .next t)
    (h0 : t.glob.status.errcode = 0) : ∃ v, SrtpSent s t c v := by
  obtain ⟨u, hu, rfl⟩ := exec_finished hx h0
  have hctx : ctxError s c (some false) = none := by
    by_contra hne
    obtain ⟨e, he⟩ := Option.ne_none_iff_exists'.mp hne
    exact nomatch (ruleOf_ctxError (i := .srtpTx c) rfl nofun nofun he).symm.trans hu
  obtain ⟨hbank, hvalid, hdir⟩ := ctxError_eq_none hctx
  rw [ruleSrtpTx_ready ⟨hbank, hvalid, hdir _ rfl⟩] at hu
  split at hu; · cases hu
  next hrange =>
  split at hu; · cases hu
  next hfits =>
  split at hu; · cases hu
  next hssrc =>
  split at hu; · cases hu
  next hroom =>
  split at hu; · cases hu
  next hneg =>
  split at hu; · cases hu
  next hbig =>
  cases hu
  exact ⟨_, (not_not.mp hrange).1, not_not.mp hfits, not_not.mp hssrc, Nat.not_lt.mp hroom,
    (Int.toNat_of_nonneg (Int.not_lt.mp hneg)).symm, by omega, rfl⟩

/-- A packet index fits its 48-bit register when its ROC value fits 32 bits (45_srtp_index_replay.md R250). -/
theorem packetIndex_toNat {v : Nat} (hv : v < 2 ^ 32) (seq : BitVec 16) :
    (BitVec.ofNat 48 (packetIndex v seq)).toNat = v * 65536 + seq.toNat := by
  have hseq := seq.isLt
  rw [packetIndex, BitVec.toNat_ofNat, Nat.mod_eq_of_lt (by omega)]

/-- A sequence number one above the last is estimated at ROC, and at ROC + 1 when it wrapped to 0
(45_srtp_index_replay.md R250, R260). -/
theorem estimateV_next {b : Ctx} (hs : b.status.slValid = true) :
    estimateV b (b.sL + 1) = if b.sL + 1 = 0 then (b.roc.toNat : Int) + 1 else b.roc.toNat := by
  have hsL := b.sL.isLt
  have hnext : (b.sL + 1).toNat = (b.sL.toNat + 1) % 65536 := BitVec.toNat_add b.sL 1
  have hzero : b.sL + 1 = 0 ↔ (b.sL + 1).toNat = 0 := BitVec.toNat_inj.symm
  simp only [estimateV, hs, Bool.not_true, Bool.false_eq_true, if_false, hzero, hnext]
  split_ifs <;> omega

/-- R254's update after a sequence number one above the last: ROC is the estimate, and S_L the sequence number. -/
theorem updateRocSl_next {b : Ctx} {v : Nat} (hs : b.status.slValid = true) (hv : estimateV b (b.sL + 1) = v) :
    updateRocSl b v (b.sL + 1) = { b with roc := u32 v, sL := b.sL + 1 } := by
  rw [estimateV_next hs] at hv
  rw [updateRocSl, if_neg (by simp [hs])]
  split at hv
  · exact if_pos (by omega)
  · next hwrap =>
    obtain rfl : v = b.roc.toNat := by omega
    have hgt : (b.sL + 1).toNat > b.sL.toNat := by bv_omega
    rw [if_neg (Nat.lt_irrefl _), if_pos ⟨rfl, hgt⟩, u32_toNat]

/-- The estimate of a sequence number one above the last as a ROC register, and the packet's index, which is one above
the last too (45_srtp_index_replay.md R260). -/
theorem roc_index_of_next {b : Ctx} {v : Nat} (hs : b.status.slValid = true) (hv : estimateV b (b.sL + 1) = v) :
    u32 v = (if b.sL + 1 = 0 then b.roc + 1 else b.roc) ∧
      v * 65536 + (b.sL + 1).toNat = b.roc.toNat * 65536 + b.sL.toNat + 1 := by
  rw [estimateV_next hs] at hv
  split at hv
  · next hwrap =>
    obtain rfl : v = b.roc.toNat + 1 := by omega
    rw [if_pos hwrap]
    exact ⟨by simp [u32, BitVec.ofNat_add], by bv_omega⟩
  · next hwrap =>
    obtain rfl : v = b.roc.toNat := by omega
    rw [if_neg hwrap]
    exact ⟨u32_toNat b.roc, by bv_omega⟩

/-- Settles O54: the estimate of the next sequence number is the ROC the send leaves and reports. -/
theorem senderWrap : Obligations.SenderWrap := by
  intro s t c hready hs hseq hx h0
  obtain ⟨v, hsent⟩ := srtpSent_of_finished hx h0
  have hv := hsent.estimate
  rw [hseq] at hv
  have hbank : t.bank c = { s.bank c with roc := u32 v, sL := (s.bank c).sL + 1 } := by
    rw [hsent.after, ← updateRocSl_next hs hv, ← hseq]; exact bank_setBank_self _ _ _
  have hsr : t.sr.roc = u32 v := by rw [hsent.after]; rfl
  have hindex : t.sr.index.toNat = v * 65536 + ((s.bank c).sL + 1).toNat := by
    rw [hsent.after, ← hseq]; exact packetIndex_toNat hsent.rocFits _
  obtain ⟨hroc, hnext⟩ := roc_index_of_next hs hv
  rw [hbank, hsr, hindex, hseq, u32_toNat_of_lt hsent.rocFits]
  exact ⟨hroc, rfl, rfl, hs, rfl, hnext⟩

end Sys2Proof.Machine
end

section
/-! PROOFS. The SRTP round trip: a receiver takes apart what a sender framed (45_srtp_index_replay.md R269). -/

namespace Sys2Proof.Machine

open Sys2Proof

/-- A header is read from its own bytes alone: a buffer with the same bytes there has the same header, and the packet
fits as before whatever follows the header (41_rtp_codec.md R150). -/
theorem rtpHeader_of_sameBytesIn {m m' : Memory} {base len : Nat} (hf : RtpFits m base len)
    (h : SameBytesIn m m' base (rtpHdrLen m base)) :
    RtpFits m' base len ∧ rtpHeaderOf m' base = rtpHeaderOf m base := by
  obtain ⟨-, hversion, -, -, hle⟩ := hf
  have hlen : rtpHdrLen m base = 12 + 4 * rtpCc m base + if rtpX m base then 4 + 4 * rtpWords m base else 0 := rfl
  have hself : RtpFits m base (rtpHdrLen m base) :=
    ⟨by omega, hversion, by omega, fun hx => by rw [hlen, if_pos hx]; omega, le_refl _⟩
  have hparse := parseRtpHeader_eq_of_sameBytesIn h
  rw [parseRtpHeader_eq, parseRtpHeader_eq, if_pos hself] at hparse
  split at hparse
  · next hfit =>
    obtain ⟨h12, hversion', hcsrc, hext, hle'⟩ := hfit
    exact ⟨⟨h12.trans hle, hversion', hcsrc.trans hle, fun hx => (hext hx).trans hle, hle'.trans hle⟩,
      Except.ok.inj hparse⟩
  · cases hparse

/-- What a send context and its receive context share, the two ends of one stream (45_srtp_index_replay.md R269; the
rate by log entry 17). -/
structure SameStream (b b' : Ctx) : Prop where
  profile : b'.cfg.profile = b.cfg.profile
  mkiEn : b'.cfg.mkiEn = b.cfg.mkiEn
  mki : b'.mki = b.mki
  ssrc : b'.ssrc = b.ssrc
  kdr : b'.kdr = b.kdr
  mkeyAct : b'.mkeyAct = b.mkeyAct
  msaltAct : b'.msaltAct = b.msaltAct
  roc : b'.roc = b.roc
  sL : b'.sL = b.sL
  slValid : b'.status.slValid = b.status.slValid

section Stream

variable {b b' : Ctx} (h : SameStream b b')
include h

theorem mkiLen_of_sameStream : mkiLen b' = mkiLen b := by rw [mkiLen, mkiLen, h.mkiEn]

theorem ctxLens_of_sameStream {s s' : State} (hp : s'.params = s.params) : ctxLens s' b' = ctxLens s b := by
  rw [ctxLens, ctxLens, hp, h.profile]

theorem estimateV_of_sameStream (seq : BitVec 16) : estimateV b' seq = estimateV b seq := by
  simp only [estimateV, h.roc, h.sL, h.slValid]

theorem srtpReport_of_sameStream {s s' : State} (hp : s'.params = s.params) (base len hdrLen v index : Nat) :
    srtpReport s' b' base len hdrLen v index = srtpReport s b base len hdrLen v index := by
  simp only [srtpReport, mkiLen_of_sameStream h, ctxLens_of_sameStream h hp, hp, h.mkiEn]

/-- Both ends derive the same keys; SK_INFO names the context (44_srtp_context_kdf.md R231). -/
theorem deriveSet_of_sameStream (p : Params) (c c' : BitVec 4) (rtcp : Bool) (index : Nat) :
    deriveSet p b' c' rtcp index = { deriveSet p b c rtcp index with
      info := { (deriveSet p b c rtcp index).info with ctx := c' } } := by
  simp only [deriveSet, prf, kdfKey, h.profile, h.kdr, h.mkeyAct, h.msaltAct]

end Stream

section Sent

variable {s t : State} {c : BitVec 4} {v : Nat} (h : SrtpSent s t c v)
include h

theorem resLen_of_srtpSent :
    t.op.resLen.toNat = s.op.srcLen.toNat + (ctxLens s (s.bank c)).tagLen + mkiLen (s.bank c) := by
  have hroom := h.room
  rw [h.after]
  exact u32_toNat_of_lt (by omega)

/-- The ranges a send reports, as numbers: no address wraps, since the packet lies in the buffer (00_scope.md R8,
20_memory.md R86). -/
theorem ranges_of_srtpSent (hp : s.params.pbufSize ≤ 65536) :
    t.sr.encOff.toNat = s.op.srcAddr.toNat + rtpHdrLen s.pb s.op.srcAddr.toNat ∧
    t.sr.encLen.toNat = s.op.srcLen.toNat - rtpHdrLen s.pb s.op.srcAddr.toNat ∧
    t.sr.tagOff.toNat = s.op.srcAddr.toNat + s.op.srcLen.toNat +
      (if s.params.mkiBeforeTag then mkiLen (s.bank c) else 0) ∧
    t.sr.tagLen.toNat = (ctxLens s (s.bank c)).tagLen := by
  obtain ⟨hrange, ⟨-, -, -, -, hle⟩, -, hroom, -, -, hafter⟩ := h
  have hbefore : (if s.params.mkiBeforeTag then mkiLen (s.bank c) else 0) ≤ mkiLen (s.bank c) := by split <;> omega
  simp only [InRange] at hrange
  rw [hafter]
  simp only [srtpTxDone, srtpReport_eq]
  exact ⟨u32_toNat_of_lt (by change _ + rtpHdrLen _ _ < _; omega), u32_toNat_of_lt (by omega),
    u32_toNat_of_lt (by omega), u32_toNat_of_lt (by omega)⟩

/-- A buffer that keeps what a send left, but in the encrypted range and in the tag, keeps the packet's header and its
MKI (45_srtp_index_replay.md R255, R269). -/
theorem header_mki_of_srtpSent (hp : s.params.pbufSize ≤ 65536) {m : Memory}
    (hm : ∀ a, s.op.srcAddr.toNat ≤ a → a < s.op.srcAddr.toNat + t.op.resLen.toNat →
      (a < t.sr.encOff.toNat ∨ t.sr.encOff.toNat + t.sr.encLen.toNat ≤ a) →
      (a < t.sr.tagOff.toNat ∨ t.sr.tagOff.toNat + t.sr.tagLen.toNat ≤ a) → memByte m a = memByte t.pb a) :
    SameBytesIn s.pb m s.op.srcAddr.toNat (rtpHdrLen s.pb s.op.srcAddr.toNat) ∧
    ((s.bank c).cfg.mkiEn = true → memWord m (s.op.srcAddr.toNat + s.op.srcLen.toNat +
      if s.params.mkiBeforeTag then 0 else (ctxLens s (s.bank c)).tagLen) = (s.bank c).mki) := by
  obtain ⟨hencOff, hencLen, htagOff, htagLen⟩ := ranges_of_srtpSent h hp
  rw [resLen_of_srtpSent h, hencOff, hencLen, htagOff, htagLen] at hm
  obtain ⟨-, ⟨-, -, -, -, hle⟩, -, -, -, -, hafter⟩ := h
  have hpb : t.pb = placeMki s.pb (s.bank c) (s.op.srcAddr.toNat + s.op.srcLen.toNat +
      if s.params.mkiBeforeTag then 0 else (ctxLens s (s.bank c)).tagLen) := by
    rw [hafter, ← trailer_mkiAddr]; rfl
  obtain ⟨hread, hkeep⟩ := placeMki_spec s.pb (s.bank c) (s.op.srcAddr.toNat + s.op.srcLen.toNat +
    if s.params.mkiBeforeTag then 0 else (ctxLens s (s.bank c)).tagLen)
  refine ⟨fun a ha hlt => ?_, fun hon => ?_⟩
  · rw [hm a ha (by omega) (.inl hlt) (.inl (by omega)), hpb, hkeep a fun _ => .inl (by omega)]
  · have hfour : mkiLen (s.bank c) = 4 := if_pos hon
    rw [← hread hon, ← hpb]
    refine memWord_congr _ _ _ fun k hk => hm _ (by omega) ?_ (.inr (by omega)) ?_
    all_goals cases s.params.mkiBeforeTag <;> simp <;> omega

/-- The matching receive context finds the packet framed, with the header the sender saw (45_srtp_index_replay.md
R269). -/
theorem framed_of_srtpSent {u : State} {b : Ctx} (hb : SameStream (s.bank c) b) (hparams : u.params = s.params)
    (haddr : u.op.srcAddr = s.op.srcAddr) (hlen : u.op.srcLen = t.op.resLen)
    (hhead : SameBytesIn s.pb u.pb s.op.srcAddr.toNat (rtpHdrLen s.pb s.op.srcAddr.toNat))
    (hmki : (s.bank c).cfg.mkiEn = true → memWord u.pb (s.op.srcAddr.toNat + s.op.srcLen.toNat +
      if s.params.mkiBeforeTag then 0 else (ctxLens s (s.bank c)).tagLen) = (s.bank c).mki) :
    SrtpFramed u b s.op.srcLen.toNat v ∧
      rtpHeaderOf u.pb s.op.srcAddr.toNat = rtpHeaderOf s.pb s.op.srcAddr.toNat := by
  have hres := resLen_of_srtpSent h
  obtain ⟨hrange, hfits, hssrc, hroom, hestimate, hv, -⟩ := h
  obtain ⟨hfits', hheader⟩ := rtpHeader_of_sameBytesIn hfits hhead
  have hseq : rtpSeq u.pb s.op.srcAddr.toNat = rtpSeq s.pb s.op.srcAddr.toNat := congrArg RtpHeader.seq hheader
  have hssrc' : memWord u.pb (s.op.srcAddr.toNat + 8) = memWord s.pb (s.op.srcAddr.toNat + 8) :=
    congrArg RtpHeader.ssrc hheader
  have hlens := ctxLens_of_sameStream hb hparams
  refine ⟨⟨?_, ?_, ?_, ?_, ?_, ?_, hv⟩, hheader⟩
  · simp only [InRange] at hrange ⊢; rw [haddr, hlen, hparams]; omega
  · rw [hlen, hres, hlens, mkiLen_of_sameStream hb]
  · rw [haddr]; exact hfits'
  · rw [haddr, hssrc', hssrc, hb.ssrc]
  · rw [haddr, hlens, hparams, hb.mkiEn, hb.mki]; exact hmki
  · rw [haddr, hseq, estimateV_of_sameStream hb, hestimate]

theorem srIndex_of_srtpSent : t.sr.index.toNat = packetIndex v (rtpSeq s.pb s.op.srcAddr.toNat) := by
  have hv := h.rocFits
  rw [h.after]
  exact packetIndex_toNat hv _

/-- The check of a packet so framed, of an index the window lets through, finishes and shows what the send showed
(45_srtp_index_replay.md R261, R269). -/
theorem srtpRxCheck_of_srtpSent {u : State} {d : BitVec 4} (hready : CtxReady u d true)
    (hb : SameStream (s.bank c) (u.bank d)) (hparams : u.params = s.params) (haddr : u.op.srcAddr = s.op.srcAddr)
    (hframed : SrtpFramed u (u.bank d) s.op.srcLen.toNat v)
    (hheader : rtpHeaderOf u.pb s.op.srcAddr.toNat = rtpHeaderOf s.pb s.op.srcAddr.toNat)
    (hfresh : replayed (srtpWindow (u.bank d)) t.sr.index.toNat = false) :
    ∃ w, exec (.srtpRxCheck d) u = .next w ∧ w.glob.status.errcode = 0 ∧ w.sr = t.sr ∧
      w.sk = { t.sk with info := { t.sk.info with ctx := d } } ∧ w.op.resLen = s.op.srcLen := by
  have hseq : rtpSeq u.pb s.op.srcAddr.toNat = rtpSeq s.pb s.op.srcAddr.toNat := congrArg RtpHeader.seq hheader
  have hrule := ruleSrtpRxCheck_framed hready hframed
  rw [haddr, hseq, hheader, ← srIndex_of_srtpSent h, if_neg (by rw [hfresh]; decide)] at hrule
  refine ⟨_, exec_of_ok hrule, rfl, ?_, ?_, u32_toNat _⟩
  · rw [h.after]
    simp only [srtpRxCheckDone, haddr]
    exact srtpReport_of_sameStream hb hparams _ _ _ _ _
  · rw [h.after]
    simp only [srtpRxCheckDone, hparams]
    exact deriveSet_of_sameStream hb _ _ _ _ _

end Sent

/-- Settles O57: what the cipher unit may write leaves the header and the MKI, so the receiver finds the packet framed
with the sender's header and ROC value, and both report and derive from the same index. -/
theorem srtpRoundTrip : Obligations.SrtpRoundTrip := by
  intro s t m cs cr hne hx h0 hp hready hprofile hmkiEn hmki hssrc hkdr hkey hsalt hroc hsL hsl hfresh hbytes
  obtain ⟨v, hsent⟩ := srtpSent_of_finished hx h0
  obtain ⟨-, -, ⟨-, hsize, -⟩, -⟩ := hp
  have hstream : SameStream (s.bank cs) (s.bank cr) :=
    ⟨hprofile, hmkiEn, hmki, hssrc, hkdr, hkey, hsalt, hroc, hsL, hsl⟩
  have hparams : t.params = s.params := by rw [hsent.after]; rfl
  have haddr : t.op.srcAddr = s.op.srcAddr := by rw [hsent.after]; rfl
  have hbank : t.bank cr = s.bank cr := by rw [hsent.after]; exact bank_setBank_ne s _ hne
  obtain ⟨hhead, hmkiBytes⟩ := header_mki_of_srtpSent hsent hsize hbytes
  obtain ⟨hframed, hheader⟩ := framed_of_srtpSent hsent
    (u := { t with pb := m, op := { t.op with srcLen := t.op.resLen } }) hstream hparams haddr rfl hhead hmkiBytes
  rw [← hbank] at hstream hframed hfresh
  rw [CtxReady, ← hbank, ← hparams] at hready
  exact srtpRxCheck_of_srtpSent hsent hready hstream hparams haddr hframed hheader hfresh

end Sys2Proof.Machine
end

section
/-! PROOFS. How an engine step ends: what Complete writes, what a raise leaves, and the W1C writes of the flags it sets
(60_exceptions.md R301 to R303, R312). -/

namespace Sys2Proof.Machine

open Sys2Proof

/-- Every engine step completes with an outcome, that of an illegal word too, and a raise leaves nothing but the
completion (60_exceptions.md R302, R303). -/
theorem engineStep_completes (s : State) : ∃ t r, engineStep s = .next t ∧ t.glob = completeGlob s.glob r ∧
    ∀ e, r = some e → t = raised s e := by
  unfold engineStep
  cases decode s.glob.pending with
  | error _ =>
    exact ⟨raised s .illegalCommand, _, rfl, rfl, fun _ he => congrArg (raised s) (Option.some.inj he)⟩
  | ok i =>
    cases hr : ruleOf i s with
    | error e => exact ⟨_, some e, exec_of_error hr, rfl, fun _ he => congrArg (raised s) (Option.some.inj he)⟩
    | ok u =>
      exact ⟨_, none, exec_of_ok hr, congrArg finishedGlob (ruleOf_frame hr).glob, fun _ he => absurd he nofun⟩

/-- The two classes of INT_STATUS by the code of the outcome (60_exceptions.md R300, R301). -/
theorem completeInts_eq (i : IntBits) (r : Option CmdError) : completeInts i r =
    ⟨true, i.err || decide (outcomeCode r ∈ ([1, 2, 6, 7, 8] : List (BitVec 8))),
      i.sec || decide (outcomeCode r ∈ ([3, 4, 5] : List (BitVec 8)))⟩ := by
  cases r with
  | none => simp [completeInts, outcomeCode]
  | some e => cases e <;> rfl

/-- Complete on the global registers, field by field, by the code of the outcome (60_exceptions.md R302, R311). -/
theorem completeGlob_eq (g : GlobalRegs) (r : Option CmdError) : completeGlob g r =
    { g with
      status := { g.status with busy := false, done := true, err := outcomeCode r != 0, errcode := outcomeCode r }
      intStatus := ⟨true, g.intStatus.err || decide (outcomeCode r ∈ ([1, 2, 6, 7, 8] : List (BitVec 8))),
        g.intStatus.sec || decide (outcomeCode r ∈ ([3, 4, 5] : List (BitVec 8)))⟩
      cmdCount := g.cmdCount + 1
      irq := irqLine g.intEn (completeGlob g r).intStatus } := by
  rw [← completeInts_eq]; rfl

/-- Settles O6: the completion's code is that of its outcome. -/
theorem completionEffects : Obligations.CompletionEffects := by
  intro s
  obtain ⟨t, r, hstep, hglob, -⟩ := engineStep_completes s
  refine ⟨t, outcomeCode r, hstep, outcomeCode_le r, ?_⟩
  rw [hglob]
  exact completeGlob_eq s.glob r

/-- Settles O7: a code that is not 0 is that of an error, and the step is the raise of that error. -/
theorem raisingChangesNothingElse : Obligations.RaisingChangesNothingElse := by
  intro s t code hstep hcode hne
  obtain ⟨t', r, hstep', hglob, hraised⟩ := engineStep_completes s
  obtain rfl : t' = t := Host.Outcome.next.inj (hstep'.symm.trans hstep)
  obtain rfl : code = outcomeCode r := by rw [hcode, hglob]; rfl
  cases r with
  | none => exact absurd rfl hne
  | some e =>
    have herr : (outcomeCode (some e) != 0) = true := bne_iff_ne.mpr hne
    have hcomplete := completeGlob_eq s.glob (some e)
    rw [herr] at hcomplete
    rw [hraised e rfl, raised]
    exact congrArg (fun g => { s with glob := g }) hcomplete

/-- Settles O18: both registers are of the status group, so the interface is open for them whatever BUSY is. -/
theorem writeOneToClear : Obligations.WriteOneToClear := by
  intro s v
  exact ⟨hostAccess_write v (targetOf_low (r := .intStatus) (by decide) (by decide) (by decide)) (.inr rfl),
    hostAccess_write v (targetOf_low (r := .status) (by decide) (by decide) (by decide)) (.inr rfl)⟩

end Sys2Proof.Machine
end

section
/-! PROOFS. Which errors a command raises: a rule is a list of checks, each with its own error (60_exceptions.md R300,
R305). -/

namespace Sys2Proof.Machine

open Sys2Proof

/-- A rule, or a part of one, that raises no error but those of a list. -/
def RaisesOnly {α : Type} (es : List CmdError) (r : Except CmdError α) : Prop := ∀ e, r = .error e → e ∈ es

namespace RaisesOnly

variable {α : Type} {es : List CmdError} {p : Prop} [Decidable p]

theorem ok (a : α) : RaisesOnly es (.ok a) := nofun

theorem error {e : CmdError} (he : e ∈ es) : RaisesOnly es (.error e : Except CmdError α) :=
  fun _ h => Except.error.inj h ▸ he

theorem ite {r q : Except CmdError α} (hr : RaisesOnly es r) (hq : RaisesOnly es q) :
    RaisesOnly es (if p then r else q) := by
  split
  · exact hr
  · exact hq

/-- One check of a rule: its error, which `simp` looks up in the list, and the rest of the rule. -/
theorem check {e : CmdError} {rest : Except CmdError α} (hrest : RaisesOnly es rest)
    (he : e ∈ es := by simp [mayRaise]) : RaisesOnly es (if p then .error e else rest) :=
  ite (error he) hrest

end RaisesOnly

/-- Building a packet at DST_ADDR raises for its range or for its size (43_rtcp.md R195 to R197). -/
theorem buildAt_raisesOnly (s : State) (len : Nat) (bytes : List Byte) (rx : RxRegs) :
    RaisesOnly [.invalidParam, .bufferTooSmall] (buildAt s len bytes rx) :=
  .check <| .check <| .ok _

/-- ParseCommonHeader raises nothing but InvalidPacket (43_rtcp.md R200). -/
theorem parseCommonHeader_raisesOnly (m : Memory) (base len : Nat) :
    RaisesOnly [.invalidPacket] (parseCommonHeader m base len) :=
  .check <| .check <| .check <| .ok _

/-- The body of an RTCP packet raises nothing but InvalidPacket, whatever its type (43_rtcp.md R201, R203). -/
theorem parseBody_raisesOnly (s : State) (base : Nat) (ch : RtcpCommon) :
    RaisesOnly [.invalidPacket] (parseBody s base ch) := by
  have hsr : RaisesOnly [.invalidPacket] (parseSr s base ch) := .check <| .ok _
  have hrr : RaisesOnly [.invalidPacket] (parseRr s base ch) := .check <| .ok _
  have hbye : RaisesOnly [.invalidPacket] (parseBye s base ch) := .check <| .ok _
  exact .ite hsr <| .ite hrr <| .ite hbye <| .ite (.ok _) (.ok _)

/-- RTCP_PARSE raises for its range, or for what is wrong with the packet (43_rtcp.md R204). -/
theorem ruleRtcpParse_raisesOnly (s : State) : RaisesOnly [.invalidParam, .invalidPacket] (ruleRtcpParse s) := by
  refine .check ?_
  split
  · next hhead => exact .error (List.mem_cons_of_mem _ (parseCommonHeader_raisesOnly _ _ _ _ hhead))
  split
  · next hbody => exact .error (List.mem_cons_of_mem _ (parseBody_raisesOnly _ _ _ _ hbody))
  · exact .ok _

/-- A command that is about no context raises only what R300 lists for it (60_exceptions.md R300). -/
theorem ruleOf_raisesOnly_of_noContext {i : Instr} (s : State) (hc : contextOf i = none) :
    RaisesOnly (mayRaise i) (ruleOf i s) := by
  cases i <;> simp only [contextOf, reduceCtorEq] at hc
  case nop | sessInit | seqDiff => exact .ok _
  case rtpEncode => exact .check <| .check <| .check <| .check <| .ok _
  case rtpDecode => exact fun e he => by simpa [mayRaise] using ruleRtpDecode_error he
  case sessCreatePacket => exact .check <| .check <| .check <| .ok _
  case sessProcessReceived =>
    rw [ruleSessProcessReceived_eq]
    exact .check <| .check <| .ok _
  case rtcpCreateSr | rtcpCreateRr | rtcpCreateBye => exact buildAt_raisesOnly _ _ _ _
  case rtcpParse => exact ruleRtcpParse_raisesOnly s

/-- A command with a direction raises InvalidParam or NotInitialized where the checks of its context fail, both of which
R300 lists for it; what it raises where the context is ready is left to show (60_exceptions.md R300, R305). -/
theorem ruleOf_raisesOnly_of_ready {i : Instr} {s : State} {c : BitVec 4} {d : Bool} (hc : contextOf i = some c)
    (hd : directionOf i = some d) (hready : CtxReady s c d → RaisesOnly (mayRaise i) (ruleOf i s)) :
    RaisesOnly (mayRaise i) (ruleOf i s) := by
  cases he : ctxError s c (directionOf i) with
  | none =>
    obtain ⟨hbank, hvalid, hdir⟩ := ctxError_eq_none he
    exact hready ⟨hbank, hvalid, hdir d hd⟩
  | some e =>
    have hmem : e ∈ [CmdError.invalidParam, .notInitialized] := by simpa using ctxError_some he
    rw [ruleOf_ctxError hc (by rintro rfl; cases hd) (by rintro rfl; cases hd) he]
    refine .error ?_
    cases i <;> cases hd
    all_goals exact List.mem_append_left _ hmem

/-- A command that is about a context raises only what R300 lists for it (60_exceptions.md R300). -/
theorem ruleOf_raisesOnly_of_context {i : Instr} (s : State) {c : BitVec 4} (hc : contextOf i = some c) :
    RaisesOnly (mayRaise i) (ruleOf i s) := by
  cases i <;> cases hc
  case ctxInit => exact .check <| .check <| .check <| .check <| .ok _
  case ctxTeardown => exact .check <| .ok _
  case ctxUpdateKey | kdf =>
    simp only [ruleOf, ruleCtxUpdateKey, ruleKdf]
    split
    · next he => exact .error (by simpa [mayRaise] using ctxError_some he)
    · exact .ok _
  case srtpTx =>
    refine ruleOf_raisesOnly_of_ready rfl rfl fun hready => ?_
    rw [ruleSrtpTx_ready hready]
    exact .check <| .check <| .check <| .check <| .check <| .check <| .ok _
  case srtpRxCheck =>
    refine ruleOf_raisesOnly_of_ready rfl rfl fun hready => ?_
    rw [ruleSrtpRxCheck_ready hready rfl]
    exact .check <| .check <| .check <| .check <| .check <| .check <| .check <| .check <| .ok _
  case srtpRxCommit =>
    refine ruleOf_raisesOnly_of_ready rfl rfl fun hready => ?_
    rw [ruleSrtpRxCommit_ready hready]
    exact .check <| .check <| .check <| .ok _
  case srtcpTx =>
    refine ruleOf_raisesOnly_of_ready rfl rfl fun hready => ?_
    rw [ruleSrtcpTx_ready hready]
    exact .check <| .check <| .check <| .check <| .check <| .ok _
  case srtcpRxCheck =>
    refine ruleOf_raisesOnly_of_ready rfl rfl fun hready => ?_
    rw [ruleSrtcpRxCheck_ready hready rfl]
    exact .check <| .check <| .check <| .check <| .check <| .check <| .ok _
  case srtcpRxCommit =>
    refine ruleOf_raisesOnly_of_ready rfl rfl fun hready => ?_
    rw [ruleSrtcpRxCommit_ready hready]
    exact .check <| .check <| .check <| .ok _

/-- Settles O8: a command raises what its rule answers, and every check of a rule raises an error of R300's column. -/
theorem errorSources : Obligations.ErrorSources := by
  intro i s e hraises
  have hrule : ruleOf i s = .error e := (raises_iff i s e).mp hraises
  cases hc : contextOf i with
  | none => exact ruleOf_raisesOnly_of_noContext s hc e hrule
  | some c => exact ruleOf_raisesOnly_of_context s hc e hrule

end Sys2Proof.Machine
end

section
/-! PROOFS. A host write to CTRL (70_reset_and_hazards.md R331, R332). -/

namespace Sys2Proof.Machine

open Sys2Proof

/-- CTRL is in the status group, so the interface is open for the write whatever BUSY is, and it always reaches the
register (20_memory.md R85, 70_reset_and_hazards.md R331). -/
theorem hostAccess_write_ctrl (s : State) (v : Word) :
    hostAccess s (.write 0x004 .word v) = withIrq (writeReg s .ctrl v) :=
  hostAccess_write v (targetOf_low (by decide) (by decide) (by decide)) (.inr rfl)

/-- After a soft reset no interrupt is enabled or set, and the reset value of the line is its formula's value
(60_exceptions.md R311, 70_reset_and_hazards.md R331). -/
theorem withIrq_softReset (s : State) : withIrq (softReset s) = softReset s := rfl

/-- Settles O17: the write reaches CTRL, and its bit 0 decides between a soft reset and nothing. -/
theorem softReset_access : Obligations.SoftReset := by
  intro s v
  rw [hostAccess_write_ctrl]
  constructor
  · intro hset
    rw [writeReg_ctrl_set hset, withIrq_softReset]
    rfl
  · intro hclear
    rw [writeReg_ctrl_clear (Bool.eq_false_iff.mp hclear)]

end Sys2Proof.Machine
end
